-- ==== Sys2Proof/Word.lean ====
section
/-! DEFINITION. The word types of the block and of its three interfaces: bytes, 16-bit words, 12-bit offsets, the width
of a host access, and the events the host, the link and the platform can raise. -/

namespace Sys2Proof

/-- A byte of a frame or a byte-wide register: 8 bits (00_scope.md R9, R13). -/
abbrev Byte := BitVec 8

/-- A host-visible word, `HOST_DATA_BITS` = 16 (00_scope.md R7, R13). -/
abbrev Word := BitVec 16

/-- A byte offset of the host port, `HOST_OFFSET_BITS` = 12 (00_scope.md R7; 20_memory.md R60). -/
abbrev Offset := BitVec 12

/-- The width a host access uses. Only `bits16` is admitted; the others, a 16-bit access with only one byte lane
enabled among them, raise BusError (20_memory.md R62). -/
inductive AccessWidth where
  | bits8
  | bits16
  | bits32
  | oneLane
  deriving DecidableEq, Repr

/-- What an agent outside the block can raise: a host access, a link event, or RESET (00_scope.md R11; 30_encoding.md
R93; 20_memory.md R67, R68). -/
inductive Event where
  /-- HOST: a read of `width` at byte offset `off`. -/
  | hostRead (off : Offset) (width : AccessWidth)
  /-- HOST: a write of `width` of the value `v` at byte offset `off`. -/
  | hostWrite (off : Offset) (width : AccessWidth) (v : Word)
  /-- LINK: the link takes the next request byte. -/
  | txTake
  /-- LINK: the link delivers the response byte `d`. -/
  | rxByte (d : Byte)
  /-- LINK: the link's response timer expired. -/
  | rxTimeout
  /-- PLATFORM: reset. -/
  | reset
  deriving DecidableEq, Repr

end Sys2Proof
end

