-- ==== Sys2Proof/Config.lean ====
section
/-! DEFINITION. What is fixed for the block (00_scope.md R7), for its link (R8), and the three OPEN parameters of
92_eei_decisions.md, which are opaque: no rule of the block depends on them (log 10). -/

namespace Sys2Proof.Config

/-- `SLAVE_ID`, the constant `SLAVE` register (00_scope.md R7; 10_state.md R31). -/
abbrev slaveId : Byte := 0x01#8

/-- `MAX_RHR_COUNT`: the largest quantity of ENC_RHR (00_scope.md R7). -/
abbrev maxRhrCount : Nat := 125

/-- `MAX_RC_COUNT`: the largest quantity of ENC_RC (00_scope.md R7). -/
abbrev maxRcCount : Nat := 2000

/-- `RX_BUF_BYTES` = 5 + 255 (00_scope.md R7). The other sizes of R7 stand in the types of State: `TX_BUF_BYTES` = 8,
`RESULT_REG_WORDS` = 125, `RESULT_COIL_WORDS` = 125. -/
abbrev rxBufBytes : Nat := 260

/-- `RESPONSE_TIMEOUT_MS`: the link's, no rule of the block depends on it (00_scope.md R8). -/
abbrev responseTimeoutMs : Nat := 500

/-- The three device profiles of the link; the default comes first (00_scope.md R8; 95_test_vectors.md L1.1). -/
inductive Profile where
  | c
  | a
  | b
  deriving DecidableEq, Repr, Inhabited

/-- The parity setting of a profile. -/
inductive Parity where
  | none
  | even
  deriving DecidableEq, Repr

/-- The serial parameters of a profile (00_scope.md R8). -/
structure LineSettings where
  baud     : Nat
  dataBits : Nat
  parity   : Parity
  stopBits : Nat
  deriving DecidableEq, Repr

/-- The serial parameters of each profile (00_scope.md R8): 8 data bits in every one. -/
def Profile.settings : Profile → LineSettings
  | .a => ⟨19200, 8, .even, 1⟩
  | .b => ⟨9600, 8, .none, 1⟩
  | .c => ⟨9600, 8, .none, 1⟩

/-- OPEN parameter `PROFILE`: the profile of this run (92_eei_decisions.md). -/
opaque profile : Profile

/-- OPEN parameter `MRFE_BASE` divided by 4096: the base is 4 KiB-aligned (92_eei_decisions.md; 20_memory.md R78). -/
opaque mrfeBasePage : Nat

/-- `MRFE_BASE`: where the platform places the offset space (20_memory.md R78). -/
def mrfeBase : Nat := 4096 * mrfeBasePage

/-- OPEN parameter `MRFE_IRQ_LINE`: the interrupt controller input IRQ drives, or none (60_exceptions.md R221). -/
opaque mrfeIrqLine : Option Nat

end Sys2Proof.Config
end

