-- ==== Sys2Proof/Syntax.lean ====
section
/-! DEFINITION. The instructions: one constructor per row of spec/opcode_table.json, that is the seven command words,
the three link events, RESET and the two host accesses. -/

namespace Sys2Proof

/-- What the block can be told to do in one atomic step (00_scope.md R11). A command carries its whole `imm8` field: a
nonzero one is refused by every command but CRC_BYTE (30_encoding.md R80, R91). -/
inductive Instr where
  /-- ENC_RC: encode a read-coils request (40_encoder.md R112). -/
  | encRc (imm8 : Byte)
  /-- ENC_RHR: encode a read-holding-registers request (40_encoder.md R111). -/
  | encRhr (imm8 : Byte)
  /-- ENC_WSC: encode a write-single-coil request (40_encoder.md R114). -/
  | encWsc (imm8 : Byte)
  /-- ENC_WSR: encode a write-single-register request (40_encoder.md R113). -/
  | encWsr (imm8 : Byte)
  /-- CLEAR: end a finished transaction (43_control.md R190). -/
  | clear (imm8 : Byte)
  /-- CRC_INIT: load the generator's initial value (42_crc.md R175). -/
  | crcInit (imm8 : Byte)
  /-- CRC_BYTE d: feed one byte into the generator (42_crc.md R176). -/
  | crcByte (d : Byte)
  /-- TX_TAKE: the link takes the next request byte (41_decoder.md R131). -/
  | txTake
  /-- RX_BYTE d: the link delivers one response byte (41_decoder.md R132). -/
  | rxByte (d : Byte)
  /-- RX_TIMEOUT: the link's response timer expired (41_decoder.md R142). -/
  | rxTimeout
  /-- RESET: the platform resets the block (70_reset_and_hazards.md R230). -/
  | reset
  /-- MemRead: a host read (20_memory.md R67). -/
  | memRead (off : Offset) (width : AccessWidth)
  /-- MemWrite: a host write (20_memory.md R68). -/
  | memWrite (off : Offset) (width : AccessWidth) (v : Word)
  deriving DecidableEq, Repr

end Sys2Proof
end

