-- ==== Sys2Proof/WellFormed.lean ====
section
/-! DEFINITION. Which terms of Instr are well formed: those the decoder can give. -/

namespace Sys2Proof

/-- The opcodes of the command map (30_encoding.md R81); every other one is undefined (R91). -/
def definedOps : List Byte := [0x01#8, 0x03#8, 0x05#8, 0x06#8, 0x10#8, 0x20#8, 0x21#8]

/-- The one check: a 16-bit write to CMD whose word carries a defined opcode is written as the command it performs
(30_encoding.md R80, R81), so that each host write is one instruction (log 6). Every other term is well formed: a
nonzero `imm8`, an odd or unmapped offset and a width other than 16 bits are forms the spec gives an outcome. -/
def Instr.WellFormed : Instr → Bool
  | .memWrite off width v =>
      !(off == 0x000#12 && width == .bits16 && definedOps.contains (v.extractLsb' 0 8))
  | .encRc _ | .encRhr _ | .encWsc _ | .encWsr _ | .clear _ | .crcInit _ | .crcByte _ => true
  | .txTake | .rxByte _ | .rxTimeout | .reset | .memRead _ _ => true

end Sys2Proof
end

