-- ==== Sys2Proof/Decode.lean ====
section
/-! DEFINITION. The decoder, from command words and events to instructions, and after it the encoder, both written from
30_encoding.md R80, R81, R93 and 20_memory.md R67, R68. -/

namespace Sys2Proof

/-- Why a command word is no command (30_encoding.md R91; 60_exceptions.md R202). -/
inductive CommandReject where
  | undefinedOp (op : Byte)
  deriving DecidableEq, Repr

/-- The `op` field of a command word, bits 7:0 (30_encoding.md R80). -/
def commandOp (v : Word) : Byte := v.extractLsb' 0 8

/-- The `imm8` field of a command word, bits 15:8 (30_encoding.md R80). -/
def commandImm (v : Word) : Byte := v.extractLsb' 8 8

/-- The command a word written to CMD encodes, or the name of what is wrong with it (30_encoding.md R81). -/
def decodeCommand (v : Word) : Except CommandReject Instr :=
  if commandOp v = 0x01#8 then .ok (.encRc (commandImm v))
  else if commandOp v = 0x03#8 then .ok (.encRhr (commandImm v))
  else if commandOp v = 0x05#8 then .ok (.encWsc (commandImm v))
  else if commandOp v = 0x06#8 then .ok (.encWsr (commandImm v))
  else if commandOp v = 0x10#8 then .ok (.clear (commandImm v))
  else if commandOp v = 0x20#8 then .ok (.crcInit (commandImm v))
  else if commandOp v = 0x21#8 then .ok (.crcByte (commandImm v))
  else .error (.undefinedOp (commandOp v))

/-- The instruction a host write is: the command its word encodes where it is a 16-bit write to CMD (30_encoding.md
R80), else the MemWrite itself. A word that encodes no command stays a MemWrite, which refuses it (R81). -/
def decodeHostWrite (off : Offset) (width : AccessWidth) (v : Word) : Instr :=
  if off = 0x000#12 ∧ width = .bits16 then
    match decodeCommand v with
    | .ok i => i
    | .error _ => .memWrite off width v
  else .memWrite off width v

/-- The instruction an event is; total on every event. -/
def decode : Event → Instr
  | .hostRead off width => .memRead off width
  | .hostWrite off width v => decodeHostWrite off width v
  | .txTake => .txTake
  | .rxByte d => .rxByte d
  | .rxTimeout => .rxTimeout
  | .reset => .reset

/-- The instruction of a word numbered as spec/opcode_table.json numbers it. Only the rows of format CMD16 have a word;
the event rows have none (log 12). -/
def decodeTableWord (nbits w : Nat) : Option Instr :=
  if nbits = 16 then
    match decodeCommand (BitVec.ofNat 16 w) with
    | .ok i => some i
    | .error _ => none
  else none

/-! The encoder. -/

/-- The command word of an opcode and an immediate: `imm8` in bits 15:8, `op` in bits 7:0 (30_encoding.md R80). -/
def commandWord (imm op : Byte) : Word := imm ++ op

/-- The 16-bit host write to CMD that performs a command (30_encoding.md R80). -/
def commandEvent (imm op : Byte) : Event := .hostWrite 0x000#12 .bits16 (commandWord imm op)

/-- The event that performs an instruction (30_encoding.md R81, R93; 20_memory.md R67, R68). -/
def encode : Instr → Event
  | .encRc imm => commandEvent imm 0x01#8
  | .encRhr imm => commandEvent imm 0x03#8
  | .encWsc imm => commandEvent imm 0x05#8
  | .encWsr imm => commandEvent imm 0x06#8
  | .clear imm => commandEvent imm 0x10#8
  | .crcInit imm => commandEvent imm 0x20#8
  | .crcByte d => commandEvent d 0x21#8
  | .txTake => .txTake
  | .rxByte d => .rxByte d
  | .rxTimeout => .rxTimeout
  | .reset => .reset
  | .memRead off width => .hostRead off width
  | .memWrite off width v => .hostWrite off width v

end Sys2Proof
end

