-- ==== Sys2Proof/Machine/State.lean ====
section
/-! DEFINITION. The state of the block, as 10_state.md gives it, the two fields the model adds for its interfaces, the
reset state, and the names of the reasons a step can stop. -/

namespace Sys2Proof.Machine

/-- `STATE`, the transaction phase (10_state.md R21); the values 5, 6 and 7 never occur (log 7). -/
inductive Phase where
  | idle
  | tx
  | await
  | doneOk
  | doneErr
  deriving DecidableEq, Repr

/-- `ERRCLASS` (10_state.md R24; 60_exceptions.md R208); value 3 never occurs (log 7). -/
inductive ErrClass where
  | none
  | timeout
  | protocol
  deriving DecidableEq, Repr

/-- `ERRCODE` (10_state.md R25; 60_exceptions.md R209 to R216); no other value occurs (log 7). -/
inductive ErrCode where
  | none
  | timeoutNoResponse
  | timeoutTruncated
  | badFunction
  | crcMismatch
  | slaveMismatch
  | deviceException
  | byteCountMismatch
  | echoMismatch
  deriving DecidableEq, Repr

/-- `CMD_ERR`: the outcome of the last write to CMD (10_state.md R28; 60_exceptions.md R202 to R206) (log 7). -/
inductive CmdErr where
  | ok
  | undefinedOp
  | reservedImm
  | busy
  | badCount
  | badCoilValue
  deriving DecidableEq, Repr

/-- Group T, the transaction engine (10_state.md R20). -/
structure Transaction where
  /-- `STATE` (R21). -/
  state       : Phase
  /-- `ERRCLASS` (R24). -/
  errClass    : ErrClass
  /-- `ERRCODE` (R25). -/
  errCode     : ErrCode
  /-- `EXCODE` (R26). -/
  exCode      : Byte
  /-- `DISCARD` (R27). -/
  discard     : Bool
  /-- `PEND_FUNC` (R34). -/
  pendFunc    : Byte
  /-- `PEND_ADDR` (R35). -/
  pendAddr    : Word
  /-- `PEND_DATA` (R36). -/
  pendData    : Word
  /-- `TXBUF[0..7]` (R37). -/
  txBuf       : Vector Byte 8
  /-- `TX_LEN` (R38). -/
  txLen       : BitVec 4
  /-- `TX_PTR` (R39). -/
  txPtr       : BitVec 4
  /-- `RXBUF[0..259]` (R40). -/
  rxBuf       : Vector Byte 260
  /-- `RX_LEN` (R41). -/
  rxLen       : BitVec 9
  /-- `RX_EXPECT` (R42). -/
  rxExpect    : BitVec 9
  /-- `RESULT_COUNT` (R43). -/
  resultCount : Word
  /-- `RESULT_REG[0..124]` (R44). -/
  resultReg   : Vector Word 125
  /-- `RESULT_COIL[0..124]` (R45). -/
  resultCoil  : Vector Word 125
  deriving DecidableEq, Repr

/-- Group T at its reset values, which ClearTransaction writes (10_state.md R52; 70_reset_and_hazards.md R231). -/
def Transaction.reset : Transaction where
  state       := .idle
  errClass    := .none
  errCode     := .none
  exCode      := 0x00#8
  discard     := false
  pendFunc    := 0x00#8
  pendAddr    := 0x0000#16
  pendData    := 0x0000#16
  txBuf       := Vector.replicate 8 0x00#8
  txLen       := 0#4
  txPtr       := 0#4
  rxBuf       := Vector.replicate 260 0x00#8
  rxLen       := 0#9
  rxExpect    := 0#9
  resultCount := 0#16
  resultReg   := Vector.replicate 125 0x0000#16
  resultCoil  := Vector.replicate 125 0x0000#16

/-- Everything the spec gives the block: group H, group T, group C and group K (10_state.md R20). -/
structure Block where
  /-- `REQ_ADDR`, group H (R32). -/
  reqAddr  : Word
  /-- `REQ_DATA`, group H (R33). -/
  reqData  : Word
  /-- `IRQ_EN`, group H (R46). -/
  irqEn    : Word
  /-- `CRC_CFG`, group H (R47). -/
  crcCfg   : Word
  /-- Group T. -/
  txn      : Transaction
  /-- `CMD_ERR`, group C (R28). -/
  cmdErr   : CmdErr
  /-- `CRC_VALUE`, group K (R48). -/
  crcValue : Word
  deriving DecidableEq, Repr

/-- The block after RESET (70_reset_and_hazards.md R230, R231). -/
def Block.reset : Block where
  reqAddr  := 0x0000#16
  reqData  := 0x0000#16
  irqEn    := 0x0000#16
  crcCfg   := 0x0000#16
  txn      := Transaction.reset
  cmdErr   := .ok
  crcValue := 0xFFFF#16

/-- What the last event gave the agent that raised it (the MODEL's own, log 4): the value a host read returns
(20_memory.md R67), the acknowledgement or the BusError response of a host access (R65), the request byte the link
takes (41_decoder.md R131). -/
inductive Response where
  | none
  | readData (v : Word)
  | writeAck
  | busError (off : Offset)
  | txByte (d : Byte)
  deriving DecidableEq, Repr

/-- The machine: the block, what the last event answered, and the events raised and not yet taken, oldest first (the
MODEL's own, log 1). -/
structure State extends Block where
  response : Response
  inbox    : List Event
  deriving DecidableEq, Repr

/-- The machine right after reset, with no event raised (70_reset_and_hazards.md R231; log 1; log 4). -/
def State.reset : State where
  toBlock  := Block.reset
  response := .none
  inbox    := []

/-- Why a step stops with a fault: in a state that no run reaches (`Block.Inv` of Safety.lean excludes it) the
pseudocode would index a buffer outside its range or has no case (log 5). All are safe: the model stops. -/
inductive Fault where
  /-- TX_TAKE in TX with `TX_PTR` above 7: `TXBUF[TX_PTR]` does not exist (41_decoder.md R131). Safe. -/
  | txIndexOutOfRange
  /-- RX_BYTE in AWAIT with `RX_LEN` above 259: `RXBUF[RX_LEN]` does not exist (41_decoder.md R132, R143). Safe. -/
  | rxBufferFull
  /-- Complete with fewer than five bytes (41_decoder.md R136, its first line). Safe. -/
  | frameTooShort
  /-- Complete with a `PEND_FUNC` that is none of the four function codes (41_decoder.md R136, its case). Safe. -/
  | noPendingFunction
  /-- A read response of more items than the result registers hold (41_decoder.md R138, R139). Safe. -/
  | resultOutOfRange
  deriving DecidableEq, Repr

/-- Why there is no step. -/
inductive Refusal where
  /-- Raised by exec's arm of an instruction that has no meaning yet. Safe. -/
  | notModelled (mnemonic : String)
  /-- TX_TAKE in a state other than TX: the event is not enabled, the link cannot take a byte the block does not offer
  (00_scope.md R12 (d); 41_decoder.md R131). Raised by TX_TAKE. Safe (log 3). -/
  | notEnabled
  /-- No event is pending: the block has no step of its own (00_scope.md R11). Raised by step. Safe (log 1). -/
  | noEvent
  deriving DecidableEq, Repr

/-- What a meaning answers. -/
abbrev Result := Host.Outcome State Fault Refusal

/-- A register of the register map (20_memory.md R61). -/
inductive Reg where
  | cmd | status | errCode | exCode | cmdErr | slave | reqAddr | reqData | pendFunc | pendAddr | pendData
  | txLen | txPtr | rxLen | rxExpect | resultCount | irqEn | crcCfg | crcValue
  | txBuf (i : Fin 8)
  | rxBuf (i : Fin 260)
  | resultReg (i : Fin 125)
  | resultCoil (k : Fin 125)
  deriving DecidableEq, Repr

/-- The right the host has to a register (20_memory.md R61, R64). -/
inductive Access where
  | rw
  | ro
  | wo
  deriving DecidableEq, Repr

/-- The algorithm `CRC_CFG.PRESET` selects (10_state.md R47; 42_crc.md R172). -/
inductive Preset where
  | modbus
  | ibm3740
  | xmodem
  | kermit
  deriving DecidableEq, Repr

end Sys2Proof.Machine
end

