-- ==== Sys2Proof/Machine/Flags.lean ====
section
/-! DEFINITION. The codes of the enumerated fields and the flags derived from the state: BUSY, IRQ and the STATUS word
(10_state.md R21 to R30, R51). -/

namespace Sys2Proof.Machine

/-- The value of the 3-bit field `STATE` (10_state.md R21). -/
def Phase.code : Phase → BitVec 3
  | .idle    => 0#3
  | .tx      => 1#3
  | .await   => 2#3
  | .doneOk  => 3#3
  | .doneErr => 4#3

/-- The value of the 2-bit field `ERRCLASS` (10_state.md R24). -/
def ErrClass.code : ErrClass → BitVec 2
  | .none     => 0#2
  | .timeout  => 1#2
  | .protocol => 2#2

/-- The value of `ERRCODE` (60_exceptions.md R208, the table). -/
def ErrCode.code : ErrCode → Byte
  | .none              => 0x00#8
  | .timeoutNoResponse => 0x01#8
  | .timeoutTruncated  => 0x02#8
  | .badFunction       => 0x10#8
  | .crcMismatch       => 0x11#8
  | .slaveMismatch     => 0x12#8
  | .deviceException   => 0x13#8
  | .byteCountMismatch => 0x14#8
  | .echoMismatch      => 0x15#8

/-- The class of an error code (60_exceptions.md R208, the table). -/
def ErrCode.errClass : ErrCode → ErrClass
  | .none              => .none
  | .timeoutNoResponse => .timeout
  | .timeoutTruncated  => .timeout
  | .badFunction       => .protocol
  | .crcMismatch       => .protocol
  | .slaveMismatch     => .protocol
  | .deviceException   => .protocol
  | .byteCountMismatch => .protocol
  | .echoMismatch      => .protocol

/-- The value of `CMD_ERR` (60_exceptions.md R202 to R206). -/
def CmdErr.code : CmdErr → Byte
  | .ok           => 0x00#8
  | .undefinedOp  => 0x01#8
  | .reservedImm  => 0x02#8
  | .busy         => 0x03#8
  | .badCount     => 0x04#8
  | .badCoilValue => 0x05#8

/-- `BUSY` (10_state.md R23). -/
def Block.busy (b : Block) : Bool :=
  match b.txn.state with
  | .tx | .await => true
  | .idle | .doneOk | .doneErr => false

/-- The transaction is finished: `STATE` is DONE_OK or DONE_ERR (10_state.md R29). -/
def Block.done (b : Block) : Bool :=
  match b.txn.state with
  | .doneOk | .doneErr => true
  | .idle | .tx | .await => false

/-- `IRQ`, the level of the interrupt output (10_state.md R29; 60_exceptions.md R221). -/
def Block.irq (b : Block) : Bool := b.irqEn.getLsbD 0 && b.done

/-- The `CMDERR` flag of STATUS: the last command was refused (10_state.md R30). -/
def Block.cmdErrFlag (b : Block) : Bool := b.cmdErr.code != 0x00#8

/-- The `STATUS` word (10_state.md R30): IRQ, CMDERR, DISCARD, ERRCLASS, BUSY and STATE from bit 8 down, bits 15:9
zero. -/
def Block.status (b : Block) : Word :=
  0#7 ++ BitVec.ofBool b.irq ++ BitVec.ofBool b.cmdErrFlag ++ BitVec.ofBool b.txn.discard
    ++ b.txn.errClass.code ++ BitVec.ofBool b.busy ++ b.txn.state.code

end Sys2Proof.Machine
end

