-- ==== Sys2Proof/Machine/Operands.lean ====
section
/-! DEFINITION. Operand forms: the byte order of 16-bit fields, the operands of the encode commands, the register map
and how each register is presented to the host (20_memory.md R61 to R71; 30_encoding.md R83, R84, R96). -/

namespace Sys2Proof.Machine

/-- The high byte of a 16-bit field, `v[15:8]` (00_scope.md R9). -/
def hiByte (v : Word) : Byte := v.extractLsb' 8 8

/-- The low byte of a 16-bit field, `v[7:0]` (00_scope.md R9). -/
def loByte (v : Word) : Byte := v.extractLsb' 0 8

/-- `high ++ low` (00_scope.md R9). -/
def joinBytes (hi lo : Byte) : Word := hi ++ lo

/-! Operands of the encode commands. -/

/-- The function codes the block sends, which are the encode opcodes (00_scope.md R2; 30_encoding.md R81). -/
def fcReadCoils : Byte := 0x01#8
def fcReadRegs : Byte := 0x03#8
def fcWriteCoil : Byte := 0x05#8
def fcWriteReg : Byte := 0x06#8

/-- The function code of a device exception response to a request: the request's with bit 7 set (30_encoding.md
R85). -/
def exceptionCode (fc : Byte) : Byte := fc ||| 0x80#8

/-- What is wrong with the operand `REQ_DATA` of an encode command, if anything (40_encoder.md R110; 30_encoding.md
R84). -/
def operandError (op : Byte) (n : Word) : Option CmdErr :=
  if op = fcReadRegs ∧ ¬ (1 ≤ n.toNat ∧ n.toNat ≤ Config.maxRhrCount) then some .badCount
  else if op = fcReadCoils ∧ ¬ (1 ≤ n.toNat ∧ n.toNat ≤ Config.maxRcCount) then some .badCount
  else if op = fcWriteCoil ∧ n ≠ 0#16 ∧ n ≠ 1#16 then some .badCoilValue
  else none

/-- The 16-bit data field a request carries for the operand `REQ_DATA` (40_encoder.md R110; 30_encoding.md R84). -/
def dataField (op : Byte) (n : Word) : Word :=
  if op = fcWriteCoil then (if n = 1#16 then 0xFF00#16 else 0x0000#16) else n

/-! The register map. -/

/-- The registers below 0x026, by word index (20_memory.md R61). -/
def namedReg : Nat → Option Reg
  | 0  => some .cmd
  | 1  => some .status
  | 2  => some .errCode
  | 3  => some .exCode
  | 4  => some .cmdErr
  | 5  => some .slave
  | 6  => some .reqAddr
  | 7  => some .reqData
  | 8  => some .pendFunc
  | 9  => some .pendAddr
  | 10 => some .pendData
  | 11 => some .txLen
  | 12 => some .txPtr
  | 13 => some .rxLen
  | 14 => some .rxExpect
  | 15 => some .resultCount
  | 16 => some .irqEn
  | 17 => some .crcCfg
  | 18 => some .crcValue
  | _  => none

/-- `reg(off)`: the register at a byte offset, or none where the offset is odd or unmapped (20_memory.md R61, R63). -/
def regAt (off : Offset) : Option Reg :=
  if off.toNat % 2 = 1 then none
  else if off.toNat < 0x100 then namedReg (off.toNat / 2)
  else if h : 0x100 ≤ off.toNat ∧ off.toNat ≤ 0x10E then some (.txBuf ⟨(off.toNat - 0x100) / 2, by omega⟩)
  else if h : 0x200 ≤ off.toNat ∧ off.toNat ≤ 0x406 then some (.rxBuf ⟨(off.toNat - 0x200) / 2, by omega⟩)
  else if h : 0x500 ≤ off.toNat ∧ off.toNat ≤ 0x5F8 then some (.resultReg ⟨(off.toNat - 0x500) / 2, by omega⟩)
  else if h : 0x600 ≤ off.toNat ∧ off.toNat ≤ 0x6F8 then some (.resultCoil ⟨(off.toNat - 0x600) / 2, by omega⟩)
  else none

/-- The byte offset of a register (20_memory.md R61, the table). -/
def Reg.offset : Reg → Offset
  | .cmd          => 0x000#12
  | .status       => 0x002#12
  | .errCode      => 0x004#12
  | .exCode       => 0x006#12
  | .cmdErr       => 0x008#12
  | .slave        => 0x00A#12
  | .reqAddr      => 0x00C#12
  | .reqData      => 0x00E#12
  | .pendFunc     => 0x010#12
  | .pendAddr     => 0x012#12
  | .pendData     => 0x014#12
  | .txLen        => 0x016#12
  | .txPtr        => 0x018#12
  | .rxLen        => 0x01A#12
  | .rxExpect     => 0x01C#12
  | .resultCount  => 0x01E#12
  | .irqEn        => 0x020#12
  | .crcCfg       => 0x022#12
  | .crcValue     => 0x024#12
  | .txBuf i      => BitVec.ofNat 12 (0x100 + 2 * i.val)
  | .rxBuf i      => BitVec.ofNat 12 (0x200 + 2 * i.val)
  | .resultReg i  => BitVec.ofNat 12 (0x500 + 2 * i.val)
  | .resultCoil k => BitVec.ofNat 12 (0x600 + 2 * k.val)

/-- The host's right to a register (20_memory.md R61, the column "Access"; R64). -/
def Reg.access : Reg → Access
  | .cmd => .wo
  | .reqAddr | .reqData | .irqEn | .crcCfg => .rw
  | .status | .errCode | .exCode | .cmdErr | .slave | .pendFunc | .pendAddr | .pendData | .txLen | .txPtr | .rxLen
  | .rxExpect | .resultCount | .crcValue | .txBuf _ | .rxBuf _ | .resultReg _ | .resultCoil _ => .ro

/-- `value16`: the 16-bit value a host read of a register returns; a byte or a count stands zero-extended, reserved
bits read as 0 (20_memory.md R61, R67; log 8). CMD is write-only and has no value. -/
def Reg.value16 (b : Block) : Reg → Option Word
  | .cmd          => none
  | .status       => some b.status
  | .errCode      => some (b.txn.errCode.code.setWidth 16)
  | .exCode       => some (b.txn.exCode.setWidth 16)
  | .cmdErr       => some (b.cmdErr.code.setWidth 16)
  | .slave        => some (Config.slaveId.setWidth 16)
  | .reqAddr      => some b.reqAddr
  | .reqData      => some b.reqData
  | .pendFunc     => some (b.txn.pendFunc.setWidth 16)
  | .pendAddr     => some b.txn.pendAddr
  | .pendData     => some b.txn.pendData
  | .txLen        => some (b.txn.txLen.setWidth 16)
  | .txPtr        => some (b.txn.txPtr.setWidth 16)
  | .rxLen        => some (b.txn.rxLen.setWidth 16)
  | .rxExpect     => some (b.txn.rxExpect.setWidth 16)
  | .resultCount  => some b.txn.resultCount
  | .irqEn        => some (b.irqEn &&& 0x0001#16)
  | .crcCfg       => some (b.crcCfg &&& 0x0003#16)
  | .crcValue     => some b.crcValue
  | .txBuf i      => some (b.txn.txBuf[i].setWidth 16)
  | .rxBuf i      => some (b.txn.rxBuf[i].setWidth 16)
  | .resultReg i  => some b.txn.resultReg[i]
  | .resultCoil k => some b.txn.resultCoil[k]

/-- The register a host access reaches, or none where the offset or the width is not admitted (20_memory.md R62, R63,
R65). -/
def accessedReg (off : Offset) (width : AccessWidth) : Option Reg :=
  if width = .bits16 then regAt off else none

end Sys2Proof.Machine
end

