-- ==== Sys2Proof/Machine/Ops.lean ====
section
/-! DEFINITION. The operations the meanings share: what a host access answers, refusing a command, the entry into an
error and the return from it, access to the receive buffer, and taking the next event (00_scope.md R10; 10_state.md
R52; 20_memory.md R65; 60_exceptions.md R201, R217). -/

namespace Sys2Proof.Machine

/-- `raise BusError(off)`: the block is unchanged and the host receives an error response (20_memory.md R65; log 2). -/
def busError (off : Offset) (s : State) : Result :=
  .next { s with response := .busError off }

/-- `refuse CMD(code)`: `CMD_ERR <- code` and no other change of the block; the write itself is acknowledged
(60_exceptions.md R200, R201; log 4). -/
def refuseCommand (code : CmdErr) (s : State) : Result :=
  .next { s with cmdErr := code, response := .writeAck }

/-- The end of a command that was performed: `CMD_ERR <- 0x00` (10_state.md R28). -/
def performed (s : State) : Result :=
  .next { s with cmdErr := .ok, response := .writeAck }

/-- ClearTransaction: group T returns to its reset values and groups H, C and K stay (10_state.md R52). It is also the
return from DONE_OK and DONE_ERR (60_exceptions.md R223). -/
def clearTransaction (s : State) : State :=
  { s with txn := Transaction.reset }

/-- Error entry, `Fail(class, code)`, the block's one exception entry: the class and the code are recorded, `STATE`
becomes DONE_ERR, everything else of the transaction is kept for the host (60_exceptions.md R217). -/
def Transaction.fail (code : ErrCode) (t : Transaction) : Transaction :=
  { t with errClass := code.errClass, errCode := code, state := .doneErr }

/-- `RXBUF[i]`; every index the rules use is below 260. -/
def Transaction.rx (t : Transaction) (i : Nat) : Byte := t.rxBuf[i]?.getD 0x00#8

/-- The first `n` bytes received, `RXBUF[0..n-1]`. -/
def Transaction.rxPrefix (t : Transaction) (n : Nat) : List Byte := t.rxBuf.toList.take n

/-- The end of a link event or of RESET: nothing is returned to the agent that raised it. -/
def quiet (s : State) : Result := .next { s with response := .none }

/-- The end of a link event that ran on the transaction. -/
def commitTxn (s : State) : Except Fault Transaction → Result
  | .ok t => quiet { s with txn := t }
  | .error f => .fault f

/-- The next event, decoded, and the machine with that event taken from the pending ones (log 1). -/
def State.nextInstr (s : State) : Option (Instr × State) :=
  match s.inbox with
  | [] => none
  | e :: rest => some (decode e, { s with inbox := rest })

/-- The machine with one more event raised, behind the pending ones. -/
def State.post (e : Event) (s : State) : State := { s with inbox := s.inbox ++ [e] }

end Sys2Proof.Machine
end

