-- ==== Sys2Proof/Machine/Control.lean ====
section
/-! DEFINITION. The control family: CLEAR (43_control.md R190) and RESET (70_reset_and_hazards.md R230). -/

namespace Sys2Proof.Machine

/-- CLEAR: a finished transaction ends and the engine returns to IDLE; refused while a transaction is in flight
(43_control.md R190). -/
def execClear (imm : Byte) (s : State) : Result :=
  if imm ≠ 0x00#8 then refuseCommand .reservedImm s
  else if s.busy then refuseCommand .busy s
  else performed (clearTransaction s)

/-- RESET: every state element of the block takes its reset value, in any state (70_reset_and_hazards.md R230). Events
that are raised and not yet taken belong to the environment and stay (log 1). -/
def execReset (s : State) : Result := quiet { s with toBlock := Block.reset }

end Sys2Proof.Machine
end

