-- ==== Sys2Proof/Machine/Crc.lean ====
section
/-! DEFINITION. The CRC-16 functions and the family of the standalone generator: CRC_INIT and CRC_BYTE (42_crc.md). -/

namespace Sys2Proof.Machine

/-- One bit of the reflected update: shift right, with the polynomial `p` where the bit shifted out is 1 (42_crc.md
R173). -/
def stepR (p c : Word) : Word :=
  if c.getLsbD 0 then (c >>> 1) ^^^ p else c >>> 1

/-- One bit of the non-reflected update: shift left, with 0x1021 where the bit shifted out is 1 (42_crc.md R174). -/
def stepN (c : Word) : Word :=
  if c.getLsbD 15 then (c <<< 1) ^^^ 0x1021#16 else c <<< 1

/-- `UPDATE_R(c, d, p)` (42_crc.md R173). -/
def updateR (c : Word) (d : Byte) (p : Word) : Word :=
  Nat.iterate (stepR p) 8 (c ^^^ d.setWidth 16)

/-- `UPDATE_N(c, d)` (42_crc.md R174). -/
def updateN (c : Word) (d : Byte) : Word :=
  Nat.iterate stepN 8 (c ^^^ (d.setWidth 16 <<< 8))

/-- The framer CRC, `CRC16_MODBUS(bytes)`, a pure function of the bytes (42_crc.md R170, R171). -/
def crc16Modbus (bytes : List Byte) : Word :=
  bytes.foldl (fun c d => updateR c d 0xA001#16) 0xFFFF#16

/-- The preset that `CRC_CFG[1:0]` selects; all four values are legal (10_state.md R47). -/
def presetOf (crcCfg : Word) : Preset :=
  match crcCfg.getLsbD 1, crcCfg.getLsbD 0 with
  | false, false => .modbus
  | false, true  => .ibm3740
  | true,  false => .xmodem
  | true,  true  => .kermit

/-- The initial value of a preset (42_crc.md R172, R175). -/
def Preset.init : Preset → Word
  | .modbus  => 0xFFFF#16
  | .ibm3740 => 0xFFFF#16
  | .xmodem  => 0x0000#16
  | .kermit  => 0x0000#16

/-- The update of a preset by one byte (42_crc.md R172, R176). -/
def Preset.update : Preset → Word → Byte → Word
  | .modbus,  c, d => updateR c d 0xA001#16
  | .ibm3740, c, d => updateN c d
  | .xmodem,  c, d => updateN c d
  | .kermit,  c, d => updateR c d 0x8408#16

/-- The CRC of a byte sequence under a preset: CRC_INIT, then CRC_BYTE for each byte (42_crc.md R177). -/
def Preset.crc (p : Preset) (bytes : List Byte) : Word := bytes.foldl p.update p.init

/-- CRC_INIT: `CRC_VALUE` is loaded with the selected preset's initial value, in every `STATE` (42_crc.md R175). -/
def execCrcInit (imm : Byte) (s : State) : Result :=
  if imm ≠ 0x00#8 then refuseCommand .reservedImm s
  else performed { s with crcValue := (presetOf s.crcCfg).init }

/-- CRC_BYTE d: one byte is fed into the generator; never refused (42_crc.md R176). -/
def execCrcByte (d : Byte) (s : State) : Result :=
  performed { s with crcValue := (presetOf s.crcCfg).update s.crcValue d }

end Sys2Proof.Machine
end

