-- ==== Sys2Proof/Machine/Encoder.lean ====
section
/-! DEFINITION. The encoder family: ENC_RC, ENC_RHR, ENC_WSC and ENC_WSR over one procedure (40_encoder.md R110). -/

namespace Sys2Proof.Machine

/-- Bytes 0 to 5 of a request: slave address, function code, address and data field, each high byte first
(30_encoding.md R82, R83). -/
def requestPdu (op : Byte) (a field : Word) : List Byte :=
  [Config.slaveId, op, hiByte a, loByte a, hiByte field, loByte field]

/-- The request frame `ADU_REQ`: the six bytes and their CRC, low byte first (30_encoding.md R82, R90). -/
def requestFrame (op : Byte) (a field : Word) : Vector Byte 8 :=
  let c := crc16Modbus (requestPdu op a field)
  #v[Config.slaveId, op, hiByte a, loByte a, hiByte field, loByte field, loByte c, hiByte c]

/-- Group T once a request is built: everything cleared, then the frame, the latches and `STATE` TX (40_encoder.md
R110, from ClearTransaction on). -/
def startedTxn (op : Byte) (a field : Word) : Transaction :=
  { Transaction.reset with
    txBuf := requestFrame op a field, txLen := 8#4, txPtr := 0#4
    pendFunc := op, pendAddr := a, pendData := field, state := .tx }

/-- `ENCODE(op, imm)`: the checks in their order, the first that fails giving the refusal code, then the request
(40_encoder.md R110; 60_exceptions.md R207). -/
def encodeRequest (op imm : Byte) (s : State) : Result :=
  if imm ≠ 0x00#8 then refuseCommand .reservedImm s
  else if s.busy then refuseCommand .busy s
  else match operandError op s.reqData with
    | some code => refuseCommand code s
    | none => performed { clearTransaction s with txn := startedTxn op s.reqAddr (dataField op s.reqData) }

/-- ENC_RC (40_encoder.md R112). -/
def execEncRc (imm : Byte) (s : State) : Result := encodeRequest fcReadCoils imm s

/-- ENC_RHR (40_encoder.md R111). -/
def execEncRhr (imm : Byte) (s : State) : Result := encodeRequest fcReadRegs imm s

/-- ENC_WSC (40_encoder.md R114). -/
def execEncWsc (imm : Byte) (s : State) : Result := encodeRequest fcWriteCoil imm s

/-- ENC_WSR (40_encoder.md R113). -/
def execEncWsr (imm : Byte) (s : State) : Result := encodeRequest fcWriteReg imm s

end Sys2Proof.Machine
end

