-- ==== Sys2Proof/Machine/HostPort.lean ====
section
/-! DEFINITION. The host family: MemRead and MemWrite (20_memory.md R62 to R69), and the dispatch of a command word
(30_encoding.md R81). -/

namespace Sys2Proof.Machine

/-- MemRead: a readable register's value, else BusError; never a change of the block (20_memory.md R65, R66, R67). -/
def execMemRead (off : Offset) (width : AccessWidth) (s : State) : Result :=
  match (accessedReg off width).bind (Reg.value16 s.toBlock) with
  | some v => .next { s with response := .readData v }
  | none => busError off s

/-- `Command(v)`: the command a word written to CMD encodes is performed or refused; an undefined opcode is refused
UNDEFINED_OP (30_encoding.md R81, R91; 60_exceptions.md R202). -/
def command (v : Word) (s : State) : Result :=
  if commandOp v = 0x01#8 then execEncRc (commandImm v) s
  else if commandOp v = 0x03#8 then execEncRhr (commandImm v) s
  else if commandOp v = 0x05#8 then execEncWsc (commandImm v) s
  else if commandOp v = 0x06#8 then execEncWsr (commandImm v) s
  else if commandOp v = 0x10#8 then execClear (commandImm v) s
  else if commandOp v = 0x20#8 then execCrcInit (commandImm v) s
  else if commandOp v = 0x21#8 then execCrcByte (commandImm v) s
  else refuseCommand .undefinedOp s

/-- `WriteRW(off, v)`: an RW register takes the value, reserved bits ignored, and nothing else changes (20_memory.md
R69). -/
def writeRw (r : Reg) (v : Word) (b : Block) : Block :=
  match r with
  | .reqAddr => { b with reqAddr := v }
  | .reqData => { b with reqData := v }
  | .irqEn   => { b with irqEn := v &&& 0x0001#16 }
  | .crcCfg  => { b with crcCfg := v &&& 0x0003#16 }
  | .cmd | .status | .errCode | .exCode | .cmdErr | .slave | .pendFunc | .pendAddr | .pendData | .txLen | .txPtr
  | .rxLen | .rxExpect | .resultCount | .crcValue | .txBuf _ | .rxBuf _ | .resultReg _ | .resultCoil _ => b

/-- A write that reaches the register `r`: a command at CMD, the register's new value at an RW register, BusError at an
RO register (20_memory.md R64, R68). -/
def writeReg (r : Reg) (off : Offset) (v : Word) (s : State) : Result :=
  match r.access with
  | .wo => command v s
  | .rw => .next { s with toBlock := writeRw r v s.toBlock, response := .writeAck }
  | .ro => busError off s

/-- MemWrite (20_memory.md R65, R68). -/
def execMemWrite (off : Offset) (width : AccessWidth) (v : Word) (s : State) : Result :=
  match accessedReg off width with
  | some r => writeReg r off v s
  | none => busError off s

end Sys2Proof.Machine
end

