-- ==== Sys2Proof/Machine/Decoder.lean ====
section
/-! DEFINITION. Framing and decoding a response (41_decoder.md sections 2 and 3). Each function works on group T; a fault
names a case no run reaches (log 5). -/

namespace Sys2Proof.Machine

/-- An accepted byte is stored at `RX_LEN` (41_decoder.md R132). -/
def Transaction.storeByte (d : Byte) (t : Transaction) : Transaction :=
  { t with rxBuf := t.rxBuf.setIfInBounds t.rxLen.toNat d, rxLen := t.rxLen + 1#9 }

/-- CheckFunction, at the second accepted byte (41_decoder.md R133). -/
def checkFunction (t : Transaction) : Transaction :=
  if t.rx 1 = exceptionCode t.pendFunc then { t with rxExpect := 5#9 }
  else if t.rx 1 = t.pendFunc ∧ (t.pendFunc = fcWriteCoil ∨ t.pendFunc = fcWriteReg) then { t with rxExpect := 8#9 }
  else if t.rx 1 = t.pendFunc then t
  else t.fail .badFunction

/-- The byte-count length, at the third accepted byte where the length is not yet known (41_decoder.md R132, R134). -/
def countLength (t : Transaction) : Transaction :=
  if t.rxLen = 3#9 ∧ t.rxExpect = 0#9 then { t with rxExpect := 5#9 + (t.rx 2).setWidth 9 } else t

/-- DEC_EXC: a device exception response; its third byte is recorded whatever its value (41_decoder.md R137). -/
def decExc (t : Transaction) : Transaction :=
  { t with exCode := t.rx 2 }.fail .deviceException

/-- A successful end: the results appear and `STATE` becomes DONE_OK in one step (20_memory.md R72). -/
def Transaction.succeed (count : Word) (regs coils : Vector Word 125) (t : Transaction) : Transaction :=
  { t with resultCount := count, resultReg := regs, resultCoil := coils, state := .doneOk }

/-- The result registers of a response of `n` registers: entry `i` is bytes 3 + 2i and 4 + 2i, high byte first
(41_decoder.md R138). -/
def responseRegs (t : Transaction) (n : Nat) : Vector Word 125 :=
  Vector.ofFn fun i =>
    if i.val < n then joinBytes (t.rx (3 + 2 * i.val)) (t.rx (4 + 2 * i.val)) else t.resultReg[i]

/-- Coil `i` of a read-coils response: bit `i % 8` of byte 3 + i / 8 (41_decoder.md R139; 30_encoding.md R87). -/
def responseCoil (t : Transaction) (i : Nat) : Bool := (t.rx (3 + i / 8)).getLsbD (i % 8)

/-- The result coils of a response of `n` coils, sixteen to a word; bits for coils from `n` on are not written, so the
padding bits are ignored (41_decoder.md R139). -/
def responseCoils (t : Transaction) (n : Nat) : Vector Word 125 :=
  Vector.ofFn fun k => BitVec.ofFnLE fun j =>
    if 16 * k.val + j.val < n then responseCoil t (16 * k.val + j.val) else t.resultCoil[k].getLsbD j.val

/-- DEC_RHR: a read-holding-registers response (41_decoder.md R138). -/
def decRhr (t : Transaction) : Except Fault Transaction :=
  if (t.rx 2).toNat ≠ 2 * t.pendData.toNat then .ok (t.fail .byteCountMismatch)
  else if t.pendData.toNat ≤ Config.maxRhrCount then
    .ok (t.succeed t.pendData (responseRegs t t.pendData.toNat) t.resultCoil)
  else .error .resultOutOfRange

/-- DEC_RC: a read-coils response (41_decoder.md R139). -/
def decRc (t : Transaction) : Except Fault Transaction :=
  if (t.rx 2).toNat ≠ (t.pendData.toNat + 7) / 8 then .ok (t.fail .byteCountMismatch)
  else if t.pendData.toNat ≤ Config.maxRcCount then
    .ok (t.succeed t.pendData t.resultReg (responseCoils t t.pendData.toNat))
  else .error .resultOutOfRange

/-- Bytes 2 to 5 of the response are those of the request (41_decoder.md R140). -/
def echoMatches (t : Transaction) : Bool :=
  t.rx 2 == t.txBuf[2] && t.rx 3 == t.txBuf[3] && t.rx 4 == t.txBuf[4] && t.rx 5 == t.txBuf[5]

/-- DEC_WSR: a write-single-register response (41_decoder.md R140). -/
def decWsr (t : Transaction) : Transaction :=
  if echoMatches t then t.succeed 0#16 t.resultReg t.resultCoil else t.fail .echoMismatch

/-- DEC_WSC: a write-single-coil response; its procedure is that of DEC_WSR (41_decoder.md R141). -/
def decWsc (t : Transaction) : Transaction :=
  if echoMatches t then t.succeed 0#16 t.resultReg t.resultCoil else t.fail .echoMismatch

/-- The CRC trailer of a frame of `n` bytes as received: its last byte above the one before (41_decoder.md R136). -/
def receivedCrc (t : Transaction) (n : Nat) : Word := joinBytes (t.rx (n - 1)) (t.rx (n - 2))

/-- Complete: the checks of a complete frame, in their order (41_decoder.md R136; 60_exceptions.md R218). -/
def complete (t : Transaction) : Except Fault Transaction :=
  if t.rxLen.toNat < 5 then .error .frameTooShort
  else if crc16Modbus (t.rxPrefix (t.rxLen.toNat - 2)) ≠ receivedCrc t t.rxLen.toNat then .ok (t.fail .crcMismatch)
  else if t.rx 0 ≠ Config.slaveId then .ok (t.fail .slaveMismatch)
  else if t.rx 1 = exceptionCode t.pendFunc then .ok (decExc t)
  else if t.pendFunc = fcReadRegs then decRhr t
  else if t.pendFunc = fcReadCoils then decRc t
  else if t.pendFunc = fcWriteReg then .ok (decWsr t)
  else if t.pendFunc = fcWriteCoil then .ok (decWsc t)
  else .error .noPendingFunction

/-- The length checks of a stored byte, before the frame can be complete: CheckFunction at the second byte, the byte
count at the third (41_decoder.md R132). -/
def frameByte (t : Transaction) : Transaction :=
  if t.rxLen = 2#9 then checkFunction t else countLength t

/-- Once the length checks ran: the byte has failed the transaction, or the frame is complete and is decoded in the same
step, or more bytes are awaited (41_decoder.md R132, R135). -/
def finishByte (t : Transaction) : Except Fault Transaction :=
  if t.state = .doneErr then .ok t
  else if t.rxExpect ≠ 0#9 ∧ t.rxLen = t.rxExpect then complete t
  else .ok t

/-- An accepted response byte: it is stored, the length is checked, and a complete frame is decoded (41_decoder.md
R132). -/
def acceptByte (d : Byte) (t : Transaction) : Except Fault Transaction :=
  if t.rxLen.toNat < Config.rxBufBytes then finishByte (frameByte (t.storeByte d))
  else .error .rxBufferFull

end Sys2Proof.Machine
end

