-- ==== Sys2Proof/Machine/Link.lean ====
section
/-! DEFINITION. The link family: TX_TAKE, RX_BYTE and RX_TIMEOUT (41_decoder.md sections 1 and 4). -/

namespace Sys2Proof.Machine

/-- The next request byte is taken: `TX_PTR` advances, and `STATE` becomes AWAIT once it reaches `TX_LEN`
(41_decoder.md R131). -/
def Transaction.takeByte (t : Transaction) : Transaction :=
  { t with txPtr := t.txPtr + 1#4, state := if t.txPtr + 1#4 = t.txLen then .await else t.state }

/-- TX_TAKE: enabled only in TX; the link gets `TXBUF[TX_PTR]` (41_decoder.md R131; 00_scope.md R12 (d); log 3). -/
def execTxTake (s : State) : Result :=
  if s.txn.state = .tx then
    if h : s.txn.txPtr.toNat < 8 then
      .next { s with txn := s.txn.takeByte, response := .txByte s.txn.txBuf[s.txn.txPtr.toNat] }
    else .fault .txIndexOutOfRange
  else .refused .notEnabled

/-- RX_BYTE d: in AWAIT the byte is accepted, elsewhere it is discarded and `DISCARD` is set (41_decoder.md R132). -/
def execRxByte (d : Byte) (s : State) : Result :=
  if s.txn.state = .await then commitTxn s (acceptByte d s.txn)
  else quiet { s with txn := { s.txn with discard := true } }

/-- The timeout error: with no response byte accepted NO_RESPONSE, else TRUNCATED (41_decoder.md R142). -/
def timeoutCode (t : Transaction) : ErrCode :=
  if t.rxLen = 0#9 then .timeoutNoResponse else .timeoutTruncated

/-- RX_TIMEOUT: a transaction in flight fails; elsewhere there is no effect (41_decoder.md R142). -/
def execRxTimeout (s : State) : Result :=
  if s.busy then quiet { s with txn := s.txn.fail (timeoutCode s.txn) } else quiet s

end Sys2Proof.Machine
end

