-- ==== Sys2Proof/Machine/Dispatch.lean ====
section
/-! DEFINITION. exec: one arm per instruction, each a direct call of its meaning. -/

namespace Sys2Proof.Machine

def exec (i : Instr) (s : State) : Host.Outcome State Fault Refusal :=
  match i with
  -- the encoder family
  | .encRc imm => Sys2Proof.Machine.execEncRc imm s
  | .encRhr imm => Sys2Proof.Machine.execEncRhr imm s
  | .encWsc imm => Sys2Proof.Machine.execEncWsc imm s
  | .encWsr imm => Sys2Proof.Machine.execEncWsr imm s
  -- control
  | .clear imm => Sys2Proof.Machine.execClear imm s
  -- the CRC generator
  | .crcInit imm => Sys2Proof.Machine.execCrcInit imm s
  | .crcByte d => Sys2Proof.Machine.execCrcByte d s
  -- the link
  | .txTake => Sys2Proof.Machine.execTxTake s
  | .rxByte d => Sys2Proof.Machine.execRxByte d s
  | .rxTimeout => Sys2Proof.Machine.execRxTimeout s
  -- the platform
  | .reset => Sys2Proof.Machine.execReset s
  -- host accesses
  | .memRead off width => Sys2Proof.Machine.execMemRead off width s
  | .memWrite off width v => Sys2Proof.Machine.execMemWrite off width v s

end Sys2Proof.Machine
end

