-- ==== Sys2Proof/Machine/Step.lean ====
section
/-! DEFINITION. One step: the oldest pending event is taken and runs, atomically (00_scope.md R11; log 1). -/

namespace Sys2Proof.Machine

/-- One step. With no event pending there is none: the block has no step of its own (00_scope.md R11). -/
def step (s : State) : Host.Outcome State Fault Refusal :=
  match s.nextInstr with
  | some (i, s') => exec i s'
  | none => .refused .noEvent

/-- The machine with the host write of a command word raised in front of every pending event, so that the next step
runs it (30_encoding.md R80; log 12). -/
def State.withFetchWord (s : State) (_nbits w : Nat) : State :=
  { s with inbox := .hostWrite 0x000#12 .bits16 (BitVec.ofNat 16 w) :: s.inbox }

end Sys2Proof.Machine
end

