-- ==== Sys2Proof/Machine/Environment.lean ====
section
/-! DEFINITION. Runs in an environment, and the duties of the link that 70_reset_and_hazards.md R242 states as
assumptions of the environment (log 11). No meaning reads them: a statement that needs a duty names it. -/

namespace Sys2Proof.Machine

/-! Runs. The environment raises one event after the other (00_scope.md R11; 20_memory.md R73). -/

/-- The machine with the event `e` raised in front of every pending one, so that the next step takes it. -/
def State.raise (e : Event) (s : State) : State := { s with inbox := e :: s.inbox }

/-- The environment attempts the event `e`: the step's next state, or the same state where the event has no step
(00_scope.md R12 (d)). -/
def attempt (e : Event) (s : State) : State :=
  match step (s.raise e) with
  | .next t => t
  | .fault _ => s
  | .refused _ => s

/-- The state after the first `n` events of the run in which the environment attempts `ev 0`, `ev 1`, and so on. -/
def runFrom (s : State) (ev : Nat → Event) : Nat → State
  | 0 => s
  | n + 1 => attempt (ev n) (runFrom s ev n)

/-! The two byte streams of the link (20_memory.md R60 (b)). -/

/-- The request byte an answer carries, if it carries one (41_decoder.md R131). -/
def Response.requestByte : Response → List Byte
  | .txByte d => [d]
  | .none | .readData _ | .writeAck | .busError _ => []

/-- The request byte that the event `e` hands to the link, if it hands one: the one its step answers with. -/
def handedOver (e : Event) (s : State) : List Byte :=
  match step (s.raise e) with
  | .next t => t.response.requestByte
  | .fault _ => []
  | .refused _ => []

/-- The request bytes the link took in the first `n` events, in the order taken. -/
def takenBytes (s : State) (ev : Nat → Event) : Nat → List Byte
  | 0 => []
  | n + 1 => takenBytes s ev n ++ handedOver (ev n) (runFrom s ev n)

/-- The response byte an event delivers (41_decoder.md R132). -/
def deliveredByte : Event → List Byte
  | .rxByte d => [d]
  | .txTake | .rxTimeout | .reset | .hostRead _ _ | .hostWrite _ _ _ => []

/-- The response bytes the link delivered in the first `n` events, in the order delivered. -/
def deliveredBytes (ev : Nat → Event) : Nat → List Byte
  | 0 => []
  | n + 1 => deliveredBytes ev n ++ deliveredByte (ev n)

/-! The duties (70_reset_and_hazards.md R242). -/

/-- Duty (a), first half: the link takes a request byte only when one is offered, that is in TX. -/
def TakesWhatIsOffered (s : State) (ev : Nat → Event) : Prop :=
  ∀ n, ev n = .txTake → (runFrom s ev n).txn.state = .tx

/-- Duty (a), second half: the link sends the bytes it took in the order taken. `sent n` is what it has put on the line
after `n` events: never more than it took, and in the end all of it. -/
def SendsInOrder (s : State) (ev : Nat → Event) (sent : Nat → List Byte) : Prop :=
  (∀ n, sent n <+: takenBytes s ev n) ∧ ∀ n, ∃ m, takenBytes s ev n <+: sent m

/-- Duty (b): the link delivers response bytes in the order they arrive on the line, without loss or duplication.
`arrived n` is what has come in from the line by the end of the first `n` events; a byte lost or altered on the line is
simply another sequence. -/
def DeliversInOrder (ev : Nat → Event) (arrived : Nat → List Byte) : Prop :=
  (∀ n, deliveredBytes ev n <+: arrived n) ∧ ∀ n, ∃ m, arrived n <+: deliveredBytes ev m

/-- Event `n` is one by which the link ends a transaction: RX_TIMEOUT, or the response byte after which the block awaits
no more (the one that completes the frame, or fails it at its second byte). -/
def LinkEnds (s : State) (ev : Nat → Event) (n : Nat) : Prop :=
  ev n = .rxTimeout ∨
  ∃ d, ev n = .rxByte d ∧ (runFrom s ev n).txn.state = .await ∧ (runFrom s ev (n + 1)).txn.state ≠ .await

/-- Duty (c): for every transaction the link eventually completes a frame or raises RX_TIMEOUT. A RESET abandons the
transaction, and the link then owes it nothing (R230). -/
def EndsEveryTransaction (s : State) (ev : Nat → Event) : Prop :=
  ∀ n, (runFrom s ev n).busy = true → ∃ m, n ≤ m ∧ (LinkEnds s ev m ∨ ev m = .reset)

/-- The link does all of R242 in the run from `s`. -/
structure LinkDuties (s : State) (ev : Nat → Event) (sent arrived : Nat → List Byte) : Prop where
  takesOffered : TakesWhatIsOffered s ev
  sendsInOrder : SendsInOrder s ev sent
  deliversInOrder : DeliversInOrder ev arrived
  endsEvery : EndsEveryTransaction s ev

end Sys2Proof.Machine
end

