-- ==== Sys2Proof/Machine/Frames.lean ====
section
/-! DEFINITION. The response frames a slave sends (30_encoding.md R85 to R88, R90) and the pseudo-instructions of host
and link programs (R94, R95). They are the environment's side: no meaning uses them, statements do. -/

namespace Sys2Proof.Machine

/-- A frame's bytes with their CRC trailer, low byte first (30_encoding.md R90). -/
def withTrailer (bytes : List Byte) : List Byte :=
  let c := crc16Modbus bytes
  bytes ++ [loByte c, hiByte c]

/-- `ADU_EXC`: a device exception response (30_encoding.md R85). -/
def aduExc (fc code : Byte) : List Byte := withTrailer [Config.slaveId, exceptionCode fc, code]

/-- `ADU_RSP03`: a read-holding-registers response with the values, high byte first (30_encoding.md R86). -/
def aduRsp03 (values : List Word) : List Byte :=
  withTrailer ([Config.slaveId, fcReadRegs, BitVec.ofNat 8 (2 * values.length)]
    ++ values.flatMap fun v => [hiByte v, loByte v])

/-- `ADU_RSP01`: a read-coils response with the packed data bytes (30_encoding.md R87). -/
def aduRsp01 (data : List Byte) : List Byte :=
  withTrailer ([Config.slaveId, fcReadCoils, BitVec.ofNat 8 data.length] ++ data)

/-- `ADU_RSP06` and `ADU_RSP05`: the echo of the request (30_encoding.md R88). -/
def aduEcho (fc : Byte) (a field : Word) : List Byte := (requestFrame fc a field).toList

/-! Pseudo-instructions (30_encoding.md R95). `waitdone` is a host loop without a bound and has no expansion. -/

/-- `wr REG, v` (30_encoding.md R94). -/
def wr (r : Reg) (v : Word) : Event := .hostWrite r.offset .bits16 v

/-- `rd REG` (30_encoding.md R94). -/
def rd (r : Reg) : Event := .hostRead r.offset .bits16

/-- `readregs a, n`. -/
def readregs (a n : Word) : List Event := [wr .reqAddr a, wr .reqData n, encode (.encRhr 0x00#8)]

/-- `readcoils a, n`. -/
def readcoils (a n : Word) : List Event := [wr .reqAddr a, wr .reqData n, encode (.encRc 0x00#8)]

/-- `writereg a, v`. -/
def writereg (a v : Word) : List Event := [wr .reqAddr a, wr .reqData v, encode (.encWsr 0x00#8)]

/-- `writecoil a, b`. -/
def writecoil (a b : Word) : List Event := [wr .reqAddr a, wr .reqData b, encode (.encWsc 0x00#8)]

/-- `sendall`: TX_TAKE eight times. -/
def sendall : List Event := List.replicate 8 .txTake

/-- `crc b1, ..., bk`: CRC_INIT, then CRC_BYTE for each byte. -/
def crcBytes (bytes : List Byte) : List Event := encode (.crcInit 0x00#8) :: bytes.map fun d => encode (.crcByte d)

/-- `rx b0, b1, ...`: RX_BYTE for each byte, in order (30_encoding.md R94). -/
def rxBytes (bytes : List Byte) : List Event := bytes.map .rxByte

end Sys2Proof.Machine
end

