-- ==== Sys2Proof/Safety.lean ====
section
/-! DEFINITION. The terms claims about the machine use: the invariant of the block, the reachable states, which
instructions are commands, and runs of link events. -/

namespace Sys2Proof.Machine

/-- The request fields an accepted encode command can leave (30_encoding.md R84; 10_state.md R34, R36). -/
def RequestLegal (op : Byte) (field : Word) : Prop :=
  (op = fcReadRegs ∧ 1 ≤ field.toNat ∧ field.toNat ≤ Config.maxRhrCount) ∨
  (op = fcReadCoils ∧ 1 ≤ field.toNat ∧ field.toNat ≤ Config.maxRcCount) ∨
  op = fcWriteReg ∨
  (op = fcWriteCoil ∧ (field = 0x0000#16 ∨ field = 0xFF00#16))

/-- The length a response must have, as far as its first bytes tell; 0 while unknown (30_encoding.md R89). -/
def expectedLength (t : Transaction) : Nat :=
  if t.rxLen.toNat < 2 then 0
  else if t.rx 1 = exceptionCode t.pendFunc then 5
  else if t.pendFunc = fcWriteCoil ∨ t.pendFunc = fcWriteReg then 8
  else if t.rxLen.toNat < 3 then 0
  else 5 + (t.rx 2).toNat

/-- The invariant of group T: rule R49 of 10_state.md and what makes it inductive. -/
structure Transaction.Inv (t : Transaction) : Prop where
  /-- Each error code is recorded with its class (60_exceptions.md R208). -/
  errClassOfCode : t.errClass = t.errCode.errClass
  /-- An error is recorded exactly in DONE_ERR (10_state.md R25). -/
  errOnlyDoneErr : t.errCode = .none ↔ t.state ≠ .doneErr
  /-- `EXCODE` is zero but for a device exception (10_state.md R26). -/
  exCodeOnlyException : t.exCode ≠ 0#8 → t.errCode = .deviceException
  /-- In IDLE group T is cleared but for `DISCARD` (10_state.md R27, R52). -/
  idleCleared : t.state = .idle → t = { Transaction.reset with discard := t.discard }
  /-- Outside IDLE the frame in `TXBUF` is the pending request's (40_encoder.md R115). -/
  requestBuilt : t.state ≠ .idle →
    RequestLegal t.pendFunc t.pendData ∧ t.txLen = 8#4 ∧ t.txBuf = requestFrame t.pendFunc t.pendAddr t.pendData
  /-- `TX_PTR` stops at 8 (10_state.md R22, R39). -/
  takenBound : t.txPtr.toNat ≤ 8
  /-- In TX a byte is offered and no response byte was accepted (10_state.md R49 (f)). -/
  offering : t.state = .tx → t.txPtr.toNat < 8 ∧ t.rxLen = 0#9 ∧ t.rxExpect = 0#9
  /-- In AWAIT and DONE_OK the whole request was taken (10_state.md R49 (g)). -/
  allTaken : t.state = .await ∨ t.state = .doneOk → t.txPtr = 8#4
  /-- The bounds of the response length (10_state.md R49 (h); 41_decoder.md R143). -/
  lengthBound : (t.rxExpect = 0#9 ∧ t.rxLen.toNat ≤ 2) ∨
    (5 ≤ t.rxExpect.toNat ∧ t.rxLen.toNat ≤ t.rxExpect.toNat ∧ t.rxExpect.toNat ≤ 260)
  /-- In AWAIT the frame is not complete (41_decoder.md R135). -/
  incomplete : t.state = .await → t.rxExpect ≠ 0#9 → t.rxLen.toNat < t.rxExpect.toNat
  /-- In AWAIT `RX_EXPECT` is the length the first bytes tell (30_encoding.md R89). -/
  lengthKnown : t.state = .await → t.rxExpect.toNat = expectedLength t
  /-- In AWAIT the function byte received is the request's or its exception form (41_decoder.md R133). -/
  functionSeen : t.state = .await → 2 ≤ t.rxLen.toNat → t.rx 1 = t.pendFunc ∨ t.rx 1 = exceptionCode t.pendFunc
  /-- `RXBUF[i]` is zero from `RX_LEN` on (10_state.md R40). -/
  rxUnused : ∀ i, t.rxLen.toNat ≤ i → t.rx i = 0x00#8
  /-- Outside DONE_OK there is no result (20_memory.md R72; 60_exceptions.md R217). -/
  noPartialResult : t.state ≠ .doneOk →
    t.resultCount = 0#16 ∧ t.resultReg = Vector.replicate 125 0x0000#16 ∧ t.resultCoil = Vector.replicate 125 0x0000#16
  /-- In DONE_OK the count is the quantity of a read and 0 after a write (10_state.md R43). -/
  resultCounted : t.state = .doneOk → t.resultCount = if t.pendFunc = fcReadRegs ∨ t.pendFunc = fcReadCoils then t.pendData else 0#16
  /-- In DONE_OK the result registers are the response's values, zero beyond the quantity (10_state.md R44). -/
  resultRegs : t.state = .doneOk → ∀ i : Fin 125, t.resultReg[i] =
    if t.pendFunc = fcReadRegs ∧ i.val < t.pendData.toNat then joinBytes (t.rx (3 + 2 * i.val)) (t.rx (4 + 2 * i.val)) else 0#16
  /-- In DONE_OK the result coils are the response's coils, zero beyond the quantity (10_state.md R45). -/
  resultCoils : t.state = .doneOk → ∀ (k : Fin 125) (j : Fin 16), t.resultCoil[k].getLsbD j.val =
    (decide (t.pendFunc = fcReadCoils ∧ 16 * k.val + j.val < t.pendData.toNat) && responseCoil t (16 * k.val + j.val))

/-- The invariant of the block: that of group T, and the reserved bits of `IRQ_EN` and `CRC_CFG` are zero (10_state.md
R46, R47). -/
structure Block.Inv (b : Block) : Prop where
  txn : b.txn.Inv
  irqEnReserved : b.irqEn &&& 0xFFFE#16 = 0#16
  crcCfgReserved : b.crcCfg &&& 0xFFFC#16 = 0#16

/-- Rule R49 of 10_state.md, clause by clause, on the codes of the fields. -/
structure Block.Rule49 (b : Block) : Prop where
  a : b.txn.state.code.toNat ≤ 4
  b1 : b.txn.errClass.code ≠ 0#2 ↔ b.txn.errCode.code ≠ 0#8
  b2 : b.txn.errCode.code ≠ 0#8 ↔ b.txn.state = .doneErr
  c : b.txn.exCode ≠ 0#8 → b.txn.errCode.code = 0x13#8
  d : b.txn.state = .idle → b.txn.pendFunc = 0#8 ∧ b.txn.txLen = 0#4 ∧ b.txn.rxLen = 0#9
  e : b.txn.state = .tx ∨ b.txn.state = .await ∨ b.txn.state = .doneOk ∨ b.txn.state = .doneErr →
    (b.txn.pendFunc = 0x01#8 ∨ b.txn.pendFunc = 0x03#8 ∨ b.txn.pendFunc = 0x05#8 ∨ b.txn.pendFunc = 0x06#8) ∧ b.txn.txLen = 8#4
  f : b.txn.state = .tx → b.txn.rxLen = 0#9
  g : b.txn.state = .await → b.txn.txPtr = 8#4
  h : b.txn.rxExpect = 0#9 ∨ (b.txn.rxLen.toNat ≤ b.txn.rxExpect.toNat ∧ b.txn.rxExpect.toNat ≤ 260)
  i : b.txn.resultCount ≠ 0#16 → b.txn.state = .doneOk

/-- The states of runs from reset, in which the environment raises any event at any time (20_memory.md R73). -/
inductive Reachable : State → Prop where
  | reset : Reachable State.reset
  | post {s : State} (e : Event) : Reachable s → Reachable (s.post e)
  | step {s t : State} : Reachable s → step s = .next t → Reachable t

end Sys2Proof.Machine

namespace Sys2Proof
open Machine

/-- The command an instruction performs, if it is one: itself, or for a 16-bit write to CMD the command its word
encodes (30_encoding.md R80, R81). An undefined command word performs none. -/
def Instr.command? : Instr → Option Instr
  | .encRc imm => some (.encRc imm)
  | .encRhr imm => some (.encRhr imm)
  | .encWsc imm => some (.encWsc imm)
  | .encWsr imm => some (.encWsr imm)
  | .clear imm => some (.clear imm)
  | .crcInit imm => some (.crcInit imm)
  | .crcByte d => some (.crcByte d)
  | .memWrite off width v =>
      if off = 0x000#12 ∧ width = .bits16 then
        match decodeCommand v with
        | .ok i => some i
        | .error _ => none
      else none
  | .txTake | .rxByte _ | .rxTimeout | .reset | .memRead _ _ => none

/-- The instruction is a write to CMD: a command, defined or not (30_encoding.md R80). -/
def Instr.writesCmd : Instr → Bool
  | .encRc _ | .encRhr _ | .encWsc _ | .encWsr _ | .clear _ | .crcInit _ | .crcByte _ => true
  | .memWrite off width _ => off == 0x000#12 && width == .bits16
  | .txTake | .rxByte _ | .rxTimeout | .reset | .memRead _ _ => false

/-- The function code of an encode command (30_encoding.md R81). -/
def Instr.encodeOp : Instr → Option Byte
  | .encRc _ => some fcReadCoils
  | .encRhr _ => some fcReadRegs
  | .encWsc _ => some fcWriteCoil
  | .encWsr _ => some fcWriteReg
  | .clear _ | .crcInit _ | .crcByte _ | .txTake | .rxByte _ | .rxTimeout | .reset | .memRead _ _ | .memWrite _ _ _ => none

end Sys2Proof

namespace Sys2Proof.Machine

/-- Instructions run one after the other, stopping at the first that gives no next state. -/
def execAll : List Instr → State → Result
  | [], s => .next s
  | i :: is, s =>
    match exec i s with
    | .next t => execAll is t
    | .fault f => .fault f
    | .refused r => .refused r

/-- The link delivers the bytes of a response, in order (41_decoder.md R132). -/
def receive (bytes : List Byte) (s : State) : Result := execAll (bytes.map .rxByte) s

/-- The frame a response is once the byte `d` is accepted: the bytes accepted before, then `d` (41_decoder.md R132). -/
def Transaction.frameWith (t : Transaction) (d : Byte) : List Byte := t.rxPrefix t.rxLen.toNat ++ [d]

/-- The byte `d` completes the response, in a state the invariant holds of: `f` is the complete frame (41_decoder.md
R135). -/
structure Completing (s : State) (d : Byte) (f : List Byte) : Prop where
  inv : s.toBlock.Inv
  state : s.txn.state = .await
  known : s.txn.rxExpect ≠ 0#9
  last : s.txn.rxLen.toNat + 1 = s.txn.rxExpect.toNat
  frame : f = s.txn.frameWith d

/-- Byte `i` of a frame; every index the statements use is below its length. -/
def byteOf (f : List Byte) (i : Nat) : Byte := f.getD i 0x00#8

/-- The last two bytes of a frame, read low byte first, are the CRC of the bytes before them (60_exceptions.md R212;
30_encoding.md R90). -/
def TrailerOk (f : List Byte) : Prop :=
  crc16Modbus (f.take (f.length - 2)) = joinBytes (byteOf f (f.length - 1)) (byteOf f (f.length - 2))

/-- The block of `s` ended its transaction with an error: what the error rules record, everything the transaction holds
for the host kept, but for the completed frame `f` in the receive buffer (60_exceptions.md R217). -/
def EndsInError (s : State) (f : List Byte) (cls code exCode : Nat) (t : State) : Prop :=
  t.txn.state = .doneErr ∧ t.txn.errClass.code.toNat = cls ∧ t.txn.errCode.code.toNat = code ∧
  t.txn.exCode.toNat = exCode ∧ t.txn.rxLen.toNat = f.length ∧ (∀ i, i < f.length → t.txn.rx i = byteOf f i) ∧
  t.txn.resultCount = 0#16 ∧ (∀ i : Fin 125, t.txn.resultReg[i] = 0#16) ∧ (∀ k : Fin 125, t.txn.resultCoil[k] = 0#16) ∧
  t.txn.pendFunc = s.txn.pendFunc ∧ t.txn.pendAddr = s.txn.pendAddr ∧ t.txn.pendData = s.txn.pendData ∧
  t.txn.txBuf = s.txn.txBuf ∧ t.txn.txLen = s.txn.txLen ∧ t.txn.txPtr = s.txn.txPtr ∧ t.txn.rxExpect = s.txn.rxExpect ∧
  t.txn.discard = s.txn.discard ∧
  t.toBlock = { s.toBlock with txn := t.txn }

/-- The block of `s` ended its transaction with success and the frame `f`: no error, the request kept, nothing outside
group T changed (41_decoder.md R138, the flags written). -/
def EndsInSuccess (s : State) (f : List Byte) (t : State) : Prop :=
  t.txn.state = .doneOk ∧ t.txn.errClass.code = 0#2 ∧ t.txn.errCode.code = 0#8 ∧ t.txn.exCode = 0#8 ∧
  t.txn.rxLen.toNat = f.length ∧ (∀ i, i < f.length → t.txn.rx i = byteOf f i) ∧
  t.txn.pendFunc = s.txn.pendFunc ∧ t.txn.pendAddr = s.txn.pendAddr ∧ t.txn.pendData = s.txn.pendData ∧
  t.txn.txBuf = s.txn.txBuf ∧ t.txn.txLen = s.txn.txLen ∧ t.txn.txPtr = s.txn.txPtr ∧ t.txn.rxExpect = s.txn.rxExpect ∧
  t.txn.discard = s.txn.discard ∧
  t.toBlock = { s.toBlock with txn := t.txn }

/-- An access the register map admits a read of: a 16-bit read at an even mapped offset other than CMD (20_memory.md R61
to R65). -/
def ReadAdmitted (off : Offset) (w : AccessWidth) : Prop :=
  w = .bits16 ∧ off.toNat % 2 = 0 ∧ off ≠ 0x000#12 ∧
  (off.toNat ≤ 0x024 ∨ (0x100 ≤ off.toNat ∧ off.toNat ≤ 0x10E) ∨ (0x200 ≤ off.toNat ∧ off.toNat ≤ 0x406) ∨
    (0x500 ≤ off.toNat ∧ off.toNat ≤ 0x5F8) ∨ (0x600 ≤ off.toNat ∧ off.toNat ≤ 0x6F8))

/-- An access the register map admits a write of: a 16-bit write to CMD or to one of the four RW registers
(20_memory.md R61 to R65). -/
def WriteAdmitted (off : Offset) (w : AccessWidth) : Prop :=
  w = .bits16 ∧ (off = 0x000#12 ∨ off = 0x00C#12 ∨ off = 0x00E#12 ∨ off = 0x020#12 ∨ off = 0x022#12)

/-- A 16-bit host read at `off` gives the value `v` and changes nothing of the block (20_memory.md R66, R67). -/
def ReadsAs (s : State) (off : Offset) (v : Word) : Prop :=
  ∃ t, exec (.memRead off .bits16) s = .next t ∧ t.response = .readData v ∧ t.toBlock = s.toBlock

end Sys2Proof.Machine
end

