-- ==== Sys2Proof/Certificates/Slice0/Obligations.lean ====
section
/-! DEFINITION. The statements for the provers, in the order of OBLIGATIONS.json. -/

open Sys2Proof Sys2Proof.Machine

/-! Reset. -/

/-- Every row of the table of 70_reset_and_hazards.md R231: every state element, STATUS, SLAVE and IRQ after reset. -/
def Obligations.ResetLeavesTheStatedValues : Prop :=
  State.reset.txn.state.code = 0#3 ∧ State.reset.txn.errClass.code = 0#2 ∧ State.reset.txn.errCode.code = 0x00#8 ∧
  State.reset.txn.exCode = 0x00#8 ∧ State.reset.txn.discard = false ∧ State.reset.cmdErr.code = 0x00#8 ∧
  State.reset.status = 0x0000#16 ∧ Config.slaveId = 0x01#8 ∧
  State.reset.reqAddr = 0x0000#16 ∧ State.reset.reqData = 0x0000#16 ∧
  State.reset.txn.pendFunc = 0x00#8 ∧ State.reset.txn.pendAddr = 0x0000#16 ∧ State.reset.txn.pendData = 0x0000#16 ∧
  (∀ i : Fin 8, State.reset.txn.txBuf[i] = 0x00#8) ∧ State.reset.txn.txLen = 0#4 ∧ State.reset.txn.txPtr = 0#4 ∧
  (∀ i : Fin 260, State.reset.txn.rxBuf[i] = 0x00#8) ∧ State.reset.txn.rxLen = 0#9 ∧ State.reset.txn.rxExpect = 0#9 ∧
  State.reset.txn.resultCount = 0#16 ∧ (∀ i : Fin 125, State.reset.txn.resultReg[i] = 0x0000#16) ∧
  (∀ k : Fin 125, State.reset.txn.resultCoil[k] = 0x0000#16) ∧
  State.reset.irqEn = 0x0000#16 ∧ State.reset.crcCfg = 0x0000#16 ∧ State.reset.crcValue = 0xFFFF#16 ∧
  State.reset.irq = false

/-- RESET in any state: the whole block takes its reset values, the bytes not taken are never offered, and no
instruction but RESET and host writes changes group H (70_reset_and_hazards.md R230). -/
def Obligations.ResetEventRestoresTheBlock : Prop :=
  (∀ s : State, ∃ t, exec .reset s = .next t ∧ t.txn = Transaction.reset ∧
    t.reqAddr = 0x0000#16 ∧ t.reqData = 0x0000#16 ∧ t.irqEn = 0x0000#16 ∧ t.crcCfg = 0x0000#16 ∧
    t.cmdErr.code = 0x00#8 ∧ t.crcValue = 0xFFFF#16 ∧
    t.txn.errClass.code = 0#2 ∧ t.txn.errCode.code = 0x00#8 ∧ exec .txTake t = .refused .notEnabled) ∧
  (∀ (i : Instr) (s t : State), exec i s = .next t → i ≠ .reset → (∀ off w v, i ≠ .memWrite off w v) →
    t.reqAddr = s.reqAddr ∧ t.reqData = s.reqData ∧ t.irqEn = s.irqEn ∧ t.crcCfg = s.crcCfg)

/-! The host port. -/

/-- The register map, row by row: which register stands at which offset, that every other offset is unmapped, and the
access rights (20_memory.md R61). -/
def Obligations.RegisterMapIsTheTable : Prop :=
  (regAt 0x000#12 = some .cmd ∧ regAt 0x002#12 = some .status ∧ regAt 0x004#12 = some .errCode ∧
   regAt 0x006#12 = some .exCode ∧ regAt 0x008#12 = some .cmdErr ∧ regAt 0x00A#12 = some .slave ∧
   regAt 0x00C#12 = some .reqAddr ∧ regAt 0x00E#12 = some .reqData ∧ regAt 0x010#12 = some .pendFunc ∧
   regAt 0x012#12 = some .pendAddr ∧ regAt 0x014#12 = some .pendData ∧ regAt 0x016#12 = some .txLen ∧
   regAt 0x018#12 = some .txPtr ∧ regAt 0x01A#12 = some .rxLen ∧ regAt 0x01C#12 = some .rxExpect ∧
   regAt 0x01E#12 = some .resultCount ∧ regAt 0x020#12 = some .irqEn ∧ regAt 0x022#12 = some .crcCfg ∧
   regAt 0x024#12 = some .crcValue) ∧
  (∀ i : Fin 8, regAt (BitVec.ofNat 12 (0x100 + 2 * i.val)) = some (.txBuf i)) ∧
  (∀ i : Fin 260, regAt (BitVec.ofNat 12 (0x200 + 2 * i.val)) = some (.rxBuf i)) ∧
  (∀ i : Fin 125, regAt (BitVec.ofNat 12 (0x500 + 2 * i.val)) = some (.resultReg i)) ∧
  (∀ k : Fin 125, regAt (BitVec.ofNat 12 (0x600 + 2 * k.val)) = some (.resultCoil k)) ∧
  (∀ off : Offset, regAt off = none ↔
    off.toNat % 2 = 1 ∨ (0x026 ≤ off.toNat ∧ off.toNat ≤ 0x0FE) ∨ (0x110 ≤ off.toNat ∧ off.toNat ≤ 0x1FE) ∨
    (0x408 ≤ off.toNat ∧ off.toNat ≤ 0x4FE) ∨ (0x5FA ≤ off.toNat ∧ off.toNat ≤ 0x5FE) ∨
    (0x6FA ≤ off.toNat ∧ off.toNat ≤ 0xFFE)) ∧
  (∀ r : Reg, (r.access = .wo ↔ r = .cmd) ∧
    (r.access = .rw ↔ r = .reqAddr ∨ r = .reqData ∨ r = .irqEn ∨ r = .crcCfg))

/-- Every readable register read at its offset: the field, zero-extended, reserved bits 0, and no change of the block
(20_memory.md R67, and the map R61). -/
def Obligations.RegistersReadAsPresented : Prop :=
  ∀ s : State,
    ReadsAs s 0x002#12 s.status ∧ ReadsAs s 0x004#12 (s.txn.errCode.code.setWidth 16) ∧
    ReadsAs s 0x006#12 (s.txn.exCode.setWidth 16) ∧ ReadsAs s 0x008#12 (s.cmdErr.code.setWidth 16) ∧
    ReadsAs s 0x00A#12 0x0001#16 ∧ ReadsAs s 0x00C#12 s.reqAddr ∧ ReadsAs s 0x00E#12 s.reqData ∧
    ReadsAs s 0x010#12 (s.txn.pendFunc.setWidth 16) ∧ ReadsAs s 0x012#12 s.txn.pendAddr ∧
    ReadsAs s 0x014#12 s.txn.pendData ∧ ReadsAs s 0x016#12 (s.txn.txLen.setWidth 16) ∧
    ReadsAs s 0x018#12 (s.txn.txPtr.setWidth 16) ∧ ReadsAs s 0x01A#12 (s.txn.rxLen.setWidth 16) ∧
    ReadsAs s 0x01C#12 (s.txn.rxExpect.setWidth 16) ∧ ReadsAs s 0x01E#12 s.txn.resultCount ∧
    ReadsAs s 0x020#12 ((s.irqEn.extractLsb' 0 1).setWidth 16) ∧
    ReadsAs s 0x022#12 ((s.crcCfg.extractLsb' 0 2).setWidth 16) ∧ ReadsAs s 0x024#12 s.crcValue ∧
    (∀ i : Fin 8, ReadsAs s (BitVec.ofNat 12 (0x100 + 2 * i.val)) (s.txn.txBuf[i].setWidth 16)) ∧
    (∀ i : Fin 260, ReadsAs s (BitVec.ofNat 12 (0x200 + 2 * i.val)) (s.txn.rxBuf[i].setWidth 16)) ∧
    (∀ i : Fin 125, ReadsAs s (BitVec.ofNat 12 (0x500 + 2 * i.val)) s.txn.resultReg[i]) ∧
    (∀ k : Fin 125, ReadsAs s (BitVec.ofNat 12 (0x600 + 2 * k.val)) s.txn.resultCoil[k])

/-- Every host access, of every offset and width: it raises BusError exactly when the offset is odd or unmapped, the
width is not 16 bits or the right is missing, and a BusError changes nothing of the block (20_memory.md R65). An
admitted read gets data and an admitted write its acknowledgement. -/
def Obligations.BusErrorExactlyWhenNotAdmitted : Prop :=
  (∀ (off : Offset) (w : AccessWidth) (s : State), ReadAdmitted off w →
    ∃ t v, exec (.memRead off w) s = .next t ∧ t.response = .readData v ∧ t.toBlock = s.toBlock) ∧
  (∀ (off : Offset) (w : AccessWidth) (s : State), ¬ ReadAdmitted off w →
    ∃ t, exec (.memRead off w) s = .next t ∧ t.response = .busError off ∧ t.toBlock = s.toBlock) ∧
  (∀ (off : Offset) (w : AccessWidth) (v : Word) (s : State), WriteAdmitted off w →
    ∃ t, exec (.memWrite off w v) s = .next t ∧ t.response = .writeAck) ∧
  (∀ (off : Offset) (w : AccessWidth) (v : Word) (s : State), ¬ WriteAdmitted off w →
    ∃ t, exec (.memWrite off w v) s = .next t ∧ t.response = .busError off ∧ t.toBlock = s.toBlock)

/-- A write to an RW register: the register takes the value, reserved bits ignored, and nothing else of the block
changes (20_memory.md R69). -/
def Obligations.RwWritesSetOneRegister : Prop :=
  ∀ (v : Word) (s : State),
    (∃ t, exec (.memWrite 0x00C#12 .bits16 v) s = .next t ∧ t.toBlock = { s.toBlock with reqAddr := v }) ∧
    (∃ t, exec (.memWrite 0x00E#12 .bits16 v) s = .next t ∧ t.toBlock = { s.toBlock with reqData := v }) ∧
    (∃ t, exec (.memWrite 0x020#12 .bits16 v) s = .next t ∧
      t.toBlock = { s.toBlock with irqEn := (v.extractLsb' 0 1).setWidth 16 }) ∧
    (∃ t, exec (.memWrite 0x022#12 .bits16 v) s = .next t ∧
      t.toBlock = { s.toBlock with crcCfg := (v.extractLsb' 0 2).setWidth 16 })

/-- A 16-bit write to CMD performs the command its word encodes, and an undefined opcode is refused UNDEFINED_OP, which
changes only CMD_ERR (30_encoding.md R81; 60_exceptions.md R202). -/
def Obligations.CommandDispatch : Prop :=
  ∀ (v : Word) (s : State),
    (v.extractLsb' 0 8 = 0x01#8 → exec (.memWrite 0x000#12 .bits16 v) s = exec (.encRc (v.extractLsb' 8 8)) s) ∧
    (v.extractLsb' 0 8 = 0x03#8 → exec (.memWrite 0x000#12 .bits16 v) s = exec (.encRhr (v.extractLsb' 8 8)) s) ∧
    (v.extractLsb' 0 8 = 0x05#8 → exec (.memWrite 0x000#12 .bits16 v) s = exec (.encWsc (v.extractLsb' 8 8)) s) ∧
    (v.extractLsb' 0 8 = 0x06#8 → exec (.memWrite 0x000#12 .bits16 v) s = exec (.encWsr (v.extractLsb' 8 8)) s) ∧
    (v.extractLsb' 0 8 = 0x10#8 → exec (.memWrite 0x000#12 .bits16 v) s = exec (.clear (v.extractLsb' 8 8)) s) ∧
    (v.extractLsb' 0 8 = 0x20#8 → exec (.memWrite 0x000#12 .bits16 v) s = exec (.crcInit (v.extractLsb' 8 8)) s) ∧
    (v.extractLsb' 0 8 = 0x21#8 → exec (.memWrite 0x000#12 .bits16 v) s = exec (.crcByte (v.extractLsb' 8 8)) s) ∧
    (v.extractLsb' 0 8 ∉ [0x01#8, 0x03#8, 0x05#8, 0x06#8, 0x10#8, 0x20#8, 0x21#8] →
      ∃ t, exec (.memWrite 0x000#12 .bits16 v) s = .next t ∧ t.toBlock = { s.toBlock with cmdErr := .undefinedOp } ∧
        t.cmdErr.code = 0x01#8)

/-! Flags. -/

/-- The layout of STATUS, bit by bit, that it is read-only, and its value at reset (10_state.md R30). -/
def Obligations.StatusWordLayout : Prop :=
  regAt 0x002#12 = some .status ∧ Reg.access .status = .ro ∧ State.reset.status = 0x0000#16 ∧
  ∀ b : Block,
    b.status.extractLsb' 0 3 = b.txn.state.code ∧
    b.status.getLsbD 3 = decide (b.txn.state = .tx ∨ b.txn.state = .await) ∧
    b.status.extractLsb' 4 2 = b.txn.errClass.code ∧
    b.status.getLsbD 6 = b.txn.discard ∧
    b.status.getLsbD 7 = decide (b.cmdErr.code ≠ 0x00#8) ∧
    b.status.getLsbD 8 = (b.irqEn.getLsbD 0 && decide (b.txn.state = .doneOk ∨ b.txn.state = .doneErr)) ∧
    (∀ i, 9 ≤ i → b.status.getLsbD i = false)

/-- The interrupt is a level: it is high exactly while it is enabled and a transaction is finished, so a write of 1 to
IRQ_EN after a completion raises it at once and a write of 0 lowers it (10_state.md R29; 60_exceptions.md R221). -/
def Obligations.InterruptIsALevel : Prop :=
  (∀ b : Block, b.irq = true ↔ b.irqEn.getLsbD 0 = true ∧ (b.txn.state = .doneOk ∨ b.txn.state = .doneErr)) ∧
  (∀ (v : Word) (s : State), ∃ t, exec (.memWrite 0x020#12 .bits16 v) s = .next t ∧
    t.irq = (v.getLsbD 0 && decide (s.txn.state = .doneOk ∨ s.txn.state = .doneErr)))

/-- DISCARD is sticky: a response byte that is not accepted sets it, no other instruction does, and it is cleared only
by ClearTransaction, in an accepted encode command or CLEAR, or by RESET; it is 0 at reset (10_state.md R27). -/
def Obligations.DiscardIsSticky : Prop :=
  State.reset.txn.discard = false ∧
  (∀ (d : Byte) (s t : State), s.txn.state ≠ .await → exec (.rxByte d) s = .next t → t.txn.discard = true) ∧
  ∀ (i : Instr) (s t : State), exec i s = .next t →
    (s.txn.discard = false → t.txn.discard = true → s.txn.state ≠ .await ∧ ∃ d, i = .rxByte d) ∧
    (s.txn.discard = true → t.txn.discard = false →
      i = .reset ∨ i.command? = some (.clear 0x00#8) ∧ t.cmdErr = .ok ∨
      ∃ op, i.command?.bind Instr.encodeOp = some op ∧ t.cmdErr = .ok)

/-- CMD_ERR is the outcome of the last write to CMD: every write to CMD writes it, nothing else does except RESET, and
its value is 0x00 or a refusal code (10_state.md R28). -/
def Obligations.CmdErrIsTheLastOutcome : Prop :=
  (∀ (i : Instr) (s t : State), exec i s = .next t → i.writesCmd = false → i ≠ .reset → t.cmdErr = s.cmdErr) ∧
  (∀ (i : Instr) (s t : State), exec i s = .next t → i.writesCmd = true →
    t.cmdErr.code.toNat ≤ 0x05 ∧ (t.cmdErr.code ≠ 0x00#8 → t.toBlock = { s.toBlock with cmdErr := t.cmdErr })) ∧
  (∀ (i : Instr) (s s' t t' : State), i.writesCmd = true → s.toBlock = { s'.toBlock with cmdErr := s.cmdErr } →
    exec i s = .next t → exec i s' = .next t' → t.cmdErr = t'.cmdErr)

/-! The encode commands. -/

/-- ENC_RHR, every form: its command word is `imm8 ++ 0x03`; it is refused for a nonzero `imm8`, while BUSY, and for a quantity outside 1 to 125, in that order;
else the request 0x03 stands in TXBUF with its CRC and the transaction is in TX (40_encoder.md R111). -/
def Obligations.EncRhrBuildsTheRequest : Prop :=
  (∀ (imm : Byte) (s : State), exec (.memWrite 0x000#12 .bits16 (imm ++ 0x03#8)) s = exec (.encRhr imm) s) ∧
  ∀ (imm : Byte) (s : State), ∃ t, exec (.encRhr imm) s = .next t ∧
    t.toBlock =
      if imm ≠ 0x00#8 then { s.toBlock with cmdErr := .reservedImm }
      else if s.txn.state = .tx ∨ s.txn.state = .await then { s.toBlock with cmdErr := .busy }
      else if s.reqData.toNat = 0 ∨ 125 < s.reqData.toNat then { s.toBlock with cmdErr := .badCount }
      else
        let pdu : List Byte := [0x01#8, 0x03#8, s.reqAddr.extractLsb' 8 8, s.reqAddr.extractLsb' 0 8,
          s.reqData.extractLsb' 8 8, s.reqData.extractLsb' 0 8]
        { s.toBlock with
          cmdErr := .ok
          txn := { Transaction.reset with
            state := .tx, pendFunc := 0x03#8, pendAddr := s.reqAddr, pendData := s.reqData, txLen := 8#4, txPtr := 0#4
            txBuf := #v[0x01#8, 0x03#8, s.reqAddr.extractLsb' 8 8, s.reqAddr.extractLsb' 0 8,
              s.reqData.extractLsb' 8 8, s.reqData.extractLsb' 0 8,
              (crc16Modbus pdu).extractLsb' 0 8, (crc16Modbus pdu).extractLsb' 8 8] } }

/-- ENC_RC, every form: as ENC_RHR, with the command word `imm8 ++ 0x01`, the quantity from 1 to 2000 and the function code 0x01 (40_encoder.md R112). -/
def Obligations.EncRcBuildsTheRequest : Prop :=
  (∀ (imm : Byte) (s : State), exec (.memWrite 0x000#12 .bits16 (imm ++ 0x01#8)) s = exec (.encRc imm) s) ∧
  ∀ (imm : Byte) (s : State), ∃ t, exec (.encRc imm) s = .next t ∧
    t.toBlock =
      if imm ≠ 0x00#8 then { s.toBlock with cmdErr := .reservedImm }
      else if s.txn.state = .tx ∨ s.txn.state = .await then { s.toBlock with cmdErr := .busy }
      else if s.reqData.toNat = 0 ∨ 2000 < s.reqData.toNat then { s.toBlock with cmdErr := .badCount }
      else
        let pdu : List Byte := [0x01#8, 0x01#8, s.reqAddr.extractLsb' 8 8, s.reqAddr.extractLsb' 0 8,
          s.reqData.extractLsb' 8 8, s.reqData.extractLsb' 0 8]
        { s.toBlock with
          cmdErr := .ok
          txn := { Transaction.reset with
            state := .tx, pendFunc := 0x01#8, pendAddr := s.reqAddr, pendData := s.reqData, txLen := 8#4, txPtr := 0#4
            txBuf := #v[0x01#8, 0x01#8, s.reqAddr.extractLsb' 8 8, s.reqAddr.extractLsb' 0 8,
              s.reqData.extractLsb' 8 8, s.reqData.extractLsb' 0 8,
              (crc16Modbus pdu).extractLsb' 0 8, (crc16Modbus pdu).extractLsb' 8 8] } }

/-- ENC_WSR, every form: its command word is `imm8 ++ 0x06`; it is refused for a nonzero `imm8` and while BUSY; every value is legal (40_encoder.md R113). -/
def Obligations.EncWsrBuildsTheRequest : Prop :=
  (∀ (imm : Byte) (s : State), exec (.memWrite 0x000#12 .bits16 (imm ++ 0x06#8)) s = exec (.encWsr imm) s) ∧
  ∀ (imm : Byte) (s : State), ∃ t, exec (.encWsr imm) s = .next t ∧
    t.toBlock =
      if imm ≠ 0x00#8 then { s.toBlock with cmdErr := .reservedImm }
      else if s.txn.state = .tx ∨ s.txn.state = .await then { s.toBlock with cmdErr := .busy }
      else
        let pdu : List Byte := [0x01#8, 0x06#8, s.reqAddr.extractLsb' 8 8, s.reqAddr.extractLsb' 0 8,
          s.reqData.extractLsb' 8 8, s.reqData.extractLsb' 0 8]
        { s.toBlock with
          cmdErr := .ok
          txn := { Transaction.reset with
            state := .tx, pendFunc := 0x06#8, pendAddr := s.reqAddr, pendData := s.reqData, txLen := 8#4, txPtr := 0#4
            txBuf := #v[0x01#8, 0x06#8, s.reqAddr.extractLsb' 8 8, s.reqAddr.extractLsb' 0 8,
              s.reqData.extractLsb' 8 8, s.reqData.extractLsb' 0 8,
              (crc16Modbus pdu).extractLsb' 0 8, (crc16Modbus pdu).extractLsb' 8 8] } }

/-- ENC_WSC, every form: its command word is `imm8 ++ 0x05`; it is refused for a nonzero `imm8`, while BUSY, and for a value other than 0 and 1; else the data
field is 0xFF00 for ON and 0x0000 for OFF (40_encoder.md R114). -/
def Obligations.EncWscBuildsTheRequest : Prop :=
  (∀ (imm : Byte) (s : State), exec (.memWrite 0x000#12 .bits16 (imm ++ 0x05#8)) s = exec (.encWsc imm) s) ∧
  ∀ (imm : Byte) (s : State), ∃ t, exec (.encWsc imm) s = .next t ∧
    t.toBlock =
      if imm ≠ 0x00#8 then { s.toBlock with cmdErr := .reservedImm }
      else if s.txn.state = .tx ∨ s.txn.state = .await then { s.toBlock with cmdErr := .busy }
      else if s.reqData ≠ 0#16 ∧ s.reqData ≠ 1#16 then { s.toBlock with cmdErr := .badCoilValue }
      else
        let hi : Byte := if s.reqData = 1#16 then 0xFF#8 else 0x00#8
        let pdu : List Byte := [0x01#8, 0x05#8, s.reqAddr.extractLsb' 8 8, s.reqAddr.extractLsb' 0 8, hi, 0x00#8]
        { s.toBlock with
          cmdErr := .ok
          txn := { Transaction.reset with
            state := .tx, pendFunc := 0x05#8, pendAddr := s.reqAddr
            pendData := if s.reqData = 1#16 then 0xFF00#16 else 0x0000#16, txLen := 8#4, txPtr := 0#4
            txBuf := #v[0x01#8, 0x05#8, s.reqAddr.extractLsb' 8 8, s.reqAddr.extractLsb' 0 8, hi, 0x00#8,
              (crc16Modbus pdu).extractLsb' 0 8, (crc16Modbus pdu).extractLsb' 8 8] } }

/-- The example frames of 40_encoder.md R111 to R114 and of 95_test_vectors.md L2.1. -/
def Obligations.ExampleRequestFrames : Prop :=
  requestFrame 0x03#8 0x0000#16 1#16 = #v[0x01#8, 0x03#8, 0x00#8, 0x00#8, 0x00#8, 0x01#8, 0x84#8, 0x0A#8] ∧
  requestFrame 0x03#8 0xFFFF#16 2#16 = #v[0x01#8, 0x03#8, 0xFF#8, 0xFF#8, 0x00#8, 0x02#8, 0xC4#8, 0x2F#8] ∧
  requestFrame 0x01#8 0x0013#16 37#16 = #v[0x01#8, 0x01#8, 0x00#8, 0x13#8, 0x00#8, 0x25#8, 0x0C#8, 0x14#8] ∧
  requestFrame 0x06#8 0x0001#16 0x0003#16 = #v[0x01#8, 0x06#8, 0x00#8, 0x01#8, 0x00#8, 0x03#8, 0x98#8, 0x0B#8] ∧
  requestFrame 0x06#8 0xFFFF#16 0xFFFF#16 = #v[0x01#8, 0x06#8, 0xFF#8, 0xFF#8, 0xFF#8, 0xFF#8, 0x88#8, 0x5E#8] ∧
  requestFrame 0x05#8 0x00AC#16 0xFF00#16 = #v[0x01#8, 0x05#8, 0x00#8, 0xAC#8, 0xFF#8, 0x00#8, 0x4C#8, 0x1B#8]

/-- The encoder's invariants: the request latches change only at an accepted encode command, at ClearTransaction and at
RESET; after an accepted encode command the whole frame checks to zero and holds the latches, high byte first
(40_encoder.md R115). -/
def Obligations.EncoderInvariants : Prop :=
  (∀ (i : Instr) (s t : State), exec i s = .next t →
    (t.txn.txBuf ≠ s.txn.txBuf ∨ t.txn.txLen ≠ s.txn.txLen ∨ t.txn.pendFunc ≠ s.txn.pendFunc ∨
      t.txn.pendAddr ≠ s.txn.pendAddr ∨ t.txn.pendData ≠ s.txn.pendData) →
    i = .reset ∨ (i.command? = some (.clear 0x00#8) ∧ t.cmdErr = .ok) ∨
      ∃ op, i.command?.bind Instr.encodeOp = some op ∧ t.cmdErr = .ok) ∧
  (∀ (i : Instr) (s t : State) (op : Byte), exec i s = .next t → i.command?.bind Instr.encodeOp = some op →
    t.cmdErr = .ok →
    crc16Modbus t.txn.txBuf.toList = 0x0000#16 ∧ t.txn.txBuf[0] = 0x01#8 ∧ t.txn.txBuf[1] = t.txn.pendFunc ∧
    t.txn.txBuf[2] = t.txn.pendAddr.extractLsb' 8 8 ∧ t.txn.txBuf[3] = t.txn.pendAddr.extractLsb' 0 8 ∧
    t.txn.txBuf[4] = t.txn.pendData.extractLsb' 8 8 ∧ t.txn.txBuf[5] = t.txn.pendData.extractLsb' 0 8)

/-! The CRC functions and the generator. -/

/-- CRC16_MODBUS: the value of the empty sequence, the update by one more byte, and the check value (42_crc.md R171). -/
def Obligations.FramerCrcDefinition : Prop :=
  crc16Modbus [] = 0xFFFF#16 ∧
  (∀ (m : List Byte) (d : Byte), crc16Modbus (m ++ [d]) = updateR (crc16Modbus m) d 0xA001#16) ∧
  crc16Modbus [0x31#8, 0x32#8, 0x33#8, 0x34#8, 0x35#8, 0x36#8, 0x37#8, 0x38#8, 0x39#8] = 0x4B37#16

/-- The reflected update, on the values of its 16 bits: eight times, the register is halved and, where it was odd, the
polynomial is exclusive-ored in; with the example (42_crc.md R173). -/
def Obligations.ReflectedUpdate : Prop :=
  (∀ (c p : Word) (d : Byte),
    let f : Word → Word := fun x =>
      if x.toNat % 2 = 1 then BitVec.ofNat 16 (x.toNat / 2) ^^^ p else BitVec.ofNat 16 (x.toNat / 2)
    updateR c d p = f (f (f (f (f (f (f (f (c ^^^ BitVec.ofNat 16 d.toNat))))))))) ∧
  updateR 0xFFFF#16 0x01#8 0xA001#16 = 0x807E#16

/-- The non-reflected update, on the values of its 16 bits: eight times, the register is doubled modulo 2^16 and, where
it was at least 2^15, 0x1021 is exclusive-ored in; with the example (42_crc.md R174). -/
def Obligations.NonReflectedUpdate : Prop :=
  (∀ (c : Word) (d : Byte),
    let f : Word → Word := fun x =>
      if 2 ^ 15 ≤ x.toNat then BitVec.ofNat 16 (2 * x.toNat) ^^^ 0x1021#16 else BitVec.ofNat 16 (2 * x.toNat)
    updateN c d = f (f (f (f (f (f (f (f (c ^^^ BitVec.ofNat 16 (256 * d.toNat)))))))))) ∧
  updateN 0xFFFF#16 0x01#8 = 0xF1D1#16

/-- The presets: the value of PRESET that selects each, its initial value, its update and its check value (42_crc.md
R172; the table's trailer orders are the statement after next). -/
def Obligations.GeneratorPresets : Prop :=
  (∀ cfg : Word,
    (cfg.extractLsb' 0 2 = 0#2 → presetOf cfg = .modbus) ∧ (cfg.extractLsb' 0 2 = 1#2 → presetOf cfg = .ibm3740) ∧
    (cfg.extractLsb' 0 2 = 2#2 → presetOf cfg = .xmodem) ∧ (cfg.extractLsb' 0 2 = 3#2 → presetOf cfg = .kermit)) ∧
  (Preset.modbus.init = 0xFFFF#16 ∧ Preset.ibm3740.init = 0xFFFF#16 ∧ Preset.xmodem.init = 0x0000#16 ∧
    Preset.kermit.init = 0x0000#16) ∧
  (∀ (c : Word) (d : Byte), Preset.modbus.update c d = updateR c d 0xA001#16 ∧ Preset.ibm3740.update c d = updateN c d ∧
    Preset.xmodem.update c d = updateN c d ∧ Preset.kermit.update c d = updateR c d 0x8408#16) ∧
  (∀ digits : List Byte, digits = [0x31#8, 0x32#8, 0x33#8, 0x34#8, 0x35#8, 0x36#8, 0x37#8, 0x38#8, 0x39#8] →
    Preset.modbus.crc digits = 0x4B37#16 ∧ Preset.ibm3740.crc digits = 0x29B1#16 ∧
    Preset.xmodem.crc digits = 0x31C3#16 ∧ Preset.kermit.crc digits = 0x2189#16)

/-- A byte sequence followed by its own CRC checks to zero: MODBUS and KERMIT with the low byte first, IBM3740 and
XMODEM with the high byte first (42_crc.md R179 (a) and (b)). -/
def Obligations.TrailerChecksToZero : Prop :=
  ∀ m : List Byte,
    crc16Modbus (m ++ [(crc16Modbus m).extractLsb' 0 8, (crc16Modbus m).extractLsb' 8 8]) = 0x0000#16 ∧
    Preset.kermit.crc (m ++ [(Preset.kermit.crc m).extractLsb' 0 8, (Preset.kermit.crc m).extractLsb' 8 8]) = 0x0000#16 ∧
    Preset.ibm3740.crc (m ++ [(Preset.ibm3740.crc m).extractLsb' 8 8, (Preset.ibm3740.crc m).extractLsb' 0 8]) = 0x0000#16 ∧
    Preset.xmodem.crc (m ++ [(Preset.xmodem.crc m).extractLsb' 8 8, (Preset.xmodem.crc m).extractLsb' 0 8]) = 0x0000#16

/-- The updates are linear over GF(2) in the register and the byte together (42_crc.md R179 (c)). -/
def Obligations.UpdatesAreLinear : Prop :=
  ∀ (c₁ c₂ p : Word) (d₁ d₂ : Byte),
    updateR (c₁ ^^^ c₂) (d₁ ^^^ d₂) p = updateR c₁ d₁ p ^^^ updateR c₂ d₂ p ∧
    updateN (c₁ ^^^ c₂) (d₁ ^^^ d₂) = updateN c₁ d₁ ^^^ updateN c₂ d₂

/-- A complete frame damaged in one byte, whichever its bits and wherever it stands, no longer passes the CRC check; a
one-bit error is a case of it (42_crc.md R179 (d), its first clause). -/
def Obligations.OneByteErrorIsDetected : Prop :=
  ∀ (before after : List Byte) (b b' : Byte), b ≠ b' → 2 ≤ (before ++ b :: after).length →
    TrailerOk (before ++ b :: after) → ¬ TrailerOk (before ++ b' :: after)

/-- CRC_INIT, every form: its command word is `imm8 ++ 0x20`; a nonzero `imm8` is refused; else CRC_VALUE takes the selected preset's initial value, in
every STATE, and nothing else but CMD_ERR changes (42_crc.md R175). -/
def Obligations.CrcInitLoadsTheInitialValue : Prop :=
  (∀ (imm : Byte) (s : State), exec (.memWrite 0x000#12 .bits16 (imm ++ 0x20#8)) s = exec (.crcInit imm) s) ∧
  ∀ (imm : Byte) (s : State), ∃ t, exec (.crcInit imm) s = .next t ∧
    t.toBlock =
      if imm ≠ 0x00#8 then { s.toBlock with cmdErr := .reservedImm }
      else { s.toBlock with
        crcValue := if (s.crcCfg.extractLsb' 0 2).toNat ≤ 1 then 0xFFFF#16 else 0x0000#16, cmdErr := .ok }

/-- CRC_BYTE: its command word is `d ++ 0x21`; the byte is fed under the selected preset, in every STATE, never refused, and nothing else but CMD_ERR
changes (42_crc.md R176). -/
def Obligations.CrcByteFeedsTheGenerator : Prop :=
  (∀ (d : Byte) (s : State), exec (.memWrite 0x000#12 .bits16 (d ++ 0x21#8)) s = exec (.crcByte d) s) ∧
  ∀ (d : Byte) (s : State), ∃ t, exec (.crcByte d) s = .next t ∧
    t.toBlock = { s.toBlock with
      crcValue :=
        if s.crcCfg.extractLsb' 0 2 = 0#2 then updateR s.crcValue d 0xA001#16
        else if s.crcCfg.extractLsb' 0 2 = 3#2 then updateR s.crcValue d 0x8408#16
        else updateN s.crcValue d
      cmdErr := .ok }

/-- CRC_INIT and then CRC_BYTE for each byte leave in CRC_VALUE the CRC of the bytes under the selected preset, and
nothing else but CMD_ERR changes (42_crc.md R177). -/
def Obligations.GeneratorComputesTheCrc : Prop :=
  ∀ (bytes : List Byte) (s : State), ∃ t, execAll (.crcInit 0x00#8 :: bytes.map .crcByte) s = .next t ∧
    t.toBlock = { s.toBlock with crcValue := (presetOf s.crcCfg).crc bytes, cmdErr := .ok }

/-- The two CRC functions are independent: what an instruction does to the rest of the block does not depend on
CRC_CFG and CRC_VALUE, only CRC_INIT, CRC_BYTE and RESET change CRC_VALUE, and what CRC_INIT and CRC_BYTE do to the
generator and to CMD_ERR does not depend on group T, which they leave (42_crc.md R170; 10_state.md R48). -/
def Obligations.GeneratorIsApartFromTheFramer : Prop :=
  (∀ (i : Instr) (s t : State) (cfg value : Word), exec i s = .next t →
    ∃ t', exec i { s with crcCfg := cfg, crcValue := value } = .next t' ∧
      t'.txn = t.txn ∧ t'.cmdErr = t.cmdErr ∧ t'.reqAddr = t.reqAddr ∧ t'.reqData = t.reqData ∧ t'.irqEn = t.irqEn) ∧
  (∀ (i : Instr) (s t : State), exec i s = .next t → t.crcValue ≠ s.crcValue →
    i = .reset ∨ i.command? = some (.crcInit 0x00#8) ∨ ∃ d, i.command? = some (.crcByte d)) ∧
  (∀ (i : Instr) (s t : State), exec i s = .next t →
    (i.command? = some (.crcInit 0x00#8) ∨ ∃ d, i.command? = some (.crcByte d)) → t.txn = s.txn) ∧
  (∀ (i : Instr) (s t : State) (u : Transaction), exec i s = .next t →
    ((∃ imm, i.command? = some (.crcInit imm)) ∨ ∃ d, i.command? = some (.crcByte d)) →
    ∃ t', exec i { s with txn := u } = .next t' ∧
      t'.crcValue = t.crcValue ∧ t'.crcCfg = t.crcCfg ∧ t'.cmdErr = t.cmdErr ∧ t'.txn = u)

/-! Control. -/

/-- CLEAR, every form: its command word is `imm8 ++ 0x10`; it is refused for a nonzero `imm8` and while BUSY, in that order; else group T takes its reset values
and groups H and K stay (43_control.md R190). -/
def Obligations.ClearEndsAFinishedTransaction : Prop :=
  (∀ (imm : Byte) (s : State), exec (.memWrite 0x000#12 .bits16 (imm ++ 0x10#8)) s = exec (.clear imm) s) ∧
  ∀ (imm : Byte) (s : State), ∃ t, exec (.clear imm) s = .next t ∧
    t.toBlock =
      if imm ≠ 0x00#8 then { s.toBlock with cmdErr := .reservedImm }
      else if s.txn.state = .tx ∨ s.txn.state = .await then { s.toBlock with cmdErr := .busy }
      else { s.toBlock with txn := Transaction.reset, cmdErr := .ok }

/-- The transaction state machine: every change of STATE is a row of the table (43_control.md R191). -/
def Obligations.StateChangesAreTheTable : Prop :=
  ∀ (i : Instr) (s t : State), s.toBlock.Inv → exec i s = .next t → t.txn.state ≠ s.txn.state →
    ((s.txn.state = .idle ∨ s.txn.state = .doneOk ∨ s.txn.state = .doneErr) ∧ t.txn.state = .tx ∧ t.cmdErr = .ok ∧
      ∃ op, i.command?.bind Instr.encodeOp = some op) ∨
    (s.txn.state = .tx ∧ i = .txTake ∧ t.txn.txPtr = 8#4 ∧ t.txn.state = .await) ∨
    ((s.txn.state = .tx ∨ s.txn.state = .await) ∧ i = .rxTimeout ∧ t.txn.state = .doneErr ∧ t.txn.errClass = .timeout) ∨
    (∃ d, s.txn.state = .await ∧ i = .rxByte d ∧ t.txn.rxLen = 2#9 ∧ d ≠ s.txn.pendFunc ∧
      d ≠ s.txn.pendFunc ||| 0x80#8 ∧ t.txn.state = .doneErr ∧ t.txn.errClass = .protocol) ∨
    (∃ d, s.txn.state = .await ∧ i = .rxByte d ∧ t.txn.rxExpect ≠ 0#9 ∧ t.txn.rxLen = t.txn.rxExpect ∧
      (t.txn.state = .doneOk ∨ t.txn.state = .doneErr ∧ t.txn.errClass = .protocol)) ∨
    ((s.txn.state = .doneOk ∨ s.txn.state = .doneErr) ∧ i.command? = some (.clear 0x00#8) ∧ t.txn.state = .idle ∧
      t.cmdErr = .ok) ∨
    (i = .reset ∧ t.txn.state = .idle)

/-! The link: the request. -/

/-- TX_TAKE in TX, below the end of the frame: the link gets TXBUF[TX_PTR], TX_PTR advances, STATE becomes AWAIT when
TX_PTR reaches TX_LEN, and nothing else of the block changes; outside TX the event is not enabled (41_decoder.md
R131). The premise on TX_PTR holds in every state of the invariant. -/
def Obligations.TxTakeHandsOutTheNextByte : Prop :=
  (∀ (s : State) (h : s.txn.txPtr.toNat < 8), s.txn.state = .tx →
    ∃ t, exec .txTake s = .next t ∧ t.response = .txByte (s.txn.txBuf[s.txn.txPtr.toNat]'h) ∧
      t.toBlock = { s.toBlock with txn := { s.txn with
        txPtr := s.txn.txPtr + 1#4
        state := if s.txn.txPtr + 1#4 = s.txn.txLen then .await else .tx } }) ∧
  (∀ s : State, s.txn.state ≠ .tx → exec .txTake s = .refused .notEnabled) ∧
  (∀ s : State, s.toBlock.Inv → s.txn.state = .tx → s.txn.txPtr.toNat < 8)

/-- From a request just built, the first n of eight TX_TAKE give the first n bytes of TXBUF, in order, and the eighth
moves STATE to AWAIT (41_decoder.md R131, its corner cases and example). -/
def Obligations.EightTakesSendTheFrame : Prop :=
  ∀ (s : State) (n : Nat) (hn : n < 8), s.toBlock.Inv → s.txn.state = .tx → s.txn.txPtr = 0#4 →
    ∃ t, execAll (List.replicate (n + 1) .txTake) s = .next t ∧ t.response = .txByte s.txn.txBuf[n] ∧
      t.txn.txPtr.toNat = n + 1 ∧ t.txn.state = (if n = 7 then .await else .tx) ∧
      t.toBlock = { s.toBlock with txn := { s.txn with txPtr := t.txn.txPtr, state := t.txn.state } }

/-! The link: the response. -/

/-- RX_BYTE outside AWAIT: the byte is not accepted, DISCARD is set and nothing else of the block changes
(41_decoder.md R132; 10_state.md R27). -/
def Obligations.RxByteOutsideAwaitIsDiscarded : Prop :=
  ∀ (d : Byte) (s : State), s.txn.state ≠ .await →
    ∃ t, exec (.rxByte d) s = .next t ∧ t.toBlock = { s.toBlock with txn := { s.txn with discard := true } }

/-- RX_BYTE in AWAIT always completes, stores the byte at RX_LEN, and changes neither the request nor anything outside
group T; RX_EXPECT changes at the second and the third byte only, and while STATE stays AWAIT nothing else changes; STATE leaves AWAIT exactly at a second byte that is no expected function code or at the last byte of the frame
(41_decoder.md R132, R133, R135). -/
def Obligations.RxByteInAwaitIsStored : Prop :=
  ∀ (d : Byte) (s : State), s.toBlock.Inv → s.txn.state = .await →
    ∃ t, exec (.rxByte d) s = .next t ∧
      t.txn.rxLen.toNat = s.txn.rxLen.toNat + 1 ∧
      (∀ i, t.txn.rx i = if i = s.txn.rxLen.toNat then d else s.txn.rx i) ∧
      (t.txn.state ≠ .await ↔
        (s.txn.rxLen = 1#9 ∧ d ≠ s.txn.pendFunc ∧ d ≠ s.txn.pendFunc ||| 0x80#8) ∨
        (s.txn.rxExpect ≠ 0#9 ∧ s.txn.rxLen.toNat + 1 = s.txn.rxExpect.toNat)) ∧
      t.txn.pendFunc = s.txn.pendFunc ∧ t.txn.pendAddr = s.txn.pendAddr ∧ t.txn.pendData = s.txn.pendData ∧
      t.txn.txBuf = s.txn.txBuf ∧ t.txn.txLen = s.txn.txLen ∧ t.txn.txPtr = s.txn.txPtr ∧
      t.txn.discard = s.txn.discard ∧ t.toBlock = { s.toBlock with txn := t.txn } ∧
      (s.txn.rxLen ≠ 1#9 → ¬ (s.txn.rxLen = 2#9 ∧ s.txn.rxExpect = 0#9) → t.txn.rxExpect = s.txn.rxExpect) ∧
      (t.txn.state = .await → t.txn =
        { s.txn with rxBuf := t.txn.rxBuf, rxLen := t.txn.rxLen, rxExpect := t.txn.rxExpect })

/-- CheckFunction, at the second accepted byte: an exception form gives the length 5, a write echo 8, a read response
leaves it open, and any other function code fails the transaction with BAD_FUNCTION (41_decoder.md R133). -/
def Obligations.SecondByteFixesTheForm : Prop :=
  ∀ (fc : Byte) (s : State), s.toBlock.Inv → s.txn.state = .await → s.txn.rxLen = 1#9 →
    ∃ t, exec (.rxByte fc) s = .next t ∧
      (fc = s.txn.pendFunc ||| 0x80#8 → t.txn.state = .await ∧ t.txn.rxExpect = 5#9) ∧
      (fc = s.txn.pendFunc → fc = 0x05#8 ∨ fc = 0x06#8 → t.txn.state = .await ∧ t.txn.rxExpect = 8#9) ∧
      (fc = s.txn.pendFunc → fc = 0x01#8 ∨ fc = 0x03#8 → t.txn.state = .await ∧ t.txn.rxExpect = 0#9) ∧
      (fc ≠ s.txn.pendFunc → fc ≠ s.txn.pendFunc ||| 0x80#8 →
        EndsInError s [s.txn.rx 0, fc] 2 0x10 0 t)

/-- The byte count, at the third accepted byte of a 0x01 or 0x03 response, fixes the length, whatever it is
(41_decoder.md R134). -/
def Obligations.ThirdByteFixesTheLength : Prop :=
  ∀ (count : Byte) (s : State), s.toBlock.Inv → s.txn.state = .await → s.txn.rxLen = 2#9 → s.txn.rx 1 = s.txn.pendFunc →
    (s.txn.pendFunc = 0x01#8 ∨ s.txn.pendFunc = 0x03#8) →
    ∃ t, exec (.rxByte count) s = .next t ∧ t.txn.state = .await ∧ t.txn.rxExpect.toNat = 5 + count.toNat

/-- A complete frame whose last two bytes are not the CRC of the bytes before them fails with CRC_MISMATCH, whatever
else is wrong with it (60_exceptions.md R212, R218). -/
def Obligations.CrcMismatchFailsFirst : Prop :=
  ∀ (s : State) (d : Byte) (f : List Byte), Completing s d f → ¬ TrailerOk f →
    ∃ t, exec (.rxByte d) s = .next t ∧ EndsInError s f 2 0x11 0 t

/-- A complete frame with a correct CRC from another slave fails with SLAVE_MISMATCH (60_exceptions.md R213). -/
def Obligations.SlaveMismatchFailsNext : Prop :=
  ∀ (s : State) (d : Byte) (f : List Byte), Completing s d f → TrailerOk f → byteOf f 0 ≠ 0x01#8 →
    ∃ t, exec (.rxByte d) s = .next t ∧ EndsInError s f 2 0x12 0 t

/-- A device exception response with a correct CRC from slave 1 fails with DEVICE_EXCEPTION and records its third byte,
whatever it is (60_exceptions.md R214; 41_decoder.md R137). -/
def Obligations.DeviceExceptionIsRecorded : Prop :=
  ∀ (s : State) (d : Byte) (f : List Byte), Completing s d f → TrailerOk f → byteOf f 0 = 0x01#8 →
    byteOf f 1 = s.txn.pendFunc ||| 0x80#8 →
    ∃ t, exec (.rxByte d) s = .next t ∧ EndsInError s f 2 0x13 (byteOf f 2).toNat t

/-- A read-holding-registers response with correct CRC and slave: a byte count other than 2N fails with
BYTE_COUNT_MISMATCH; else the N register values appear at once, high byte first, the rest zero (41_decoder.md R138). -/
def Obligations.ReadRegistersResponse : Prop :=
  ∀ (s : State) (d : Byte) (f : List Byte), Completing s d f → TrailerOk f → byteOf f 0 = 0x01#8 →
    byteOf f 1 = 0x03#8 → s.txn.pendFunc = 0x03#8 →
    ∃ t, exec (.rxByte d) s = .next t ∧
      ((byteOf f 2).toNat ≠ 2 * s.txn.pendData.toNat → EndsInError s f 2 0x14 0 t) ∧
      ((byteOf f 2).toNat = 2 * s.txn.pendData.toNat →
        EndsInSuccess s f t ∧ t.txn.resultCount = s.txn.pendData ∧
        (∀ i : Fin 125, t.txn.resultReg[i].toNat =
          if i.val < s.txn.pendData.toNat then
            256 * (byteOf f (3 + 2 * i.val)).toNat + (byteOf f (4 + 2 * i.val)).toNat else 0) ∧
        (∀ k : Fin 125, t.txn.resultCoil[k] = 0#16))

/-- A read-coils response with correct CRC and slave: a byte count other than (N + 7) / 8 fails with
BYTE_COUNT_MISMATCH; else the N coils appear at once, sixteen to a word, padding bits ignored (41_decoder.md R139). -/
def Obligations.ReadCoilsResponse : Prop :=
  ∀ (s : State) (d : Byte) (f : List Byte), Completing s d f → TrailerOk f → byteOf f 0 = 0x01#8 →
    byteOf f 1 = 0x01#8 → s.txn.pendFunc = 0x01#8 →
    ∃ t, exec (.rxByte d) s = .next t ∧
      ((byteOf f 2).toNat ≠ (s.txn.pendData.toNat + 7) / 8 → EndsInError s f 2 0x14 0 t) ∧
      ((byteOf f 2).toNat = (s.txn.pendData.toNat + 7) / 8 →
        EndsInSuccess s f t ∧ t.txn.resultCount = s.txn.pendData ∧
        (∀ (k : Fin 125) (j : Fin 16), t.txn.resultCoil[k].getLsbD j.val =
          (decide (16 * k.val + j.val < s.txn.pendData.toNat) &&
            (byteOf f (3 + (16 * k.val + j.val) / 8)).getLsbD ((16 * k.val + j.val) % 8))) ∧
        (∀ i : Fin 125, t.txn.resultReg[i] = 0#16))

/-- A write response with correct CRC and slave: bytes 2 to 5 that are not the request's fail with ECHO_MISMATCH; else
the transaction succeeds with no result (41_decoder.md R140, R141). -/
def Obligations.WriteResponseMustEcho : Prop :=
  ∀ (s : State) (d : Byte) (f : List Byte), Completing s d f → TrailerOk f → byteOf f 0 = 0x01#8 →
    byteOf f 1 = s.txn.pendFunc → (s.txn.pendFunc = 0x05#8 ∨ s.txn.pendFunc = 0x06#8) →
    ∃ t, exec (.rxByte d) s = .next t ∧
      (¬ (byteOf f 2 = s.txn.txBuf[2] ∧ byteOf f 3 = s.txn.txBuf[3] ∧ byteOf f 4 = s.txn.txBuf[4] ∧
          byteOf f 5 = s.txn.txBuf[5]) → EndsInError s f 2 0x15 0 t) ∧
      (byteOf f 2 = s.txn.txBuf[2] ∧ byteOf f 3 = s.txn.txBuf[3] ∧ byteOf f 4 = s.txn.txBuf[4] ∧
          byteOf f 5 = s.txn.txBuf[5] →
        EndsInSuccess s f t ∧ t.txn.resultCount = 0#16 ∧ (∀ i : Fin 125, t.txn.resultReg[i] = 0#16) ∧
        (∀ k : Fin 125, t.txn.resultCoil[k] = 0#16))

/-- A write response that succeeds is, byte for byte, the request that was sent (41_decoder.md R140, its corner
cases). -/
def Obligations.WriteSuccessIsAnExactEcho : Prop :=
  ∀ (s t : State) (d : Byte) (f : List Byte), Completing s d f →
    (s.txn.pendFunc = 0x05#8 ∨ s.txn.pendFunc = 0x06#8) → exec (.rxByte d) s = .next t → t.txn.state = .doneOk →
    f = s.txn.txBuf.toList

/-- RX_TIMEOUT: a transaction in flight fails with class TIMEOUT, NO_RESPONSE where no byte was accepted and TRUNCATED
otherwise, keeping everything else; in the other states there is no effect (41_decoder.md R142). -/
def Obligations.TimeoutEndsATransaction : Prop :=
  ∀ s : State, ∃ t, exec .rxTimeout s = .next t ∧
    t.toBlock =
      if s.txn.state = .tx ∨ s.txn.state = .await then
        { s.toBlock with txn := { s.txn with
          state := .doneErr, errClass := .timeout
          errCode := if s.txn.rxLen = 0#9 then .timeoutNoResponse else .timeoutTruncated } }
      else s.toBlock

/-- Error entry: an instruction that moves STATE to DONE_ERR records a code with its class, keeps what the transaction
holds for the host, and leaves the results zero (60_exceptions.md R217, R208). -/
def Obligations.ErrorEntryKeepsTheTransaction : Prop :=
  ∀ (i : Instr) (s t : State), s.toBlock.Inv → exec i s = .next t → s.txn.state ≠ .doneErr → t.txn.state = .doneErr →
    ((t.txn.errClass.code = 1#2 ∧ (t.txn.errCode.code = 0x01#8 ∨ t.txn.errCode.code = 0x02#8)) ∨
     (t.txn.errClass.code = 2#2 ∧ 0x10 ≤ t.txn.errCode.code.toNat ∧ t.txn.errCode.code.toNat ≤ 0x15)) ∧
    (t.txn.errCode.code ≠ 0x13#8 → t.txn.exCode = s.txn.exCode) ∧
    t.txn.pendFunc = s.txn.pendFunc ∧ t.txn.pendAddr = s.txn.pendAddr ∧ t.txn.pendData = s.txn.pendData ∧
    t.txn.txBuf = s.txn.txBuf ∧ t.txn.txLen = s.txn.txLen ∧ t.txn.txPtr = s.txn.txPtr ∧
    t.txn.rxExpect = s.txn.rxExpect ∧ t.txn.discard = s.txn.discard ∧ t.toBlock = { s.toBlock with txn := t.txn } ∧
    (∀ j, j < s.txn.rxLen.toNat → t.txn.rx j = s.txn.rx j) ∧ s.txn.rxLen.toNat ≤ t.txn.rxLen.toNat ∧
    t.txn.resultCount = 0#16 ∧ (∀ i : Fin 125, t.txn.resultReg[i] = 0#16) ∧ (∀ k : Fin 125, t.txn.resultCoil[k] = 0#16)

/-- Errors do not nest: from a finished transaction the error fields and the results change only by an accepted encode
command, CLEAR or RESET, which clear them (60_exceptions.md R223). -/
def Obligations.FinishedTransactionsAreStable : Prop :=
  ∀ (i : Instr) (s t : State), exec i s = .next t → (s.txn.state = .doneErr ∨ s.txn.state = .doneOk) →
    t.txn = { s.txn with discard := t.txn.discard } ∨
    ((i = .reset ∨ (i.command? = some (.clear 0x00#8) ∧ t.cmdErr = .ok) ∨
        ∃ op, i.command?.bind Instr.encodeOp = some op ∧ t.cmdErr = .ok) ∧
      t.txn.errClass = .none ∧ t.txn.errCode = .none ∧ t.txn.exCode = 0x00#8 ∧ t.txn.resultCount = 0#16)

/-- Results are atomic: an instruction that changes any of the result registers either moves STATE from AWAIT to
DONE_OK, from all zero to the full result the received frame carries, or clears them all (20_memory.md R72;
10_state.md R43 to R45). -/
def Obligations.ResultsAreAtomic : Prop :=
  ∀ (i : Instr) (s t : State), s.toBlock.Inv → exec i s = .next t →
    (t.txn.resultCount ≠ s.txn.resultCount ∨ t.txn.resultReg ≠ s.txn.resultReg ∨ t.txn.resultCoil ≠ s.txn.resultCoil) →
    (s.txn.state = .await ∧ t.txn.state = .doneOk ∧ s.txn.resultCount = 0#16 ∧
      (∀ i : Fin 125, s.txn.resultReg[i] = 0#16) ∧ (∀ k : Fin 125, s.txn.resultCoil[k] = 0#16) ∧
      t.txn.resultCount = (if t.txn.pendFunc = 0x03#8 ∨ t.txn.pendFunc = 0x01#8 then t.txn.pendData else 0#16) ∧
      (∀ i : Fin 125, t.txn.resultReg[i].toNat =
        if t.txn.pendFunc = 0x03#8 ∧ i.val < t.txn.pendData.toNat then
          256 * (t.txn.rx (3 + 2 * i.val)).toNat + (t.txn.rx (4 + 2 * i.val)).toNat else 0) ∧
      (∀ (k : Fin 125) (j : Fin 16), t.txn.resultCoil[k].getLsbD j.val =
        (decide (t.txn.pendFunc = 0x01#8 ∧ 16 * k.val + j.val < t.txn.pendData.toNat) &&
          (t.txn.rx (3 + (16 * k.val + j.val) / 8)).getLsbD ((16 * k.val + j.val) % 8)))) ∨
    (t.txn.resultCount = 0#16 ∧ (∀ i : Fin 125, t.txn.resultReg[i] = 0#16) ∧ (∀ k : Fin 125, t.txn.resultCoil[k] = 0#16))

/-! Whole responses. -/

/-- The response ADU_RSP03 with N register values, delivered byte by byte after the request for N registers was sent,
ends in DONE_OK with exactly those values (30_encoding.md R86 with 41_decoder.md R132 to R138). -/
def Obligations.ReadRegistersRoundTrip : Prop :=
  ∀ (s : State) (values : List Word), s.toBlock.Inv → s.txn.state = .await → s.txn.rxLen = 0#9 →
    s.txn.pendFunc = 0x03#8 → values.length = s.txn.pendData.toNat →
    ∃ t, receive (aduRsp03 values) s = .next t ∧ t.txn.state = .doneOk ∧ t.txn.resultCount = s.txn.pendData ∧
      (∀ i : Fin 125, t.txn.resultReg[i] = values.getD i.val 0#16) ∧
      t.txn.rxLen.toNat = 5 + 2 * values.length ∧ t.toBlock = { s.toBlock with txn := t.txn }

/-- The response ADU_RSP01 with the (N + 7) / 8 data bytes of N coils, whatever its padding bits, ends in DONE_OK with
exactly those coils (30_encoding.md R87 with 41_decoder.md R132 to R139). -/
def Obligations.ReadCoilsRoundTrip : Prop :=
  ∀ (s : State) (data : List Byte), s.toBlock.Inv → s.txn.state = .await → s.txn.rxLen = 0#9 →
    s.txn.pendFunc = 0x01#8 → data.length = (s.txn.pendData.toNat + 7) / 8 →
    ∃ t, receive (aduRsp01 data) s = .next t ∧ t.txn.state = .doneOk ∧ t.txn.resultCount = s.txn.pendData ∧
      (∀ n, n < 2000 → (t.txn.resultCoil[n / 16]?.getD 0#16).getLsbD (n % 16) =
        (decide (n < s.txn.pendData.toNat) && (data.getD (n / 8) 0#8).getLsbD (n % 8))) ∧
      t.toBlock = { s.toBlock with txn := t.txn }

/-! The invariant. -/

/-- The invariant of the block holds right after reset. -/
def Obligations.InvariantHoldsAtReset : Prop := State.reset.toBlock.Inv

/-- From every state the invariant holds of, a step gives a state it holds of. -/
def Obligations.InvariantIsKeptByEveryStep : Prop :=
  ∀ s t : State, s.toBlock.Inv → step s = .next t → t.toBlock.Inv

/-- From every state the invariant holds of, a step never faults: the receive buffer never overflows and no buffer is
read past its end (41_decoder.md R143). -/
def Obligations.NoStepFaultsFromTheInvariant : Prop :=
  ∀ s : State, s.toBlock.Inv → (∀ f, step s ≠ .fault f) ∧ s.txn.rxLen.toNat ≤ 260 ∧ s.txn.rxExpect.toNat ≤ 260

/-- Every state reachable from reset, whatever events the environment raises and when, satisfies the nine clauses of
10_state.md R49. -/
def Obligations.ReachableStatesSatisfyRule49 : Prop := ∀ s : State, Reachable s → s.toBlock.Rule49

/-! Encoding and the step. -/

/-- Decoding the event an instruction is encoded as gives the instruction back, for every well-formed instruction, and
every decoded event is well formed and encoded by itself. -/
def Obligations.DecodeEncodeRoundTrip : Prop :=
  (∀ i : Instr, i.WellFormed = true → decode (encode i) = i) ∧
  (∀ e : Event, (decode e).WellFormed = true ∧ encode (decode e) = e)

/-- The command words of spec/opcode_table.json, written out bit by bit, decode to their instructions. -/
def Obligations.CommandWordsDecode : Prop :=
  decodeTableWord 16 0b0000000000000001 = some (.encRc 0x00#8) ∧
  decodeTableWord 16 0b0000000000000011 = some (.encRhr 0x00#8) ∧
  decodeTableWord 16 0b0000000000000101 = some (.encWsc 0x00#8) ∧
  decodeTableWord 16 0b0000000000000110 = some (.encWsr 0x00#8) ∧
  decodeTableWord 16 0b0000000000010000 = some (.clear 0x00#8) ∧
  decodeTableWord 16 0b0000000000100000 = some (.crcInit 0x00#8) ∧
  decodeTableWord 16 0b0011000100100001 = some (.crcByte 0x31#8) ∧
  decodeTableWord 16 0b0000000000000010 = none

/-- A step runs the instruction the oldest pending event decodes to, on the machine with that event taken; an
instruction raises no event and takes none, so the pending events behind it stay. With none pending there is no step. -/
def Obligations.StepRunsTheDecodedEvent : Prop :=
  (∀ (s : State) (e : Event) (rest : List Event), s.inbox = e :: rest →
    step s = exec (decode e) { s with inbox := rest }) ∧
  (∀ s : State, s.inbox = [] → step s = .refused .noEvent) ∧
  (∀ (i : Instr) (s t : State), exec i s = .next t → t.inbox = s.inbox) ∧
  (∀ (s : State) (w : Word), step (s.withFetchWord 16 w.toNat) = exec (decode (.hostWrite 0x000#12 .bits16 w)) s)

/-! The environment: the duties of the link (70_reset_and_hazards.md R242; the model's form of them is log 11). -/

/-- Under duty (a) no event lacks a step: from every state of the invariant, a link that takes a request byte only when
one is offered never meets an event that is not enabled, and the machine never stops. -/
def Obligations.EveryEventHasAStep : Prop :=
  ∀ (s : State) (ev : Nat → Event), s.toBlock.Inv → TakesWhatIsOffered s ev →
    ∀ n, step ((runFrom s ev n).raise (ev n)) = .next (runFrom s ev (n + 1))

/-- Duties (a) and (b) on the two byte streams: the bytes the link took end with the bytes of TXBUF taken so far, and
what it sent is a first part of them; while a transaction is in flight the bytes it delivered end with the received
bytes of RXBUF, and they are a first part of what arrived on the line. -/
def Obligations.LinkStreamsAreTheBuffers : Prop :=
  ∀ (s : State) (ev : Nat → Event) (sent arrived : Nat → List Byte), s.toBlock.Inv → s.txn.state = .idle →
    SendsInOrder s ev sent → DeliversInOrder ev arrived →
    ∀ n, let t := runFrom s ev n
      (∃ before, takenBytes s ev n = before ++ t.txn.txBuf.toList.take t.txn.txPtr.toNat ∧
        sent n <+: before ++ t.txn.txBuf.toList.take t.txn.txPtr.toNat) ∧
      ((t.txn.state = .tx ∨ t.txn.state = .await) →
        ∃ before, deliveredBytes ev n = before ++ t.txn.rxPrefix t.txn.rxLen.toNat ∧
          before ++ t.txn.rxPrefix t.txn.rxLen.toNat <+: arrived n)

/-- Duty (c): under it every transaction in flight ends, at the first event by which the link ends it or at a RESET, and
it is in flight until then; without such an event it stays in flight for ever. -/
def Obligations.LinkDutyEndsEveryTransaction : Prop :=
  (∀ (s : State) (ev : Nat → Event), s.toBlock.Inv → EndsEveryTransaction s ev →
    ∀ n, (runFrom s ev n).busy = true →
      ∃ m, n ≤ m ∧ (∀ k, n ≤ k → k ≤ m → (runFrom s ev k).busy = true) ∧
        ((LinkEnds s ev m ∧
            ((runFrom s ev (m + 1)).txn.state = .doneOk ∨ (runFrom s ev (m + 1)).txn.state = .doneErr)) ∨
          (ev m = .reset ∧ (runFrom s ev (m + 1)).txn.state = .idle))) ∧
  (∀ (s : State) (ev : Nat → Event), s.toBlock.Inv → s.busy = true → (∀ m, ¬ LinkEnds s ev m ∧ ev m ≠ .reset) →
    ∀ n, (runFrom s ev n).busy = true)
end

