-- ==== Sys2Proof/Laws/Decode.lean ====
section
/-! SUPPORT. The fields of a command word, and what the decoder reads from a command word. -/

namespace Sys2Proof

/-- Bit `i` of a command word: of `op` below bit 8, of `imm8` from there (30_encoding.md R80). -/
theorem commandWord_getLsbD (imm op : Byte) (i : Nat) :
    (commandWord imm op).getLsbD i = if i < 8 then op.getLsbD i else imm.getLsbD (i - 8) :=
  BitVec.getLsbD_append

@[simp] theorem commandOp_commandWord (imm op : Byte) : commandOp (commandWord imm op) = op := by
  apply BitVec.eq_of_getLsbD_eq
  intro i hi
  simp [commandOp, commandWord_getLsbD, hi]

@[simp] theorem commandImm_commandWord (imm op : Byte) : commandImm (commandWord imm op) = imm := by
  apply BitVec.eq_of_getLsbD_eq
  intro i hi
  simp [commandImm, commandWord_getLsbD, hi]

/-- A command word is its two fields. -/
theorem commandWord_fields (v : Word) : commandWord (commandImm v) (commandOp v) = v := by
  apply BitVec.eq_of_getLsbD_eq
  intro i hi
  rw [commandWord_getLsbD]
  split
  · simp [commandOp, *]
  · have h1 : 8 + (i - 8) = i := by omega
    have h2 : i - 8 < 8 := by omega
    simp [commandImm, h1, h2]

/-- A decoded command word is well formed. -/
theorem decodeCommand_wellFormed {v : Word} {i : Instr} (h : decodeCommand v = .ok i) : i.WellFormed = true := by
  unfold decodeCommand at h
  repeat' split at h
  all_goals first | (cases h; done) | (cases h; rfl)

/-- The decoder rejects a word exactly when its opcode is not in the command map (30_encoding.md R91). -/
theorem decodeCommand_error_iff (v : Word) :
    (∃ e, decodeCommand v = .error e) ↔ commandOp v ∉ definedOps := by
  unfold decodeCommand
  repeat' split
  all_goals simp_all [definedOps]

end Sys2Proof
end

