-- ==== Sys2Proof/Laws/State.lean ====
section
/-! SUPPORT. One lemma per field per named update of the state, true by rfl, so that no proof unfolds a record update. -/

namespace Sys2Proof.Machine

section fail
variable (c : ErrCode) (t : Transaction)
@[simp] theorem fail_state : (t.fail c).state = .doneErr := rfl
@[simp] theorem fail_errClass : (t.fail c).errClass = c.errClass := rfl
@[simp] theorem fail_errCode : (t.fail c).errCode = c := rfl
@[simp] theorem fail_exCode : (t.fail c).exCode = t.exCode := rfl
@[simp] theorem fail_discard : (t.fail c).discard = t.discard := rfl
@[simp] theorem fail_pendFunc : (t.fail c).pendFunc = t.pendFunc := rfl
@[simp] theorem fail_pendAddr : (t.fail c).pendAddr = t.pendAddr := rfl
@[simp] theorem fail_pendData : (t.fail c).pendData = t.pendData := rfl
@[simp] theorem fail_txBuf : (t.fail c).txBuf = t.txBuf := rfl
@[simp] theorem fail_txLen : (t.fail c).txLen = t.txLen := rfl
@[simp] theorem fail_txPtr : (t.fail c).txPtr = t.txPtr := rfl
@[simp] theorem fail_rxBuf : (t.fail c).rxBuf = t.rxBuf := rfl
@[simp] theorem fail_rxLen : (t.fail c).rxLen = t.rxLen := rfl
@[simp] theorem fail_rxExpect : (t.fail c).rxExpect = t.rxExpect := rfl
@[simp] theorem fail_resultCount : (t.fail c).resultCount = t.resultCount := rfl
@[simp] theorem fail_resultReg : (t.fail c).resultReg = t.resultReg := rfl
@[simp] theorem fail_resultCoil : (t.fail c).resultCoil = t.resultCoil := rfl
@[simp] theorem fail_rx (i : Nat) : (t.fail c).rx i = t.rx i := rfl
end fail

section succeed
variable (n : Word) (r k : Vector Word 125) (t : Transaction)
@[simp] theorem succeed_state : (t.succeed n r k).state = .doneOk := rfl
@[simp] theorem succeed_errClass : (t.succeed n r k).errClass = t.errClass := rfl
@[simp] theorem succeed_errCode : (t.succeed n r k).errCode = t.errCode := rfl
@[simp] theorem succeed_exCode : (t.succeed n r k).exCode = t.exCode := rfl
@[simp] theorem succeed_discard : (t.succeed n r k).discard = t.discard := rfl
@[simp] theorem succeed_pendFunc : (t.succeed n r k).pendFunc = t.pendFunc := rfl
@[simp] theorem succeed_pendAddr : (t.succeed n r k).pendAddr = t.pendAddr := rfl
@[simp] theorem succeed_pendData : (t.succeed n r k).pendData = t.pendData := rfl
@[simp] theorem succeed_txBuf : (t.succeed n r k).txBuf = t.txBuf := rfl
@[simp] theorem succeed_txLen : (t.succeed n r k).txLen = t.txLen := rfl
@[simp] theorem succeed_txPtr : (t.succeed n r k).txPtr = t.txPtr := rfl
@[simp] theorem succeed_rxBuf : (t.succeed n r k).rxBuf = t.rxBuf := rfl
@[simp] theorem succeed_rxLen : (t.succeed n r k).rxLen = t.rxLen := rfl
@[simp] theorem succeed_rxExpect : (t.succeed n r k).rxExpect = t.rxExpect := rfl
@[simp] theorem succeed_resultCount : (t.succeed n r k).resultCount = n := rfl
@[simp] theorem succeed_resultReg : (t.succeed n r k).resultReg = r := rfl
@[simp] theorem succeed_resultCoil : (t.succeed n r k).resultCoil = k := rfl
@[simp] theorem succeed_rx (i : Nat) : (t.succeed n r k).rx i = t.rx i := rfl
end succeed

section storeByte
variable (d : Byte) (t : Transaction)
@[simp] theorem storeByte_state : (t.storeByte d).state = t.state := rfl
@[simp] theorem storeByte_errClass : (t.storeByte d).errClass = t.errClass := rfl
@[simp] theorem storeByte_errCode : (t.storeByte d).errCode = t.errCode := rfl
@[simp] theorem storeByte_exCode : (t.storeByte d).exCode = t.exCode := rfl
@[simp] theorem storeByte_discard : (t.storeByte d).discard = t.discard := rfl
@[simp] theorem storeByte_pendFunc : (t.storeByte d).pendFunc = t.pendFunc := rfl
@[simp] theorem storeByte_pendAddr : (t.storeByte d).pendAddr = t.pendAddr := rfl
@[simp] theorem storeByte_pendData : (t.storeByte d).pendData = t.pendData := rfl
@[simp] theorem storeByte_txBuf : (t.storeByte d).txBuf = t.txBuf := rfl
@[simp] theorem storeByte_txLen : (t.storeByte d).txLen = t.txLen := rfl
@[simp] theorem storeByte_txPtr : (t.storeByte d).txPtr = t.txPtr := rfl
@[simp] theorem storeByte_rxLen : (t.storeByte d).rxLen = t.rxLen + 1#9 := rfl
@[simp] theorem storeByte_rxExpect : (t.storeByte d).rxExpect = t.rxExpect := rfl
@[simp] theorem storeByte_resultCount : (t.storeByte d).resultCount = t.resultCount := rfl
@[simp] theorem storeByte_resultReg : (t.storeByte d).resultReg = t.resultReg := rfl
@[simp] theorem storeByte_resultCoil : (t.storeByte d).resultCoil = t.resultCoil := rfl
end storeByte

section takeByte
variable (t : Transaction)
@[simp] theorem takeByte_state : t.takeByte.state = if t.txPtr + 1#4 = t.txLen then .await else t.state := rfl
@[simp] theorem takeByte_errClass : t.takeByte.errClass = t.errClass := rfl
@[simp] theorem takeByte_errCode : t.takeByte.errCode = t.errCode := rfl
@[simp] theorem takeByte_exCode : t.takeByte.exCode = t.exCode := rfl
@[simp] theorem takeByte_discard : t.takeByte.discard = t.discard := rfl
@[simp] theorem takeByte_pendFunc : t.takeByte.pendFunc = t.pendFunc := rfl
@[simp] theorem takeByte_pendAddr : t.takeByte.pendAddr = t.pendAddr := rfl
@[simp] theorem takeByte_pendData : t.takeByte.pendData = t.pendData := rfl
@[simp] theorem takeByte_txBuf : t.takeByte.txBuf = t.txBuf := rfl
@[simp] theorem takeByte_txLen : t.takeByte.txLen = t.txLen := rfl
@[simp] theorem takeByte_txPtr : t.takeByte.txPtr = t.txPtr + 1#4 := rfl
@[simp] theorem takeByte_rxBuf : t.takeByte.rxBuf = t.rxBuf := rfl
@[simp] theorem takeByte_rxLen : t.takeByte.rxLen = t.rxLen := rfl
@[simp] theorem takeByte_rxExpect : t.takeByte.rxExpect = t.rxExpect := rfl
@[simp] theorem takeByte_resultCount : t.takeByte.resultCount = t.resultCount := rfl
@[simp] theorem takeByte_resultReg : t.takeByte.resultReg = t.resultReg := rfl
@[simp] theorem takeByte_resultCoil : t.takeByte.resultCoil = t.resultCoil := rfl
@[simp] theorem takeByte_rx (i : Nat) : t.takeByte.rx i = t.rx i := rfl
end takeByte

section startedTxn
variable (op : Byte) (a f : Word)
@[simp] theorem startedTxn_state : (startedTxn op a f).state = .tx := rfl
@[simp] theorem startedTxn_errClass : (startedTxn op a f).errClass = .none := rfl
@[simp] theorem startedTxn_errCode : (startedTxn op a f).errCode = .none := rfl
@[simp] theorem startedTxn_exCode : (startedTxn op a f).exCode = 0#8 := rfl
@[simp] theorem startedTxn_discard : (startedTxn op a f).discard = false := rfl
@[simp] theorem startedTxn_pendFunc : (startedTxn op a f).pendFunc = op := rfl
@[simp] theorem startedTxn_pendAddr : (startedTxn op a f).pendAddr = a := rfl
@[simp] theorem startedTxn_pendData : (startedTxn op a f).pendData = f := rfl
@[simp] theorem startedTxn_txBuf : (startedTxn op a f).txBuf = requestFrame op a f := rfl
@[simp] theorem startedTxn_txLen : (startedTxn op a f).txLen = 8#4 := rfl
@[simp] theorem startedTxn_txPtr : (startedTxn op a f).txPtr = 0#4 := rfl
@[simp] theorem startedTxn_rxBuf : (startedTxn op a f).rxBuf = Vector.replicate 260 0#8 := rfl
@[simp] theorem startedTxn_rxLen : (startedTxn op a f).rxLen = 0#9 := rfl
@[simp] theorem startedTxn_rxExpect : (startedTxn op a f).rxExpect = 0#9 := rfl
@[simp] theorem startedTxn_resultCount : (startedTxn op a f).resultCount = 0#16 := rfl
@[simp] theorem startedTxn_resultReg : (startedTxn op a f).resultReg = Vector.replicate 125 0#16 := rfl
@[simp] theorem startedTxn_resultCoil : (startedTxn op a f).resultCoil = Vector.replicate 125 0#16 := rfl
end startedTxn

section txnReset
@[simp] theorem txnReset_state : Transaction.reset.state = .idle := rfl
@[simp] theorem txnReset_errClass : Transaction.reset.errClass = .none := rfl
@[simp] theorem txnReset_errCode : Transaction.reset.errCode = .none := rfl
@[simp] theorem txnReset_exCode : Transaction.reset.exCode = 0#8 := rfl
@[simp] theorem txnReset_discard : Transaction.reset.discard = false := rfl
@[simp] theorem txnReset_pendFunc : Transaction.reset.pendFunc = 0#8 := rfl
@[simp] theorem txnReset_pendAddr : Transaction.reset.pendAddr = 0#16 := rfl
@[simp] theorem txnReset_pendData : Transaction.reset.pendData = 0#16 := rfl
@[simp] theorem txnReset_txBuf : Transaction.reset.txBuf = Vector.replicate 8 0#8 := rfl
@[simp] theorem txnReset_txLen : Transaction.reset.txLen = 0#4 := rfl
@[simp] theorem txnReset_txPtr : Transaction.reset.txPtr = 0#4 := rfl
@[simp] theorem txnReset_rxBuf : Transaction.reset.rxBuf = Vector.replicate 260 0#8 := rfl
@[simp] theorem txnReset_rxLen : Transaction.reset.rxLen = 0#9 := rfl
@[simp] theorem txnReset_rxExpect : Transaction.reset.rxExpect = 0#9 := rfl
@[simp] theorem txnReset_resultCount : Transaction.reset.resultCount = 0#16 := rfl
@[simp] theorem txnReset_resultReg : Transaction.reset.resultReg = Vector.replicate 125 0#16 := rfl
@[simp] theorem txnReset_resultCoil : Transaction.reset.resultCoil = Vector.replicate 125 0#16 := rfl
end txnReset

section clearTransaction
variable (s : State)
@[simp] theorem clearTransaction_txn : (clearTransaction s).txn = Transaction.reset := rfl
@[simp] theorem clearTransaction_reqAddr : (clearTransaction s).reqAddr = s.reqAddr := rfl
@[simp] theorem clearTransaction_reqData : (clearTransaction s).reqData = s.reqData := rfl
@[simp] theorem clearTransaction_irqEn : (clearTransaction s).irqEn = s.irqEn := rfl
@[simp] theorem clearTransaction_crcCfg : (clearTransaction s).crcCfg = s.crcCfg := rfl
@[simp] theorem clearTransaction_cmdErr : (clearTransaction s).cmdErr = s.cmdErr := rfl
@[simp] theorem clearTransaction_crcValue : (clearTransaction s).crcValue = s.crcValue := rfl
@[simp] theorem clearTransaction_response : (clearTransaction s).response = s.response := rfl
@[simp] theorem clearTransaction_inbox : (clearTransaction s).inbox = s.inbox := rfl
end clearTransaction

section writeRw
variable (r : Reg) (v : Word) (b : Block)
@[simp] theorem writeRw_txn : (writeRw r v b).txn = b.txn := by cases r <;> rfl
@[simp] theorem writeRw_cmdErr : (writeRw r v b).cmdErr = b.cmdErr := by cases r <;> rfl
@[simp] theorem writeRw_crcValue : (writeRw r v b).crcValue = b.crcValue := by cases r <;> rfl
end writeRw

end Sys2Proof.Machine
end

