-- ==== Sys2Proof/Laws/Ops.lean ====
section
/-! SUPPORT. What each shared operation can do, said once: the callers cite these lemmas and do not unfold it. -/

namespace Sys2Proof.Machine

/-! The endings of a meaning. -/

theorem refuseCommand_eq (c : CmdErr) (s : State) :
    refuseCommand c s = .next { s with cmdErr := c, response := .writeAck } := rfl

theorem performed_eq (s : State) : performed s = .next { s with cmdErr := .ok, response := .writeAck } := rfl

theorem busError_eq (off : Offset) (s : State) : busError off s = .next { s with response := .busError off } := rfl

theorem quiet_eq (s : State) : quiet s = .next { s with response := .none } := rfl

/-- A link event that ran on the transaction gives a next state exactly when the decoder gives a transaction. -/
theorem commitTxn_next {s t : State} {r : Except Fault Transaction} (h : commitTxn s r = .next t) :
    ∃ u, r = .ok u ∧ t = { s with txn := u, response := .none } := by
  cases r with
  | ok u => exact ⟨u, rfl, by cases h; rfl⟩
  | error f => cases h

/-! BUSY. -/

theorem busy_iff (b : Block) : b.busy = true ↔ b.txn.state = .tx ∨ b.txn.state = .await := by
  unfold Block.busy; cases b.txn.state <;> simp

theorem not_busy_iff (b : Block) :
    b.busy = false ↔ b.txn.state = .idle ∨ b.txn.state = .doneOk ∨ b.txn.state = .doneErr := by
  unfold Block.busy; cases b.txn.state <;> simp

theorem done_iff (b : Block) : b.done = true ↔ b.txn.state = .doneOk ∨ b.txn.state = .doneErr := by
  unfold Block.done; cases b.txn.state <;> simp

/-! The encode procedure: it always gives a next state, by one of two cases. -/

/-- An encode command either is refused and changes only `CMD_ERR`, or starts the transaction. -/
theorem encodeRequest_cases (op imm : Byte) (s : State) :
    (∃ c, c ≠ .ok ∧ encodeRequest op imm s = .next { s with cmdErr := c, response := .writeAck }) ∨
    (imm = 0#8 ∧ s.busy = false ∧ operandError op s.reqData = none ∧
      encodeRequest op imm s = .next { s with
        txn := startedTxn op s.reqAddr (dataField op s.reqData), cmdErr := .ok, response := .writeAck }) := by
  unfold encodeRequest
  split
  · exact .inl ⟨.reservedImm, by simp, rfl⟩
  rename_i hi
  split
  · exact .inl ⟨.busy, by simp, rfl⟩
  rename_i hb
  split
  · rename_i c ho
    refine .inl ⟨c, ?_, rfl⟩
    rintro rfl
    unfold operandError at ho
    split at ho
    · simp at ho
    · split at ho
      · simp at ho
      · split at ho <;> simp at ho
  · rename_i ho
    exact .inr ⟨by simpa using hi, by simpa using hb, ho, rfl⟩

/-- The request an accepted encode command builds is a legal one. -/
theorem requestLegal_of_operand {op : Byte} {n : Word}
    (hop : op = fcReadCoils ∨ op = fcReadRegs ∨ op = fcWriteCoil ∨ op = fcWriteReg)
    (h : operandError op n = none) : RequestLegal op (dataField op n) := by
  unfold operandError at h
  rcases hop with rfl | rfl | rfl | rfl
  · right; left
    simp only [fcReadCoils, fcReadRegs, dataField, fcWriteCoil] at h ⊢
    by_contra hc
    simp_all
  · left
    simp only [fcReadCoils, fcReadRegs, dataField, fcWriteCoil] at h ⊢
    by_contra hc
    simp_all
  · right; right; right
    refine ⟨rfl, ?_⟩
    unfold dataField
    split <;> [split <;> simp; simp_all]
  · right; right; left; rfl

/-! The receive buffer. -/

@[simp] theorem txnReset_rx (i : Nat) : Transaction.reset.rx i = 0#8 := by
  simp only [Transaction.rx, txnReset_rxBuf, Vector.getElem?_replicate]
  split <;> rfl

@[simp] theorem startedTxn_rx (op : Byte) (a f : Word) (i : Nat) : (startedTxn op a f).rx i = 0#8 := txnReset_rx i

/-- Storing a byte below the end of the buffer changes the byte at `RX_LEN` and no other. -/
theorem storeByte_rx (d : Byte) (t : Transaction) (i : Nat) (h : t.rxLen.toNat < 260) :
    (t.storeByte d).rx i = if i = t.rxLen.toNat then d else t.rx i := by
  simp only [Transaction.rx, Transaction.storeByte, Vector.getElem?_setIfInBounds]
  by_cases hi : t.rxLen.toNat = i
  · subst hi; simp [h]
  · simp [hi, Ne.symm hi]

/-- `RX_LEN` counts the stored byte. -/
theorem storeByte_rxLen_toNat (d : Byte) (t : Transaction) (h : t.rxLen.toNat < 260) :
    (t.storeByte d).rxLen.toNat = t.rxLen.toNat + 1 := by
  simp only [storeByte_rxLen, BitVec.toNat_add]
  rw [Nat.mod_eq_of_lt]
  · rfl
  · simp only [BitVec.toNat_ofNat]; omega

/-- The accepted bytes after one more: the accepted bytes before, then that byte. -/
theorem storeByte_rxPrefix (d : Byte) (t : Transaction) (h : t.rxLen.toNat < 260) :
    (t.storeByte d).rxPrefix (t.rxLen.toNat + 1) = t.rxPrefix t.rxLen.toNat ++ [d] := by
  apply List.ext_getElem?
  intro i
  have hl : t.rxBuf.toList.length = 260 := by simp
  simp only [Transaction.rxPrefix, Transaction.storeByte, Vector.toList_setIfInBounds]
  rcases lt_trichotomy i t.rxLen.toNat with hi | hi | hi
  · rw [List.getElem?_take_of_lt (by omega), List.getElem?_append_left (by simp; omega),
      List.getElem?_take_of_lt hi, List.getElem?_set_ne (by omega)]
  · subst hi
    rw [List.getElem?_take_of_lt (by omega), List.getElem?_set_self (by omega),
      List.getElem?_append_right (by simp)]
    have : min t.rxLen.toNat 260 = t.rxLen.toNat := by omega
    simp [this]
  · rw [List.getElem?_eq_none (by simp; omega), List.getElem?_eq_none (by simp; omega)]

end Sys2Proof.Machine
end

