-- ==== Sys2Proof/Laws/Decoder.lean ====
section
/-! SUPPORT. What framing and decoding a response can do, said once (41_decoder.md R132 to R141). -/

namespace Sys2Proof.Machine

/-- A complete frame is decoded in one of seven ways (41_decoder.md R136 to R141). -/
theorem complete_cases {t u : Transaction} (h : complete t = .ok u) :
    5 ≤ t.rxLen.toNat ∧
    ((∃ c, c ≠ .none ∧ c ≠ .deviceException ∧ c.errClass = .protocol ∧ u = t.fail c) ∨
     (u = { t with exCode := t.rx 2 }.fail .deviceException) ∨
     (t.pendFunc = fcReadRegs ∧ t.pendData.toNat ≤ 125 ∧ (t.rx 2).toNat = 2 * t.pendData.toNat ∧
        u = t.succeed t.pendData (responseRegs t t.pendData.toNat) t.resultCoil) ∨
     (t.pendFunc = fcReadCoils ∧ t.pendData.toNat ≤ 2000 ∧ (t.rx 2).toNat = (t.pendData.toNat + 7) / 8 ∧
        u = t.succeed t.pendData t.resultReg (responseCoils t t.pendData.toNat)) ∨
     ((t.pendFunc = fcWriteReg ∨ t.pendFunc = fcWriteCoil) ∧ echoMatches t = true ∧
        u = t.succeed 0#16 t.resultReg t.resultCoil)) := by
  unfold complete at h
  split at h
  · cases h
  rename_i h5
  refine ⟨by omega, ?_⟩
  split at h
  · cases h; exact .inl ⟨.crcMismatch, by simp, by simp, rfl, rfl⟩
  split at h
  · cases h; exact .inl ⟨.slaveMismatch, by simp, by simp, rfl, rfl⟩
  split at h
  · cases h; exact .inr (.inl rfl)
  split at h
  · rename_i hp
    unfold decRhr at h
    split at h
    · cases h; exact .inl ⟨.byteCountMismatch, by simp, by simp, rfl, rfl⟩
    rename_i hc
    split at h
    · cases h; exact .inr (.inr (.inl ⟨hp, by assumption, by simpa using hc, rfl⟩))
    · cases h
  split at h
  · rename_i hp
    unfold decRc at h
    split at h
    · cases h; exact .inl ⟨.byteCountMismatch, by simp, by simp, rfl, rfl⟩
    rename_i hc
    split at h
    · cases h; exact .inr (.inr (.inr (.inl ⟨hp, by assumption, by simpa using hc, rfl⟩)))
    · cases h
  split at h
  · rename_i hp
    unfold decWsr at h
    split at h
    · rename_i he; cases h; exact .inr (.inr (.inr (.inr ⟨.inl hp, he, rfl⟩)))
    · cases h; exact .inl ⟨.echoMismatch, by simp, by simp, rfl, rfl⟩
  split at h
  · rename_i hp
    unfold decWsc at h
    split at h
    · rename_i he; cases h; exact .inr (.inr (.inr (.inr ⟨.inr hp, he, rfl⟩)))
    · cases h; exact .inl ⟨.echoMismatch, by simp, by simp, rfl, rfl⟩
  · cases h

/-- The length checks of a stored byte set `RX_EXPECT` and nothing else, or fail with BAD_FUNCTION at the second byte
(41_decoder.md R133, R134). -/
theorem frameByte_cases (t : Transaction) :
    (t.rxLen = 2#9 ∧ t.rx 1 ≠ t.pendFunc ∧ t.rx 1 ≠ exceptionCode t.pendFunc ∧ frameByte t = t.fail .badFunction) ∨
    (t.rxLen = 2#9 ∧ t.rx 1 = exceptionCode t.pendFunc ∧ frameByte t = { t with rxExpect := 5#9 }) ∨
    (t.rxLen = 2#9 ∧ t.rx 1 ≠ exceptionCode t.pendFunc ∧ t.rx 1 = t.pendFunc ∧
      (t.pendFunc = fcWriteCoil ∨ t.pendFunc = fcWriteReg) ∧ frameByte t = { t with rxExpect := 8#9 }) ∨
    (t.rxLen = 2#9 ∧ t.rx 1 ≠ exceptionCode t.pendFunc ∧ t.rx 1 = t.pendFunc ∧
      ¬ (t.pendFunc = fcWriteCoil ∨ t.pendFunc = fcWriteReg) ∧ frameByte t = t) ∨
    (t.rxLen = 3#9 ∧ t.rxExpect = 0#9 ∧ frameByte t = { t with rxExpect := 5#9 + (t.rx 2).setWidth 9 }) ∨
    (t.rxLen ≠ 2#9 ∧ ¬ (t.rxLen = 3#9 ∧ t.rxExpect = 0#9) ∧ frameByte t = t) := by
  unfold frameByte
  split
  · rename_i h2
    simp only [checkFunction]
    split
    · exact .inr (.inl ⟨h2, by assumption, rfl⟩)
    split
    · rename_i h1 h; exact .inr (.inr (.inl ⟨h2, h1, h.1, h.2, rfl⟩))
    split
    · rename_i h1 hn h; exact .inr (.inr (.inr (.inl ⟨h2, h1, h, fun hw => hn ⟨h, hw⟩, rfl⟩)))
    · exact .inl ⟨h2, by assumption, by assumption, rfl⟩
  · rename_i h2
    simp only [countLength]
    split
    · rename_i h; exact .inr (.inr (.inr (.inr (.inl ⟨h.1, h.2, rfl⟩))))
    · exact .inr (.inr (.inr (.inr (.inr ⟨h2, by assumption, rfl⟩))))

/-- After the length checks the byte has failed the transaction, or the frame is complete and is decoded, or more bytes
are awaited (41_decoder.md R132, R135). -/
theorem finishByte_cases {t u : Transaction} (h : finishByte t = .ok u) :
    (t.state = .doneErr ∧ u = t) ∨
    (t.state ≠ .doneErr ∧ t.rxExpect ≠ 0#9 ∧ t.rxLen = t.rxExpect ∧ complete t = .ok u) ∨
    (t.state ≠ .doneErr ∧ ¬ (t.rxExpect ≠ 0#9 ∧ t.rxLen = t.rxExpect) ∧ u = t) := by
  unfold finishByte at h
  split at h
  · cases h; exact .inl ⟨by assumption, rfl⟩
  split at h
  · rename_i hs hc; exact .inr (.inl ⟨hs, hc.1, hc.2, h⟩)
  · cases h; exact .inr (.inr ⟨by assumption, by assumption, rfl⟩)

/-- A byte is accepted only below the end of the buffer (41_decoder.md R143). -/
theorem acceptByte_ok {d : Byte} {t u : Transaction} (h : acceptByte d t = .ok u) :
    t.rxLen.toNat < 260 ∧ finishByte (frameByte (t.storeByte d)) = .ok u := by
  unfold acceptByte at h
  split at h
  · exact ⟨by assumption, h⟩
  · cases h

/-! The decoders of the four responses, case by case. -/

theorem decRhr_of_ne {t : Transaction} (h : (t.rx 2).toNat ≠ 2 * t.pendData.toNat) :
    decRhr t = .ok (t.fail .byteCountMismatch) := by rw [decRhr, if_pos h]

theorem decRhr_of_eq {t : Transaction} (h : (t.rx 2).toNat = 2 * t.pendData.toNat) (hn : t.pendData.toNat ≤ 125) :
    decRhr t = .ok (t.succeed t.pendData (responseRegs t t.pendData.toNat) t.resultCoil) := by
  rw [decRhr, if_neg (not_not.2 h), if_pos hn]

theorem decRc_of_ne {t : Transaction} (h : (t.rx 2).toNat ≠ (t.pendData.toNat + 7) / 8) :
    decRc t = .ok (t.fail .byteCountMismatch) := by rw [decRc, if_pos h]

theorem decRc_of_eq {t : Transaction} (h : (t.rx 2).toNat = (t.pendData.toNat + 7) / 8) (hn : t.pendData.toNat ≤ 2000) :
    decRc t = .ok (t.succeed t.pendData t.resultReg (responseCoils t t.pendData.toNat)) := by
  rw [decRc, if_neg (not_not.2 h), if_pos hn]

/-- An accepted byte changes nothing of the request, of `DISCARD` or of the bytes accepted before; it is stored and
counted (41_decoder.md R132; 60_exceptions.md R217). -/
theorem acceptByte_frame {d : Byte} {t u : Transaction} (h : acceptByte d t = .ok u) :
    u.discard = t.discard ∧ u.pendFunc = t.pendFunc ∧ u.pendAddr = t.pendAddr ∧ u.pendData = t.pendData ∧
    u.txBuf = t.txBuf ∧ u.txLen = t.txLen ∧ u.txPtr = t.txPtr ∧
    u.rxBuf = (t.storeByte d).rxBuf ∧ u.rxLen = (t.storeByte d).rxLen := by
  obtain ⟨-, hf⟩ := acceptByte_ok h
  have hb : ∀ v, frameByte (t.storeByte d) = v →
      v.discard = t.discard ∧ v.pendFunc = t.pendFunc ∧ v.pendAddr = t.pendAddr ∧ v.pendData = t.pendData ∧
      v.txBuf = t.txBuf ∧ v.txLen = t.txLen ∧ v.txPtr = t.txPtr ∧
      v.rxBuf = (t.storeByte d).rxBuf ∧ v.rxLen = (t.storeByte d).rxLen := by
    rintro v rfl
    rcases frameByte_cases (t.storeByte d) with ⟨-, -, -, he⟩ | ⟨-, -, he⟩ | ⟨-, -, -, -, he⟩ | ⟨-, -, -, -, he⟩ |
      ⟨-, -, he⟩ | ⟨-, -, he⟩ <;> rw [he] <;> exact ⟨rfl, rfl, rfl, rfl, rfl, rfl, rfl, rfl, rfl⟩
  generalize frameByte (t.storeByte d) = v at hf hb
  have hb := hb v rfl
  rcases finishByte_cases hf with ⟨-, rfl⟩ | ⟨-, -, -, hc⟩ | ⟨-, -, rfl⟩
  · exact hb
  · obtain ⟨-, ⟨c, -, -, -, rfl⟩ | rfl | ⟨-, -, -, rfl⟩ | ⟨-, -, -, rfl⟩ | ⟨-, -, rfl⟩⟩ := complete_cases hc <;> exact hb
  · exact hb

end Sys2Proof.Machine
end

