-- ==== Sys2Proof/Laws/Exec.lean ====
section
/-! SUPPORT. What an instruction can do, said once for all thirteen: `exec_effect` is the inversion lemma from which the
frames and the invariants follow. -/

namespace Sys2Proof.Machine

/-- CMD is the register at offset 0x000 and at no other. -/
theorem regAt_cmd {off : Offset} (h : regAt off = some .cmd) : off = 0#12 := by
  unfold regAt at h
  split at h
  · cases h
  split at h
  · rename_i h1 h2
    have hz : off.toNat / 2 = 0 := by
      unfold namedReg at h
      split at h <;> simp_all
    apply BitVec.eq_of_toNat_eq
    simp only [BitVec.toNat_ofNat]
    omega
  repeat' split at h
  all_goals simp at h

theorem regAt_zero : regAt 0#12 = some .cmd := by decide

/-- CMD is the one write-only register. -/
theorem access_wo {r : Reg} (h : r.access = .wo) : r = .cmd := by
  cases r <;> simp_all [Reg.access]

theorem accessedReg_some {off : Offset} {w : AccessWidth} {r : Reg} (h : accessedReg off w = some r) :
    w = .bits16 ∧ regAt off = some r := by
  unfold accessedReg at h
  split at h
  · exact ⟨by assumption, h⟩
  · cases h

/-- The ways an instruction's step ends, each with the condition under which it does. -/
inductive Effect (i : Instr) (s : State) : State → Prop where
  /-- The block is unchanged: a read, a BusError, a timeout outside a transaction. -/
  | same (r : Response) : i.writesCmd = false → i.command? = none → i ≠ .reset → i ≠ .txTake → (∀ d, i ≠ .rxByte d) →
      Effect i s { s with response := r }
  /-- A write to an RW register. -/
  | rw (off : Offset) (v : Word) (r : Reg) : i = .memWrite off .bits16 v → regAt off = some r → r.access = .rw →
      off ≠ 0#12 → Effect i s { s with toBlock := writeRw r v s.toBlock, response := .writeAck }
  /-- A refused command. -/
  | refuse (c : CmdErr) : i.writesCmd = true → c ≠ .ok → Effect i s { s with cmdErr := c, response := .writeAck }
  /-- An accepted encode command. -/
  | start (op : Byte) : i.command?.bind Instr.encodeOp = some op → i.writesCmd = true → s.busy = false →
      (op = fcReadCoils ∨ op = fcReadRegs ∨ op = fcWriteCoil ∨ op = fcWriteReg) →
      operandError op s.reqData = none →
      Effect i s { s with txn := startedTxn op s.reqAddr (dataField op s.reqData), cmdErr := .ok, response := .writeAck }
  /-- An accepted CLEAR. -/
  | clear : i.command? = some (.clear 0#8) → i.writesCmd = true → s.busy = false →
      Effect i s { s with txn := Transaction.reset, cmdErr := .ok, response := .writeAck }
  /-- CRC_INIT. -/
  | crcInit : i.command? = some (.crcInit 0#8) → i.writesCmd = true →
      Effect i s { s with crcValue := (presetOf s.crcCfg).init, cmdErr := .ok, response := .writeAck }
  /-- CRC_BYTE. -/
  | crcByte (d : Byte) : i.command? = some (.crcByte d) → i.writesCmd = true →
      Effect i s { s with crcValue := (presetOf s.crcCfg).update s.crcValue d, cmdErr := .ok, response := .writeAck }
  /-- A request byte taken. -/
  | take (h : s.txn.txPtr.toNat < 8) : i = .txTake → s.txn.state = .tx →
      Effect i s { s with txn := s.txn.takeByte, response := .txByte s.txn.txBuf[s.txn.txPtr.toNat] }
  /-- A response byte discarded. -/
  | discard (d : Byte) : i = .rxByte d → s.txn.state ≠ .await →
      Effect i s { s with txn := { s.txn with discard := true }, response := .none }
  /-- A response byte accepted. -/
  | accept (d : Byte) (u : Transaction) : i = .rxByte d → s.txn.state = .await → acceptByte d s.txn = .ok u →
      Effect i s { s with txn := u, response := .none }
  /-- A timeout of a transaction in flight. -/
  | timeout : i = .rxTimeout → s.busy = true →
      Effect i s { s with txn := s.txn.fail (timeoutCode s.txn), response := .none }
  /-- RESET. -/
  | reset : i = .reset → Effect i s { s with toBlock := Block.reset, response := .none }

/-- An encode command's step, for an instruction that performs it. -/
theorem encodeRequest_effect {i : Instr} {op imm : Byte} {s t : State} (h : encodeRequest op imm s = .next t)
    (hc : i.writesCmd = true) (ho : i.command?.bind Instr.encodeOp = some op)
    (hop : op = fcReadCoils ∨ op = fcReadRegs ∨ op = fcWriteCoil ∨ op = fcWriteReg) : Effect i s t := by
  rcases encodeRequest_cases op imm s with ⟨c, hne, he⟩ | ⟨-, hb, hn, he⟩
  · rw [he] at h; cases h; exact .refuse c hc hne
  · rw [he] at h; cases h; exact .start op ho hc hb hop hn

theorem execClear_effect {i : Instr} {imm : Byte} {s t : State} (h : execClear imm s = .next t)
    (hc : i.writesCmd = true) (ho : i.command? = some (.clear imm)) : Effect i s t := by
  unfold execClear at h
  split at h
  · cases h; exact .refuse _ hc (by simp)
  split at h
  · cases h; exact .refuse _ hc (by simp)
  · rename_i hi hb
    cases h
    have : imm = 0#8 := by simpa using hi
    exact .clear (this ▸ ho) hc (by simpa using hb)

theorem execCrcInit_effect {i : Instr} {imm : Byte} {s t : State} (h : execCrcInit imm s = .next t)
    (hc : i.writesCmd = true) (ho : i.command? = some (.crcInit imm)) : Effect i s t := by
  unfold execCrcInit at h
  split at h
  · cases h; exact .refuse _ hc (by simp)
  · rename_i hi
    cases h
    have : imm = 0#8 := by simpa using hi
    exact .crcInit (this ▸ ho) hc

/-- A word written to CMD: the command it encodes, or the refusal of an undefined opcode. -/
theorem command_effect {v : Word} {s t : State} (h : command v s = .next t) :
    Effect (.memWrite 0#12 .bits16 v) s t := by
  have hc : (Instr.memWrite 0#12 .bits16 v).writesCmd = true := rfl
  have hd : (Instr.memWrite 0#12 .bits16 v).command? =
      match decodeCommand v with | .ok i => some i | .error _ => none := rfl
  unfold command at h
  unfold decodeCommand at hd
  split at h
  · rename_i h1; simp [h1] at hd
    exact encodeRequest_effect h hc (by rw [hd]; rfl) (by simp)
  split at h
  · rename_i h2; simp [h2] at hd
    exact encodeRequest_effect h hc (by rw [hd]; rfl) (by simp)
  split at h
  · rename_i h3; simp [h3] at hd
    exact encodeRequest_effect h hc (by rw [hd]; rfl) (by simp)
  split at h
  · rename_i h4; simp [h4] at hd
    exact encodeRequest_effect h hc (by rw [hd]; rfl) (by simp)
  split at h
  · rename_i h5; simp [h5] at hd
    exact execClear_effect h hc hd
  split at h
  · rename_i h6; simp [h6] at hd
    exact execCrcInit_effect h hc hd
  split at h
  · rename_i h7; simp [h7] at hd
    cases h; exact .crcByte _ hd hc
  · cases h; exact .refuse _ hc (by simp)

theorem execMemWrite_effect {off : Offset} {w : AccessWidth} {v : Word} {s t : State}
    (h : execMemWrite off w v s = .next t) : Effect (.memWrite off w v) s t := by
  have same : ∀ t, busError off s = .next t → (off ≠ 0#12 ∨ w ≠ .bits16) → Effect (.memWrite off w v) s t := by
    intro t h hn
    cases h
    refine .same _ ?_ ?_ (by simp) (by simp) (by simp)
    · simp only [Instr.writesCmd]; rcases hn with h | h <;> simp [h]
    · simp only [Instr.command?]; rcases hn with h | h <;> simp [h]
  unfold execMemWrite at h
  split at h
  · rename_i r hr
    obtain ⟨rfl, hat⟩ := accessedReg_some hr
    have hoff : r ≠ .cmd → off ≠ 0#12 := by
      rintro hne rfl
      rw [regAt_zero] at hat
      exact hne (by cases hat; rfl)
    unfold writeReg at h
    split at h
    · rename_i ha
      obtain rfl := access_wo ha
      obtain rfl := regAt_cmd hat
      exact command_effect h
    · rename_i ha
      cases h
      exact .rw off v r rfl hat ha (hoff (by rintro rfl; simp [Reg.access] at ha))
    · rename_i ha
      exact same t h (.inl (hoff (by rintro rfl; simp [Reg.access] at ha)))
  · rename_i hn
    refine same t h ?_
    by_contra hc
    simp only [not_or, ne_eq, not_not] at hc
    obtain ⟨rfl, rfl⟩ := hc
    simp [accessedReg, regAt_zero] at hn

theorem execMemRead_effect {off : Offset} {w : AccessWidth} {s t : State}
    (h : execMemRead off w s = .next t) : Effect (.memRead off w) s t := by
  unfold execMemRead at h
  split at h <;> cases h <;> exact .same _ rfl rfl (by simp) (by simp) (by simp)

/-- THE inversion lemma: an instruction that gives a next state ends in one of the effects. -/
theorem exec_effect {i : Instr} {s t : State} (h : exec i s = .next t) : Effect i s t := by
  cases i with
  | encRc imm => exact encodeRequest_effect (op := fcReadCoils) h rfl rfl (by simp)
  | encRhr imm => exact encodeRequest_effect (op := fcReadRegs) h rfl rfl (by simp)
  | encWsc imm => exact encodeRequest_effect (op := fcWriteCoil) h rfl rfl (by simp)
  | encWsr imm => exact encodeRequest_effect (op := fcWriteReg) h rfl rfl (by simp)
  | clear imm => exact execClear_effect h rfl rfl
  | crcInit imm => exact execCrcInit_effect h rfl rfl
  | crcByte d => cases h; exact .crcByte d rfl rfl
  | txTake =>
    simp only [exec, execTxTake] at h
    split at h
    · split at h
      · cases h; exact .take (by assumption) rfl (by assumption)
      · cases h
    · cases h
  | rxByte d =>
    simp only [exec, execRxByte] at h
    split at h
    · obtain ⟨u, hu, rfl⟩ := commitTxn_next h
      exact .accept d u rfl (by assumption) hu
    · cases h; exact .discard d rfl (by assumption)
  | rxTimeout =>
    simp only [exec, execRxTimeout] at h
    split at h
    · cases h; exact .timeout rfl (by assumption)
    · cases h; exact .same _ rfl rfl (by simp) (by simp) (by simp)
  | reset => cases h; exact .reset rfl
  | memRead off w => exact execMemRead_effect h
  | memWrite off w v => exact execMemWrite_effect h

end Sys2Proof.Machine
end

