-- ==== Sys2Proof/Laws/Invariant.lean ====
section
/-! SUPPORT. Each operation on group T keeps the invariant of Safety.lean. -/

namespace Sys2Proof.Machine

theorem reset_txn_inv : Transaction.reset.Inv where
  errClassOfCode := rfl
  errOnlyDoneErr := by simp
  exCodeOnlyException := by simp
  idleCleared _ := rfl
  requestBuilt := by simp
  takenBound := by simp
  offering := by simp
  allTaken := by simp
  lengthBound := by simp
  incomplete := by simp
  lengthKnown := by simp
  functionSeen := by simp
  rxUnused i _ := txnReset_rx i
  noPartialResult _ := by simp
  resultCounted := by simp
  resultRegs := by simp
  resultCoils := by simp

/-- A response byte discarded outside AWAIT. -/
theorem discard_inv {t : Transaction} (h : t.Inv) : ({ t with discard := true } : Transaction).Inv where
  errClassOfCode := h.errClassOfCode
  errOnlyDoneErr := h.errOnlyDoneErr
  exCodeOnlyException := h.exCodeOnlyException
  idleCleared hs := by
    have := h.idleCleared hs
    rw [this]
  requestBuilt := h.requestBuilt
  takenBound := h.takenBound
  offering := h.offering
  allTaken := h.allTaken
  lengthBound := h.lengthBound
  incomplete := h.incomplete
  lengthKnown := h.lengthKnown
  functionSeen := h.functionSeen
  rxUnused := h.rxUnused
  noPartialResult := h.noPartialResult
  resultCounted := h.resultCounted
  resultRegs := h.resultRegs
  resultCoils := h.resultCoils

/-- An accepted encode command. -/
theorem startedTxn_inv {op : Byte} {a f : Word} (h : RequestLegal op f) : (startedTxn op a f).Inv where
  errClassOfCode := rfl
  errOnlyDoneErr := by simp
  exCodeOnlyException := by simp
  idleCleared := by simp
  requestBuilt _ := ⟨h, rfl, rfl⟩
  takenBound := by simp
  offering _ := by simp
  allTaken := by simp
  lengthBound := by simp
  incomplete := by simp
  lengthKnown := by simp
  functionSeen := by simp
  rxUnused i _ := startedTxn_rx op a f i
  noPartialResult _ := by simp
  resultCounted := by simp
  resultRegs := by simp
  resultCoils := by simp

/-- A transaction that is in flight has no error and no result, and a legal request. -/
theorem inFlight_facts {t : Transaction} (h : t.Inv) (hs : t.state = .tx ∨ t.state = .await) :
    t.errCode = .none ∧ t.exCode = 0#8 ∧ t.resultCount = 0#16 ∧
      t.resultReg = Vector.replicate 125 0#16 ∧ t.resultCoil = Vector.replicate 125 0#16 := by
  have he : t.errCode = .none := h.errOnlyDoneErr.2 (by rcases hs with hs | hs <;> simp [hs])
  have hx : t.exCode = 0#8 := by
    by_contra hc
    have := h.exCodeOnlyException hc
    simp [he] at this
  have hr := h.noPartialResult (by rcases hs with hs | hs <;> simp [hs])
  exact ⟨he, hx, hr⟩

/-- A request byte taken. -/
theorem takeByte_inv {t : Transaction} (h : t.Inv) (hs : t.state = .tx) : t.takeByte.Inv := by
  obtain ⟨hp, hl, hx⟩ := h.offering hs
  obtain ⟨he, hex, hrc, hrr, hrk⟩ := inFlight_facts h (.inl hs)
  obtain ⟨hq, hlen, hbuf⟩ := h.requestBuilt (by simp [hs])
  have hp1 : (t.txPtr + 1#4).toNat = t.txPtr.toNat + 1 := by
    simp only [BitVec.toNat_add, BitVec.toNat_ofNat]; omega
  have hst : t.takeByte.state = .await ∧ t.txPtr + 1#4 = 8#4 ∨ t.takeByte.state = .tx ∧ t.txPtr + 1#4 ≠ 8#4 := by
    simp only [takeByte_state, hlen]
    split <;> simp [*]
  refine
  { errClassOfCode := h.errClassOfCode
    errOnlyDoneErr := ?_
    exCodeOnlyException := h.exCodeOnlyException
    idleCleared := ?_
    requestBuilt := fun _ => ⟨hq, hlen, hbuf⟩
    takenBound := by simp only [takeByte_txPtr, hp1]; omega
    offering := ?_
    allTaken := ?_
    lengthBound := h.lengthBound
    incomplete := fun _ => by simp [hx]
    lengthKnown := fun _ => by simp [hx, hl, expectedLength]
    functionSeen := fun _ => by simp [hl]
    rxUnused := h.rxUnused
    noPartialResult := fun _ => by simp [hrc, hrr, hrk]
    resultCounted := ?_
    resultRegs := ?_
    resultCoils := ?_ }
  · simp only [takeByte_errCode, he]; rcases hst with ⟨h1, -⟩ | ⟨h1, -⟩ <;> simp [-takeByte_state, h1]
  · rcases hst with ⟨h1, -⟩ | ⟨h1, -⟩ <;> simp [-takeByte_state, h1]
  · intro h2
    rcases hst with ⟨h1, -⟩ | ⟨-, h1⟩
    · simp [-takeByte_state, h1] at h2
    · refine ⟨?_, hl, hx⟩
      simp only [takeByte_txPtr, hp1]
      have : (t.txPtr + 1#4).toNat ≠ 8 := fun hc => h1 (BitVec.eq_of_toNat_eq (by simpa using hc))
      omega
  · intro h2
    rcases hst with ⟨-, h1⟩ | ⟨h1, -⟩
    · exact h1
    · simp [-takeByte_state, h1] at h2
  all_goals rcases hst with ⟨h1, -⟩ | ⟨h1, -⟩ <;> simp [-takeByte_state, h1]

/-- The entry into an error, of a transaction whose exception code fits the error. -/
theorem fail_inv {t : Transaction} {c : ErrCode} (h : t.Inv) (hs : t.state = .tx ∨ t.state = .await) (hc : c ≠ .none) :
    (t.fail c).Inv where
  errClassOfCode := rfl
  errOnlyDoneErr := by simp [hc]
  exCodeOnlyException := by simp [(inFlight_facts h hs).2.1]
  idleCleared := by simp
  requestBuilt _ := h.requestBuilt (by rcases hs with hs | hs <;> simp [hs])
  takenBound := h.takenBound
  offering := by simp
  allTaken := by simp
  lengthBound := h.lengthBound
  incomplete := by simp
  lengthKnown := by simp
  functionSeen := by simp
  rxUnused := h.rxUnused
  noPartialResult _ := (inFlight_facts h hs).2.2
  resultCounted := by simp
  resultRegs := by simp
  resultCoils := by simp

/-- What holds of a transaction that collects a response, whether or not the frame is complete: the invariant but for
its clause that the frame is incomplete. -/
structure Transaction.Collecting (t : Transaction) : Prop where
  state : t.state = .await
  errClass : t.errClass = .none
  errCode : t.errCode = .none
  exCode : t.exCode = 0#8
  request : RequestLegal t.pendFunc t.pendData ∧ t.txLen = 8#4 ∧ t.txBuf = requestFrame t.pendFunc t.pendAddr t.pendData
  txPtr : t.txPtr = 8#4
  noResult : t.resultCount = 0#16 ∧ t.resultReg = Vector.replicate 125 0#16 ∧ t.resultCoil = Vector.replicate 125 0#16
  lengthBound : (t.rxExpect = 0#9 ∧ t.rxLen.toNat ≤ 2) ∨
    (5 ≤ t.rxExpect.toNat ∧ t.rxLen.toNat ≤ t.rxExpect.toNat ∧ t.rxExpect.toNat ≤ 260)
  lengthKnown : t.rxExpect.toNat = expectedLength t
  functionSeen : 2 ≤ t.rxLen.toNat → t.rx 1 = t.pendFunc ∨ t.rx 1 = exceptionCode t.pendFunc
  rxUnused : ∀ i, t.rxLen.toNat ≤ i → t.rx i = 0#8

theorem collecting_of_inv {t : Transaction} (h : t.Inv) (hs : t.state = .await) : t.Collecting where
  state := hs
  errClass := by rw [h.errClassOfCode, (inFlight_facts h (.inr hs)).1]; rfl
  errCode := (inFlight_facts h (.inr hs)).1
  exCode := (inFlight_facts h (.inr hs)).2.1
  request := h.requestBuilt (by simp [hs])
  txPtr := h.allTaken (.inl hs)
  noResult := (inFlight_facts h (.inr hs)).2.2
  lengthBound := h.lengthBound
  lengthKnown := h.lengthKnown hs
  functionSeen := h.functionSeen hs
  rxUnused := h.rxUnused

theorem inv_of_collecting {t : Transaction} (h : t.Collecting)
    (hi : ¬ (t.rxExpect ≠ 0#9 ∧ t.rxLen = t.rxExpect)) : t.Inv where
  errClassOfCode := by simp [h.errClass, h.errCode, ErrCode.errClass]
  errOnlyDoneErr := by simp [h.errCode, h.state]
  exCodeOnlyException := by simp [h.exCode]
  idleCleared := by simp [h.state]
  requestBuilt _ := h.request
  takenBound := by simp [h.txPtr]
  offering := by simp [h.state]
  allTaken _ := h.txPtr
  lengthBound := h.lengthBound
  incomplete _ hx := by
    rcases h.lengthBound with ⟨h0, -⟩ | ⟨-, hl, -⟩
    · exact absurd h0 hx
    · have : t.rxLen.toNat ≠ t.rxExpect.toNat := fun hc => hi ⟨hx, BitVec.eq_of_toNat_eq hc⟩
      omega
  lengthKnown _ := h.lengthKnown
  functionSeen _ := h.functionSeen
  rxUnused := h.rxUnused
  noPartialResult _ := h.noResult
  resultCounted := by simp [h.state]
  resultRegs := by simp [h.state]
  resultCoils := by simp [h.state]

/-- A response being collected in AWAIT never fills the receive buffer (41_decoder.md R143). -/
theorem rxLen_lt_of_inv {t : Transaction} (h : t.Inv) (hs : t.state = .await) : t.rxLen.toNat < 260 := by
  rcases h.lengthBound with ⟨-, hl⟩ | ⟨h5, hl, hm⟩
  · omega
  · have := h.incomplete hs (by intro hc; simp [hc] at h5)
    omega

/-- From the second byte on, the length the first bytes tell (30_encoding.md R89). -/
theorem expectedLength_of_two {t : Transaction} (h : 2 ≤ t.rxLen.toNat) : expectedLength t =
    if t.rx 1 = exceptionCode t.pendFunc then 5
    else if t.pendFunc = fcWriteCoil ∨ t.pendFunc = fcWriteReg then 8
    else if t.rxLen.toNat < 3 then 0 else 5 + (t.rx 2).toNat := by
  rw [expectedLength, if_neg (by omega)]

/-- After a stored byte and its length checks, the byte failed the transaction or the response is still collected. -/
theorem frameByte_collecting {t : Transaction} (d : Byte) (h : t.Inv) (hs : t.state = .await) :
    (frameByte (t.storeByte d) = (t.storeByte d).fail .badFunction ∧ (t.storeByte d).rxLen = 2#9 ∧ t.rxExpect = 0#9) ∨
    (frameByte (t.storeByte d)).Collecting := by
  have hc := collecting_of_inv h hs
  have hlt := rxLen_lt_of_inv h hs
  have hn := storeByte_rxLen_toNat d t hlt
  have hrx := fun i => storeByte_rx d t i hlt
  have hinc := h.incomplete hs
  have hk := hc.lengthKnown
  have hunused : ∀ i, (t.storeByte d).rxLen.toNat ≤ i → (t.storeByte d).rx i = 0#8 := by
    intro i hi
    rw [hrx, if_neg (by omega)]
    exact hc.rxUnused i (by omega)
  have base : ∀ x : BitVec 9,
      ((x = 0#9 ∧ (t.storeByte d).rxLen.toNat ≤ 2) ∨
        (5 ≤ x.toNat ∧ (t.storeByte d).rxLen.toNat ≤ x.toNat ∧ x.toNat ≤ 260)) →
      x.toNat = expectedLength (t.storeByte d) →
      (2 ≤ (t.storeByte d).rxLen.toNat →
        (t.storeByte d).rx 1 = t.pendFunc ∨ (t.storeByte d).rx 1 = exceptionCode t.pendFunc) →
      ({ t.storeByte d with rxExpect := x } : Transaction).Collecting := fun x hb hk hf =>
    { state := hc.state, errClass := hc.errClass, errCode := hc.errCode, exCode := hc.exCode, request := hc.request
      txPtr := hc.txPtr, noResult := hc.noResult, lengthBound := hb, lengthKnown := hk, functionSeen := hf
      rxUnused := hunused }
  rcases frameByte_cases (t.storeByte d) with ⟨h2, -, -, he⟩ | ⟨h2, h1, he⟩ | ⟨h2, h1, hf, hw, he⟩ |
    ⟨h2, h1, hf, hw, he⟩ | ⟨h3, h0, he⟩ | ⟨h2, h3, he⟩
  · refine .inl ⟨he, h2, ?_⟩
    have h2' := congrArg BitVec.toNat h2
    simp only [BitVec.toNat_ofNat] at h2'
    apply BitVec.eq_of_toNat_eq
    rw [hk, expectedLength, if_pos (by omega)]; rfl
  · right
    have h2' := congrArg BitVec.toNat h2
    simp only [BitVec.toNat_ofNat] at h2'
    rw [he]
    refine base 5#9 (.inr ⟨by simp, by simp; omega, by simp⟩) ?_ (fun _ => .inr h1)
    rw [expectedLength, if_neg (by omega), if_pos h1]; rfl
  · right
    have h2' := congrArg BitVec.toNat h2
    simp only [BitVec.toNat_ofNat] at h2'
    rw [he]
    refine base 8#9 (.inr ⟨by simp, by simp; omega, by simp⟩) ?_ (fun _ => .inl hf)
    rw [expectedLength, if_neg (by omega), if_neg h1, if_pos hw]; rfl
  · right
    have h2' := congrArg BitVec.toNat h2
    simp only [BitVec.toNat_ofNat] at h2'
    have hk0 : t.rxExpect = 0#9 := by
      apply BitVec.eq_of_toNat_eq
      rw [hk, expectedLength, if_pos (by omega)]; rfl
    rw [he]
    refine base t.rxExpect (.inl ⟨hk0, by omega⟩) ?_ (fun _ => .inl hf)
    rw [hk0, expectedLength, if_neg (by omega), if_neg h1, if_neg hw, if_pos (by omega)]; rfl
  · right
    have h3' := congrArg BitVec.toNat h3
    simp only [BitVec.toNat_ofNat] at h3'
    have h0' : t.rxExpect.toNat = 0 := by simp at h0; simp [h0]
    have hr1 : (t.storeByte d).rx 1 = t.rx 1 := by rw [hrx, if_neg (by omega)]
    have hx : (5#9 + ((t.storeByte d).rx 2).setWidth 9).toNat = 5 + ((t.storeByte d).rx 2).toNat := by
      have := ((t.storeByte d).rx 2).isLt
      simp only [BitVec.toNat_add, BitVec.toNat_setWidth, BitVec.toNat_ofNat]
      omega
    have hlt2 := ((t.storeByte d).rx 2).isLt
    rw [he]
    refine base _ (.inr ⟨by omega, by omega, by omega⟩) ?_ (fun _ => by rw [hr1]; exact hc.functionSeen (by omega))
    rw [hx, expectedLength_of_two (by omega), hr1, storeByte_pendFunc]
    rw [h0', expectedLength, if_neg (by omega)] at hk
    split at hk
    · omega
    rename_i hne
    split at hk
    · omega
    rename_i hnw
    rw [if_neg hne, if_neg hnw, if_neg (by omega)]
  · right
    have h2' : (t.storeByte d).rxLen.toNat ≠ 2 := fun hc => h2 (BitVec.eq_of_toNat_eq hc)
    have h3' : ¬ ((t.storeByte d).rxLen.toNat = 3 ∧ t.rxExpect.toNat = 0) := fun hc =>
      h3 ⟨BitVec.eq_of_toNat_eq hc.1, BitVec.eq_of_toNat_eq hc.2⟩
    have hne : t.rxExpect.toNat ≠ 0 → t.rxLen.toNat < t.rxExpect.toNat := fun hx => hinc (by rintro hc; simp [hc] at hx)
    have hb0 : t.rxExpect = 0#9 → t.rxExpect.toNat = 0 := by rintro hx; simp [hx]
    rw [he]
    refine base t.rxExpect ?_ ?_ ?_
    · rcases hc.lengthBound with ⟨hx, hl⟩ | hx
      · exact .inl ⟨hx, by have := hb0 hx; omega⟩
      · exact .inr ⟨by omega, by omega, by omega⟩
    · rw [hk]
      rcases Nat.lt_or_ge t.rxLen.toNat 2 with hl | hl
      · rw [expectedLength, expectedLength, if_pos hl, if_pos (by omega)]
      · have hr1 : (t.storeByte d).rx 1 = t.rx 1 := by rw [hrx, if_neg (by omega)]
        have hx : t.rxExpect.toNat ≠ 0 := by
          rcases hc.lengthBound with ⟨hx, hl'⟩ | hx
          · exfalso; have := hb0 hx; omega
          · omega
        rw [hk, expectedLength_of_two hl] at hx
        rw [expectedLength_of_two hl, expectedLength_of_two (by omega), hr1, storeByte_pendFunc]
        split
        · rfl
        rename_i hne1
        rw [if_neg hne1] at hx
        split
        · rfl
        rename_i hnw
        rw [if_neg hnw] at hx
        have h3 : ¬ t.rxLen.toNat < 3 := by
          intro hc; simp [hc] at hx
        have hr2 : (t.storeByte d).rx 2 = t.rx 2 := by rw [hrx, if_neg (by omega)]
        rw [if_neg h3, if_neg (by omega), hr2]
    · intro hl
      have hr1 : (t.storeByte d).rx 1 = t.rx 1 := by rw [hrx, if_neg (by omega)]
      rw [hr1]; exact hc.functionSeen (by omega)

/-- A response that is collected fails with an error other than a device exception. -/
theorem collecting_fail_inv {t : Transaction} {c : ErrCode} (h : t.Collecting) (hc : c ≠ .none) : (t.fail c).Inv where
  errClassOfCode := rfl
  errOnlyDoneErr := by simp [hc]
  exCodeOnlyException := by simp [h.exCode]
  idleCleared := by simp
  requestBuilt _ := h.request
  takenBound := by simp [h.txPtr]
  offering := by simp
  allTaken := by simp
  lengthBound := h.lengthBound
  incomplete := by simp
  lengthKnown := by simp
  functionSeen := by simp
  rxUnused := h.rxUnused
  noPartialResult _ := h.noResult
  resultCounted := by simp
  resultRegs := by simp
  resultCoils := by simp

/-- A device exception response. -/
theorem collecting_exc_inv {t : Transaction} (h : t.Collecting) (e : Byte) :
    ({ t with exCode := e }.fail .deviceException).Inv where
  errClassOfCode := rfl
  errOnlyDoneErr := by simp
  exCodeOnlyException := by simp
  idleCleared := by simp
  requestBuilt _ := h.request
  takenBound := by simp [h.txPtr]
  offering := by simp
  allTaken := by simp
  lengthBound := h.lengthBound
  incomplete := by simp
  lengthKnown := by simp
  functionSeen := by simp
  rxUnused := h.rxUnused
  noPartialResult _ := h.noResult
  resultCounted := by simp
  resultRegs := by simp
  resultCoils := by simp

/-- A success whose result is what the request and the received bytes give. -/
theorem collecting_succeed_inv {t : Transaction} {n : Word} {r k : Vector Word 125} (h : t.Collecting)
    (hn : n = if t.pendFunc = fcReadRegs ∨ t.pendFunc = fcReadCoils then t.pendData else 0#16)
    (hr : ∀ i : Fin 125, r[i] = if t.pendFunc = fcReadRegs ∧ i.val < t.pendData.toNat then
      joinBytes (t.rx (3 + 2 * i.val)) (t.rx (4 + 2 * i.val)) else 0#16)
    (hk : ∀ (w : Fin 125) (j : Fin 16), k[w].getLsbD j.val =
      (decide (t.pendFunc = fcReadCoils ∧ 16 * w.val + j.val < t.pendData.toNat) && responseCoil t (16 * w.val + j.val))) :
    (t.succeed n r k).Inv where
  errClassOfCode := by simp [h.errClass, h.errCode, ErrCode.errClass]
  errOnlyDoneErr := by simp [h.errCode]
  exCodeOnlyException := by simp [h.exCode]
  idleCleared := by simp
  requestBuilt _ := h.request
  takenBound := by simp [h.txPtr]
  offering := by simp
  allTaken _ := h.txPtr
  lengthBound := h.lengthBound
  incomplete := by simp
  lengthKnown := by simp
  functionSeen := by simp
  rxUnused := h.rxUnused
  noPartialResult := by simp
  resultCounted _ := hn
  resultRegs _ := hr
  resultCoils _ := hk

theorem responseRegs_get (t : Transaction) (n : Nat) (i : Fin 125) : (responseRegs t n)[i] =
    if i.val < n then joinBytes (t.rx (3 + 2 * i.val)) (t.rx (4 + 2 * i.val)) else t.resultReg[i] := by
  simp [responseRegs]

theorem responseCoils_get (t : Transaction) (n : Nat) (k : Fin 125) (j : Fin 16) :
    ((responseCoils t n)[k]).getLsbD j.val =
      if 16 * k.val + j.val < n then responseCoil t (16 * k.val + j.val) else t.resultCoil[k].getLsbD j.val := by
  simp only [responseCoils, Fin.getElem_fin, Vector.getElem_ofFn, BitVec.getLsbD_ofFnLE, j.isLt, dite_true]

/-- Decoding a complete frame keeps the invariant. -/
theorem complete_inv {t u : Transaction} (h : t.Collecting) (hu : complete t = .ok u) : u.Inv := by
  obtain ⟨-, ⟨c, hc, -, -, rfl⟩ | rfl | ⟨hp, -, -, rfl⟩ | ⟨hp, -, -, rfl⟩ | ⟨hp, -, rfl⟩⟩ := complete_cases hu
  · exact collecting_fail_inv h hc
  · exact collecting_exc_inv h _
  · refine collecting_succeed_inv h (by simp [hp]) (fun i => ?_) (fun k j => ?_)
    · rw [responseRegs_get]
      simp [hp, h.noResult.2.1]
    · simp [h.noResult.2.2, hp, fcReadRegs, fcReadCoils]
  · refine collecting_succeed_inv h (by simp [hp]) (fun i => ?_) (fun k j => ?_)
    · simp [h.noResult.2.1, hp, fcReadRegs, fcReadCoils]
    · rw [responseCoils_get]
      simp only [h.noResult.2.2, hp, true_and]
      split <;> simp [*]
  · have hne : t.pendFunc ≠ fcReadRegs ∧ t.pendFunc ≠ fcReadCoils := by
      rcases hp with hp | hp <;> simp [hp, fcReadRegs, fcReadCoils, fcWriteReg, fcWriteCoil]
    refine collecting_succeed_inv h (by simp [hne]) (fun i => ?_) (fun k j => ?_)
    · simp [h.noResult.2.1, hne]
    · simp [h.noResult.2.2, hne]

/-- An accepted response byte keeps the invariant. -/
theorem acceptByte_inv {d : Byte} {t u : Transaction} (h : t.Inv) (hs : t.state = .await)
    (hu : acceptByte d t = .ok u) : u.Inv := by
  obtain ⟨hlt, hf⟩ := acceptByte_ok hu
  rcases frameByte_collecting d h hs with ⟨he, h2, h0⟩ | hc
  · rcases finishByte_cases hf with ⟨-, rfl⟩ | ⟨hn, -⟩ | ⟨hn, -⟩
    · rw [he]
      have hc := collecting_of_inv h hs
      have hn := storeByte_rxLen_toNat d t hlt
      have h2' := congrArg BitVec.toNat h2
      simp only [BitVec.toNat_ofNat] at h2'
      exact
      { errClassOfCode := rfl
        errOnlyDoneErr := by simp
        exCodeOnlyException := by simp [hc.exCode]
        idleCleared := by simp
        requestBuilt := fun _ => hc.request
        takenBound := by simp [hc.txPtr]
        offering := by simp
        allTaken := by simp
        lengthBound := .inl ⟨h0, by simp only [fail_rxLen]; omega⟩
        incomplete := by simp
        lengthKnown := by simp
        functionSeen := by simp
        rxUnused := fun i hi => by
          rw [fail_rx, storeByte_rx d t i hlt, if_neg (by simp only [fail_rxLen] at hi; omega)]
          exact hc.rxUnused i (by simp only [fail_rxLen] at hi; omega)
        noPartialResult := fun _ => hc.noResult
        resultCounted := by simp
        resultRegs := by simp
        resultCoils := by simp }
    · exact absurd (by rw [he]; rfl) hn
    · exact absurd (by rw [he]; rfl) hn
  · rcases finishByte_cases hf with ⟨hn, -⟩ | ⟨-, -, -, hu⟩ | ⟨-, hi, rfl⟩
    · simp [hc.state] at hn
    · exact complete_inv hc hu
    · exact inv_of_collecting hc hi

/-- A write to an RW register keeps the reserved bits zero (20_memory.md R69). -/
theorem writeRw_inv {b : Block} (h : b.Inv) (r : Reg) (v : Word) : (writeRw r v b).Inv where
  txn := by rw [writeRw_txn]; exact h.txn
  irqEnReserved := by
    cases r
    case irqEn => simp only [writeRw, BitVec.and_assoc]; simp
    all_goals exact h.irqEnReserved
  crcCfgReserved := by
    cases r
    case crcCfg => simp only [writeRw, BitVec.and_assoc]; simp
    all_goals exact h.crcCfgReserved

end Sys2Proof.Machine
end

