-- ==== Sys2Proof/Laws/Completing.lean ====
section
/-! SUPPORT. The byte that completes a response: what the decoder is handed, in terms of the frame's bytes (41_decoder.md
R132, R135, R136). -/

namespace Sys2Proof.Machine

/-- Byte `i` of the frame: the byte that completes it in the last place, the accepted bytes before. -/
theorem byteOf_frameWith (t : Transaction) (d : Byte) (i : Nat) (h : t.rxLen.toNat < 260) :
    byteOf (t.frameWith d) i = if i < t.rxLen.toNat then t.rx i else if i = t.rxLen.toNat then d else 0x00#8 := by
  have hl : (t.rxPrefix t.rxLen.toNat).length = t.rxLen.toNat := by
    simp only [Transaction.rxPrefix, List.length_take, Vector.length_toList]; omega
  simp only [byteOf, Transaction.frameWith, List.getD_eq_getElem?_getD]
  rcases Nat.lt_or_ge i t.rxLen.toNat with hi | hi
  · rw [if_pos hi, List.getElem?_append_left (by omega)]
    simp only [Transaction.rxPrefix, Transaction.rx]
    rw [List.getElem?_take_of_lt hi, ← Vector.getElem?_toList]
  · rw [if_neg (by omega), List.getElem?_append_right (by omega), hl]
    split
    · rename_i he; subst he; simp
    · rw [List.getElem?_eq_none (by simp; omega)]; rfl

/-- The length of the frame. -/
theorem frameWith_length (t : Transaction) (d : Byte) (h : t.rxLen.toNat < 260) :
    (t.frameWith d).length = t.rxLen.toNat + 1 := by
  simp only [Transaction.frameWith, Transaction.rxPrefix, List.length_append, List.length_take, Vector.length_toList,
    List.length_singleton]
  omega

namespace Completing
variable {s : State} {d : Byte} {f : List Byte}

theorem room (h : Completing s d f) : s.txn.rxLen.toNat < 260 := rxLen_lt_of_inv h.inv.txn h.state

/-- The frame has the expected length, which is at least 5 (41_decoder.md R136, its first line). -/
theorem length (h : Completing s d f) : f.length = s.txn.rxLen.toNat + 1 ∧ 5 ≤ f.length := by
  have hl := frameWith_length s.txn d h.room
  have h5 : 5 ≤ s.txn.rxExpect.toNat := by
    rcases h.inv.txn.lengthBound with ⟨h0, -⟩ | ⟨h5, -, -⟩
    · exact absurd h0 h.known
    · exact h5
  have := h.last
  rw [h.frame]
  omega

/-- After the byte is stored, `RX_LEN` counts the whole frame. -/
theorem rxLen (h : Completing s d f) : (s.txn.storeByte d).rxLen.toNat = f.length := by
  rw [storeByte_rxLen_toNat d _ h.room, h.length.1]

/-- After the byte is stored, the receive buffer holds the frame, and zeros behind it. -/
theorem rx (h : Completing s d f) (i : Nat) : (s.txn.storeByte d).rx i = byteOf f i := by
  rw [storeByte_rx d _ i h.room, h.frame, byteOf_frameWith _ _ _ h.room]
  rcases lt_trichotomy i s.txn.rxLen.toNat with hi | hi | hi
  · rw [if_neg (by omega), if_pos hi]
  · rw [if_pos hi, if_neg (by omega), if_pos hi]
  · rw [if_neg (by omega), if_neg (by omega), if_neg (by omega)]
    exact h.inv.txn.rxUnused i (by omega)

/-- After the byte is stored, a prefix of the receive buffer is that prefix of the frame. -/
theorem rxPrefix (h : Completing s d f) {n : Nat} (hn : n ≤ f.length) : (s.txn.storeByte d).rxPrefix n = f.take n := by
  have hp := storeByte_rxPrefix d s.txn h.room
  have hm : (s.txn.storeByte d).rxPrefix n = ((s.txn.storeByte d).rxPrefix (s.txn.rxLen.toNat + 1)).take n := by
    simp only [Transaction.rxPrefix, List.take_take]
    congr 1
    have := h.length.1
    omega
  rw [hm, hp, h.frame, Transaction.frameWith]

/-- The decoder's CRC check of the completed frame is that of the frame (41_decoder.md R136; 30_encoding.md R90). -/
theorem crcOk_iff (h : Completing s d f) :
    crc16Modbus ((s.txn.storeByte d).rxPrefix ((s.txn.storeByte d).rxLen.toNat - 2)) =
      receivedCrc (s.txn.storeByte d) (s.txn.storeByte d).rxLen.toNat ↔ TrailerOk f := by
  rw [h.rxLen, h.rxPrefix (by omega), receivedCrc, h.rx, h.rx, TrailerOk]

/-- The byte that completes the frame is stored and the frame is decoded, in one step (41_decoder.md R135). -/
theorem acceptByte_eq (h : Completing s d f) : acceptByte d s.txn = complete (s.txn.storeByte d) := by
  have hl := h.rxLen
  have h5 := h.length
  have hlast := h.last
  have h2 : (s.txn.storeByte d).rxLen ≠ 2#9 := by intro hc; rw [hc, BitVec.toNat_ofNat] at hl; omega
  have h3 : (s.txn.storeByte d).rxLen ≠ 3#9 := by intro hc; rw [hc, BitVec.toNat_ofNat] at hl; omega
  have he : (s.txn.storeByte d).rxLen = s.txn.rxExpect := BitVec.eq_of_toNat_eq (by omega)
  have hs : (s.txn.storeByte d).state ≠ .doneErr := by simp [h.state]
  rw [acceptByte, if_pos h.room, frameByte, if_neg h2, countLength, if_neg (fun hc => h3 hc.1), finishByte, if_neg hs,
    if_pos ⟨h.known, he⟩]

/-- The step of the completing byte is the decoder's outcome on the completed frame. -/
theorem exec_eq (h : Completing s d f) : exec (.rxByte d) s = commitTxn s (complete (s.txn.storeByte d)) := by
  rw [exec, execRxByte, if_pos h.state, h.acceptByte_eq]

/-- The completed response is one being collected, with its whole length received. -/
theorem collecting (h : Completing s d f) : (s.txn.storeByte d).Collecting := by
  have hl := h.rxLen
  have h5 := h.length
  have h2 : (s.txn.storeByte d).rxLen ≠ 2#9 := by intro hc; rw [hc, BitVec.toNat_ofNat] at hl; omega
  have h3 : (s.txn.storeByte d).rxLen ≠ 3#9 := by intro hc; rw [hc, BitVec.toNat_ofNat] at hl; omega
  rcases frameByte_collecting d h.inv.txn h.state with ⟨-, hc, -⟩ | hc
  · exact absurd hc h2
  · rwa [frameByte, if_neg h2, countLength, if_neg (fun hc => h3 hc.1)] at hc

/-- The frame's second byte is the request's function code or its exception form (41_decoder.md R133). -/
theorem functionSeen (h : Completing s d f) : byteOf f 1 = s.txn.pendFunc ∨ byteOf f 1 = exceptionCode s.txn.pendFunc := by
  have := h.collecting.functionSeen (by rw [h.rxLen]; have := h.length.2; omega)
  rwa [h.rx, storeByte_pendFunc] at this

/-- The frame's length is the one its first three bytes tell (30_encoding.md R89). -/
theorem lengthTold (h : Completing s d f) : f.length =
    if byteOf f 1 = exceptionCode s.txn.pendFunc then 5
    else if s.txn.pendFunc = fcWriteCoil ∨ s.txn.pendFunc = fcWriteReg then 8 else 5 + (byteOf f 2).toNat := by
  have hk := h.collecting.lengthKnown
  have h5 := h.length
  have hl := h.rxLen
  have hlast := h.last
  rw [expectedLength_of_two (by omega), h.rx, h.rx, storeByte_pendFunc, storeByte_rxExpect, hl,
    if_neg (c := f.length < 3) (by omega)] at hk
  rw [← hk]; omega

/-- The checks of the completed frame, in their order, on the frame's bytes (41_decoder.md R136). -/
theorem complete_eq (h : Completing s d f) : complete (s.txn.storeByte d) =
    if crc16Modbus (f.take (f.length - 2)) ≠ joinBytes (byteOf f (f.length - 1)) (byteOf f (f.length - 2)) then
      .ok ((s.txn.storeByte d).fail .crcMismatch)
    else if byteOf f 0 ≠ Config.slaveId then .ok ((s.txn.storeByte d).fail .slaveMismatch)
    else if byteOf f 1 = exceptionCode s.txn.pendFunc then .ok (decExc (s.txn.storeByte d))
    else if s.txn.pendFunc = fcReadRegs then decRhr (s.txn.storeByte d)
    else if s.txn.pendFunc = fcReadCoils then decRc (s.txn.storeByte d)
    else if s.txn.pendFunc = fcWriteReg then .ok (decWsr (s.txn.storeByte d))
    else if s.txn.pendFunc = fcWriteCoil then .ok (decWsc (s.txn.storeByte d))
    else .error .noPendingFunction := by
  have h5 := h.length.2
  rw [complete, if_neg (by rw [h.rxLen]; omega), receivedCrc, h.rxLen, h.rxPrefix (by omega), h.rx, h.rx, h.rx, h.rx]
  rfl

/-- The echo check of the completed frame (41_decoder.md R140). -/
theorem echo_iff (h : Completing s d f) : echoMatches (s.txn.storeByte d) = true ↔
    byteOf f 2 = s.txn.txBuf[2] ∧ byteOf f 3 = s.txn.txBuf[3] ∧ byteOf f 4 = s.txn.txBuf[4] ∧
      byteOf f 5 = s.txn.txBuf[5] := by
  simp only [echoMatches, h.rx, storeByte_txBuf, Bool.and_eq_true, beq_iff_eq, and_assoc]

end Completing

/-- No function code the block sends is an exception form (30_encoding.md R85). -/
theorem ne_exceptionCode {fc : Byte} {n : Word} (h : RequestLegal fc n) : fc ≠ exceptionCode fc := by
  rcases h with ⟨rfl, -⟩ | ⟨rfl, -⟩ | rfl | ⟨rfl, -⟩ <;> decide

/-- An error of the completed frame leaves the error recorded, the frame in the buffer and the rest kept (60_exceptions.md
R217). -/
theorem endsInError_of_fail {s : State} {d : Byte} {f : List Byte} (h : Completing s d f) (c : ErrCode) :
    EndsInError s f c.errClass.code.toNat c.code.toNat 0 { s with txn := (s.txn.storeByte d).fail c, response := .none } := by
  have hc := h.collecting
  refine ⟨rfl, rfl, rfl, ?_, h.rxLen, fun i _ => h.rx i, hc.noResult.1, ?_, ?_, rfl, rfl, rfl, rfl, rfl, rfl, rfl, rfl, rfl⟩
  · simp only [fail_exCode, hc.exCode]; rfl
  · intro i; simp only [fail_resultReg, hc.noResult.2.1]; simp
  · intro i; simp only [fail_resultCoil, hc.noResult.2.2]; simp

/-- A success of the completed frame. -/
theorem endsInSuccess_of_succeed {s : State} {d : Byte} {f : List Byte} (h : Completing s d f) (n : Word)
    (r k : Vector Word 125) :
    EndsInSuccess s f { s with txn := (s.txn.storeByte d).succeed n r k, response := .none } := by
  have hc := h.collecting
  refine ⟨rfl, ?_, ?_, ?_, h.rxLen, fun i _ => h.rx i, rfl, rfl, rfl, rfl, rfl, rfl, rfl, rfl, rfl⟩
  · simp only [succeed_errClass, hc.errClass]; rfl
  · simp only [succeed_errCode, hc.errCode]; rfl
  · simp only [succeed_exCode, hc.exCode]

end Sys2Proof.Machine
end

