-- ==== Sys2Proof/Laws/Crc.lean ====
section
/-! SUPPORT. The bit steps of the CRC updates: what they do to an exclusive or, to zero, and to a word whose outgoing
byte is zero (42_crc.md R173, R174). -/

namespace Sys2Proof.Machine

/-! The bytes of a word. -/

/-- Bit `i` of two bytes joined: of the low byte below bit 8, of the high byte from there (00_scope.md R9). -/
theorem joinBytes_getLsbD (hi lo : Byte) (i : Nat) :
    (joinBytes hi lo).getLsbD i = if i < 8 then lo.getLsbD i else hi.getLsbD (i - 8) :=
  BitVec.getLsbD_append

@[simp] theorem hiByte_joinBytes (hi lo : Byte) : hiByte (joinBytes hi lo) = hi := by
  apply BitVec.eq_of_getLsbD_eq
  intro i h
  simp [hiByte, joinBytes_getLsbD, h]

@[simp] theorem loByte_joinBytes (hi lo : Byte) : loByte (joinBytes hi lo) = lo := by
  apply BitVec.eq_of_getLsbD_eq
  intro i h
  simp [loByte, joinBytes_getLsbD, h]

@[simp] theorem joinBytes_bytes (v : Word) : joinBytes (hiByte v) (loByte v) = v := by
  apply BitVec.eq_of_getLsbD_eq
  intro i h
  rw [joinBytes_getLsbD]
  split
  · simp [loByte, *]
  · have h1 : 8 + (i - 8) = i := by omega
    have h2 : i - 8 < 8 := by omega
    simp [hiByte, h1, h2]

/-- Two bytes joined, as a number. -/
theorem joinBytes_toNat (hi lo : Byte) : (joinBytes hi lo).toNat = 256 * hi.toNat + lo.toNat := by
  have h : (joinBytes hi lo).toNat = hi.toNat <<< 8 ||| lo.toNat := BitVec.toNat_append hi lo
  rw [h, ← Nat.shiftLeft_add_eq_or_of_lt lo.isLt, Nat.shiftLeft_eq]
  omega

/-! One bit of an update. -/

/-- The reflected bit step is linear. -/
theorem stepR_xor (p a b : Word) : stepR p (a ^^^ b) = stepR p a ^^^ stepR p b := by
  unfold stepR
  rw [BitVec.getLsbD_xor, BitVec.ushiftRight_xor_distrib]
  cases a.getLsbD 0 <;> cases b.getLsbD 0 <;> simp <;> (ac_nf; try simp)

/-- The non-reflected bit step is linear. -/
theorem stepN_xor (a b : Word) : stepN (a ^^^ b) = stepN a ^^^ stepN b := by
  unfold stepN
  rw [BitVec.getLsbD_xor, BitVec.shiftLeft_xor_distrib]
  cases a.getLsbD 15 <;> cases b.getLsbD 15 <;> simp <;> (ac_nf; try simp)

/-- Eight bit steps of a linear step are linear. -/
theorem iterate_xor {f : Word → Word} (h : ∀ a b, f (a ^^^ b) = f a ^^^ f b) (n : Nat) (a b : Word) :
    f^[n] (a ^^^ b) = f^[n] a ^^^ f^[n] b := by
  induction n generalizing a b with
  | zero => rfl
  | succ n ih => simp only [Function.iterate_succ, Function.comp_apply, h, ih]

@[simp] theorem stepR_zero (p : Word) : stepR p 0#16 = 0#16 := by simp [stepR]
@[simp] theorem stepN_zero : stepN 0#16 = 0#16 := by simp [stepN]

/-- No nonzero word steps to zero, for a polynomial with its top bit set. -/
theorem stepR_eq_zero {p c : Word} (hp : p.getLsbD 15 = true) (h : stepR p c = 0#16) : c = 0#16 := by
  unfold stepR at h
  split at h
  · have := congrArg (·.getLsbD 15) h
    rw [BitVec.getLsbD_xor, hp] at this
    simp at this
  · rename_i h0
    apply BitVec.eq_of_getLsbD_eq
    intro i hi
    rcases i with _ | i
    · simpa using h0
    · have := congrArg (·.getLsbD i) h
      simpa [Nat.add_comm] using this

/-- Eight bit steps of a word whose low byte is zero: its high byte, in the low place. -/
theorem iterate_stepR_of_loByte (p c : Word) (h : ∀ i, i < 8 → c.getLsbD i = false) : (stepR p)^[8] c = c >>> 8 := by
  have step : ∀ k, k < 8 → stepR p (c >>> k) = c >>> (k + 1) := by
    intro k hk
    rw [stepR, if_neg (by simp [h k hk]), BitVec.shiftRight_add]
  have all : ∀ n, n ≤ 8 → (stepR p)^[n] c = c >>> n := by
    intro n hn
    induction n with
    | zero => simp
    | succ n ih => rw [Function.iterate_succ_apply', ih (by omega), step n (by omega)]
  exact all 8 (by omega)

/-- Eight bit steps of a word whose high byte is zero: its low byte, in the high place. -/
theorem iterate_stepN_of_hiByte (c : Word) (h : ∀ i, 8 ≤ i → c.getLsbD i = false) : stepN^[8] c = c <<< 8 := by
  have step : ∀ k, k < 8 → stepN (c <<< k) = c <<< (k + 1) := by
    intro k hk
    have h0 : (c <<< k).getLsbD 15 = false := by rw [BitVec.getLsbD_shiftLeft, h (15 - k) (by omega)]; simp
    rw [stepN, if_neg (by simp [-BitVec.getLsbD_eq_getElem, h0]), BitVec.shiftLeft_add]
  have all : ∀ n, n ≤ 8 → stepN^[n] c = c <<< n := by
    intro n hn
    induction n with
    | zero => simp
    | succ n ih => rw [Function.iterate_succ_apply', ih (by omega), step n (by omega)]
  exact all 8 (by omega)

/-! One byte. -/

theorem loByte_getLsbD (c : Word) (i : Nat) : (loByte c).getLsbD i = (decide (i < 8) && c.getLsbD i) := by
  simp [loByte]

theorem hiByte_getLsbD (c : Word) (i : Nat) : (hiByte c).getLsbD i = (decide (i < 8) && c.getLsbD (8 + i)) := by
  simp [hiByte]

/-- The reflected update by the register's own low byte leaves its high byte. -/
theorem updateR_loByte (p c : Word) : updateR c (loByte c) p = (hiByte c).setWidth 16 := by
  unfold updateR
  rw [iterate_stepR_of_loByte]
  · apply BitVec.eq_of_getLsbD_eq
    intro i hi
    simp only [BitVec.getLsbD_ushiftRight, BitVec.getLsbD_xor, BitVec.getLsbD_setWidth, loByte_getLsbD, hiByte_getLsbD]
    simp [hi]
    by_cases h8 : i < 8 <;> simp [h8]
    exact BitVec.getLsbD_of_ge _ _ (by omega)
  · intro i hi
    simp only [BitVec.getLsbD_xor, BitVec.getLsbD_setWidth, loByte_getLsbD]
    simp [hi, show i < 16 by omega]

/-- The non-reflected update by the register's own high byte leaves its low byte, in the high place. -/
theorem updateN_hiByte (c : Word) : updateN c (hiByte c) = (loByte c).setWidth 16 <<< 8 := by
  unfold updateN
  rw [iterate_stepN_of_hiByte]
  · apply BitVec.eq_of_getLsbD_eq
    intro i hi
    simp only [BitVec.getLsbD_shiftLeft, BitVec.getLsbD_xor, BitVec.getLsbD_setWidth, loByte_getLsbD, hiByte_getLsbD]
    simp [hi]
    by_cases h8 : i < 8 <;> simp [h8]
    simp [show i - 8 < 8 by omega, show i - 8 < 16 by omega]
  · intro i hi
    simp only [BitVec.getLsbD_shiftLeft, BitVec.getLsbD_xor, BitVec.getLsbD_setWidth, hiByte_getLsbD]
    simp [show ¬ i < 8 by omega, show 8 + (i - 8) = i by omega]
    by_cases h : i < 16
    · simp [h, show i - 8 < 8 by omega, show i - 8 < 16 by omega]
    · simp [h]; exact BitVec.getLsbD_of_ge _ _ (by omega)

/-- The reflected update of a byte by itself gives zero. -/
theorem updateR_self (p : Word) (d : Byte) : updateR (d.setWidth 16) d p = 0#16 := by
  unfold updateR
  rw [BitVec.xor_self, iterate_stepR_of_loByte _ _ (by simp)]
  rfl

/-- The non-reflected update of a byte in the high place by itself gives zero. -/
theorem updateN_self (d : Byte) : updateN (d.setWidth 16 <<< 8) d = 0#16 := by
  unfold updateN
  rw [BitVec.xor_self, iterate_stepN_of_hiByte _ (by simp)]
  rfl

/-- The reflected update gives zero of a byte by itself only, for a polynomial with its top bit set. -/
theorem updateR_eq_zero {p c : Word} {d : Byte} (hp : p.getLsbD 15 = true) (h : updateR c d p = 0#16) :
    c = d.setWidth 16 := by
  have all : ∀ n x, (stepR p)^[n] x = 0#16 → x = 0#16 := by
    intro n
    induction n with
    | zero => exact fun _ h => h
    | succ n ih =>
      intro x hx
      rw [Function.iterate_succ_apply] at hx
      exact stepR_eq_zero hp (ih _ hx)
  exact BitVec.xor_eq_zero_iff.1 (all _ _ h)

/-! Byte sequences. -/

/-- The framer CRC of a sequence with more bytes behind it (42_crc.md R171). -/
theorem crc16Modbus_append (m n : List Byte) :
    crc16Modbus (m ++ n) = n.foldl (fun c d => updateR c d 0xA001#16) (crc16Modbus m) := by
  simp [crc16Modbus, List.foldl_append]

/-- The generator's CRC of a sequence with more bytes behind it (42_crc.md R177). -/
theorem presetCrc_append (p : Preset) (m n : List Byte) : p.crc (m ++ n) = n.foldl p.update (p.crc m) := by
  simp [Preset.crc, List.foldl_append]

/-- The framer CRC is the MODBUS preset's (42_crc.md R171, R172). -/
theorem crc16Modbus_eq_preset (m : List Byte) : crc16Modbus m = Preset.modbus.crc m := rfl

/-! Trailers. -/

theorem byteOf_append_left {a b : List Byte} {i : Nat} (h : i < a.length) : byteOf (a ++ b) i = byteOf a i := by
  simp only [byteOf, List.getD_eq_getElem?_getD, List.getElem?_append_left h]

theorem byteOf_append_right {a b : List Byte} (i : Nat) : byteOf (a ++ b) (a.length + i) = byteOf b i := by
  simp only [byteOf, List.getD_eq_getElem?_getD, List.getElem?_append_right (Nat.le_add_right _ _), Nat.add_sub_cancel_left]

/-- A frame of some bytes and two more has a correct trailer exactly when the two are their CRC, low byte first
(30_encoding.md R90). -/
theorem trailerOk_append (m : List Byte) (lo hi : Byte) :
    TrailerOk (m ++ [lo, hi]) ↔ crc16Modbus m = joinBytes hi lo := by
  have h1 : (m ++ [lo, hi]).length = m.length + 2 := by simp
  have h2 : byteOf (m ++ [lo, hi]) (m.length + 1) = hi := byteOf_append_right 1
  have h3 : byteOf (m ++ [lo, hi]) (m.length + 0) = lo := byteOf_append_right 0
  rw [TrailerOk, h1, Nat.add_sub_cancel, List.take_left' rfl, show m.length + 2 - 1 = m.length + 1 by omega, h2]
  rw [Nat.add_zero] at h3
  rw [h3]

/-- A frame built with its trailer passes the check (30_encoding.md R90). -/
theorem trailerOk_withTrailer (m : List Byte) : TrailerOk (withTrailer m) := by
  rw [withTrailer]
  exact (trailerOk_append _ _ _).2 (by rw [joinBytes_bytes])

end Sys2Proof.Machine
end

