-- ==== Sys2Proof/Laws/Environment.lean ====
section
/-! SUPPORT. What one event of a run can do, and the runs and byte streams one event further. -/

namespace Sys2Proof.Machine

@[simp] theorem raise_toBlock (e : Event) (s : State) : (s.raise e).toBlock = s.toBlock := rfl
@[simp] theorem raise_inbox (e : Event) (s : State) : (s.raise e).inbox = e :: s.inbox := rfl
@[simp] theorem raise_response (e : Event) (s : State) : (s.raise e).response = s.response := rfl

/-- The step after an event was raised is the instruction it decodes to, on the machine before. -/
theorem step_raise (e : Event) (s : State) : step (s.raise e) = exec (decode e) s := rfl

/-- An attempted event either runs its instruction or leaves the machine as it is. -/
theorem attempt_cases (e : Event) (s : State) :
    exec (decode e) s = .next (attempt e s) ∨ ((∀ t, exec (decode e) s ≠ .next t) ∧ attempt e s = s) := by
  unfold attempt
  rw [step_raise]
  cases exec (decode e) s with
  | next t => exact .inl rfl
  | fault f => exact .inr ⟨by simp, rfl⟩
  | refused r => exact .inr ⟨by simp, rfl⟩

theorem attempt_of_next {e : Event} {s t : State} (h : exec (decode e) s = .next t) : attempt e s = t := by
  unfold attempt; rw [step_raise, h]

theorem handedOver_of_next {e : Event} {s t : State} (h : exec (decode e) s = .next t) :
    handedOver e s = t.response.requestByte := by
  unfold handedOver; rw [step_raise, h]

theorem handedOver_of_no_step {e : Event} {s : State} (h : ∀ t, exec (decode e) s ≠ .next t) : handedOver e s = [] := by
  unfold handedOver; rw [step_raise]
  cases hx : exec (decode e) s with
  | next t => exact absurd hx (h t)
  | fault f => rfl
  | refused r => rfl

/-- An event that decodes to no write is the event the instruction is encoded as. -/
theorem event_of_decode {e : Event} {i : Instr} (h : decode e = i) (hc : i.writesCmd = false)
    (hw : ∀ off w v, i ≠ .memWrite off w v) : e = encode i := by
  cases e with
  | hostWrite off w v =>
    exfalso
    simp only [decode, decodeHostWrite] at h
    split at h
    · split at h
      · rename_i j hj
        subst h
        unfold decodeCommand at hj
        repeat' split at hj
        all_goals cases hj <;> simp [Instr.writesCmd] at hc
      · exact hw _ _ _ h.symm
    · exact hw _ _ _ h.symm
  | _ => subst h; rfl

/-- TX_TAKE alone hands out a request byte (41_decoder.md R131). -/
theorem requestByte_of_exec {i : Instr} {s t : State} (h : exec i s = .next t) (hi : i ≠ .txTake) :
    t.response.requestByte = [] := by
  cases i with
  | txTake => exact absurd rfl hi
  | rxByte d =>
    simp only [exec, execRxByte] at h
    split at h
    · obtain ⟨u, -, rfl⟩ := commitTxn_next h; rfl
    · cases h; rfl
  | rxTimeout => simp only [exec, execRxTimeout] at h; split at h <;> cases h <;> rfl
  | reset => cases h; rfl
  | memRead off w => simp only [exec, execMemRead] at h; split at h <;> cases h <;> rfl
  | memWrite off w v =>
    simp only [exec, execMemWrite] at h
    split at h
    · unfold writeReg at h
      split at h
      · cases command_effect h with
        | same _ hc => simp [Instr.writesCmd] at hc
        | take _ he => cases he
        | _ => rfl
      · cases h; rfl
      · cases h; rfl
    · cases h; rfl
  | encRc | encRhr | encWsc | encWsr | clear | crcInit | crcByte =>
    cases exec_effect h with
    | same _ hc => simp [Instr.writesCmd] at hc
    | take _ he => cases he
    | _ => rfl

@[simp] theorem runFrom_zero (s : State) (ev : Nat → Event) : runFrom s ev 0 = s := rfl
@[simp] theorem runFrom_succ (s : State) (ev : Nat → Event) (n : Nat) :
    runFrom s ev (n + 1) = attempt (ev n) (runFrom s ev n) := rfl
@[simp] theorem takenBytes_zero (s : State) (ev : Nat → Event) : takenBytes s ev 0 = [] := rfl
@[simp] theorem takenBytes_succ (s : State) (ev : Nat → Event) (n : Nat) :
    takenBytes s ev (n + 1) = takenBytes s ev n ++ handedOver (ev n) (runFrom s ev n) := rfl
@[simp] theorem deliveredBytes_zero (ev : Nat → Event) : deliveredBytes ev 0 = [] := rfl
@[simp] theorem deliveredBytes_succ (ev : Nat → Event) (n : Nat) :
    deliveredBytes ev (n + 1) = deliveredBytes ev n ++ deliveredByte (ev n) := rfl

end Sys2Proof.Machine
end

