-- ==== Sys2Proof/Laws/Operands.lean ====
section
/-! SUPPORT. The register map: every register is found at its offset, and nowhere else (20_memory.md R61). -/

namespace Sys2Proof.Machine

/-- A register is found at its own offset. -/
theorem regAt_offset (r : Reg) : regAt r.offset = some r := by
  cases r
  case txBuf i => revert i; decide +kernel
  case rxBuf i => revert i; decide +kernel
  case resultReg i => revert i; decide +kernel
  case resultCoil k => revert k; decide +kernel
  all_goals decide

/-- Only the 19 named registers stand below 0x100. -/
theorem namedReg_offset {n : Nat} {r : Reg} (h : namedReg n = some r) : n < 19 ∧ r.offset.toNat = 2 * n := by
  by_cases hn : n < 19
  · refine ⟨hn, ?_⟩
    interval_cases n <;> cases h <;> rfl
  · obtain ⟨m, rfl⟩ := Nat.exists_eq_add_of_le' (Nat.le_of_not_lt hn)
    simp [namedReg] at h

/-- A register found at an offset has that offset. -/
theorem offset_of_regAt {off : Offset} {r : Reg} (h : regAt off = some r) : r.offset = off := by
  have := off.isLt
  apply BitVec.eq_of_toNat_eq
  unfold regAt at h
  split at h
  · cases h
  split at h
  · have := (namedReg_offset h).2
    omega
  repeat' split at h
  all_goals first
    | (cases h; done)
    | (cases h; simp only [Reg.offset, BitVec.toNat_ofNat]; omega)

/-- Every register but CMD has a value to read (20_memory.md R61). -/
theorem value16_eq_none {b : Block} {r : Reg} : r.value16 b = none ↔ r = .cmd := by
  cases r <;> simp [Reg.value16]

theorem mask_bit0 (v : Word) : v &&& 0x0001#16 = (v.extractLsb' 0 1).setWidth 16 := by
  apply BitVec.eq_of_getLsbD_eq
  intro i hi
  interval_cases i <;> simp

theorem mask_bits1_0 (v : Word) : v &&& 0x0003#16 = (v.extractLsb' 0 2).setWidth 16 := by
  apply BitVec.eq_of_getLsbD_eq
  intro i hi
  interval_cases i <;> simp

end Sys2Proof.Machine
end

