-- ==== Sys2Proof/Laws/PerInstr.lean ====
section
/-! SUPPORT. The per-instruction family CmdWrite: which instructions are, on the host port, a 16-bit write to CMD
(30_encoding.md R80). -/

namespace Sys2Proof.Laws.CmdWrite
open Sys2Proof

/-- An instruction is encoded as a 16-bit write to CMD exactly when `writesCmd` says so. -/
def Statement (i : Instr) : Prop := (∃ v, encode i = .hostWrite 0x000#12 .bits16 v) ↔ i.writesCmd = true

theorem encRc (imm8 : Byte) : Statement (.encRc imm8) := ⟨fun _ => rfl, fun _ => ⟨_, rfl⟩⟩
theorem encRhr (imm8 : Byte) : Statement (.encRhr imm8) := ⟨fun _ => rfl, fun _ => ⟨_, rfl⟩⟩
theorem encWsc (imm8 : Byte) : Statement (.encWsc imm8) := ⟨fun _ => rfl, fun _ => ⟨_, rfl⟩⟩
theorem encWsr (imm8 : Byte) : Statement (.encWsr imm8) := ⟨fun _ => rfl, fun _ => ⟨_, rfl⟩⟩
theorem clear (imm8 : Byte) : Statement (.clear imm8) := ⟨fun _ => rfl, fun _ => ⟨_, rfl⟩⟩
theorem crcInit (imm8 : Byte) : Statement (.crcInit imm8) := ⟨fun _ => rfl, fun _ => ⟨_, rfl⟩⟩
theorem crcByte (d : Byte) : Statement (.crcByte d) := ⟨fun _ => rfl, fun _ => ⟨_, rfl⟩⟩
theorem txTake : Statement .txTake := by simp [Statement, encode, Instr.writesCmd]
theorem rxByte (d : Byte) : Statement (.rxByte d) := by simp [Statement, encode, Instr.writesCmd]
theorem rxTimeout : Statement .rxTimeout := by simp [Statement, encode, Instr.writesCmd]
theorem reset : Statement .reset := by simp [Statement, encode, Instr.writesCmd]
theorem memRead (off : Offset) (width : AccessWidth) : Statement (.memRead off width) := by
  simp [Statement, encode, Instr.writesCmd]
theorem memWrite (off : Offset) (width : AccessWidth) (v : Word) : Statement (.memWrite off width v) := by
  simp [Statement, encode, Instr.writesCmd]

end Sys2Proof.Laws.CmdWrite
end

