-- ==== Sys2Proof/Laws/Receive.lean ====
section
/-! SUPPORT. The bytes of a response before the last one, position by position, and that no byte stops the machine
(41_decoder.md R132 to R134, R143). -/

namespace Sys2Proof.Machine

section single
variable {d : Byte} {t : Transaction}

/-- The first byte is stored and more are awaited. -/
theorem acceptByte_first (hs : t.state = .await) (hl : t.rxLen = 0#9) (hx : t.rxExpect = 0#9) :
    acceptByte d t = .ok (t.storeByte d) := by
  have h1 : (t.storeByte d).rxLen = 1#9 := by simp [hl]
  have hn : (t.storeByte d).state ≠ .doneErr := by simp [hs]
  rw [acceptByte, if_pos (by simp [hl]), frameByte, if_neg (by simp [hl]), countLength, if_neg (by simp [hl]), finishByte,
    if_neg hn, if_neg (by simp [hx])]

/-- The second byte is the function code of a read request: more bytes are awaited (41_decoder.md R133). -/
theorem acceptByte_readFunction (hs : t.state = .await) (hl : t.rxLen = 1#9) (hx : t.rxExpect = 0#9)
    (hd : d = t.pendFunc) (hp : t.pendFunc = fcReadRegs ∨ t.pendFunc = fcReadCoils) :
    acceptByte d t = .ok (t.storeByte d) := by
  have hlt : t.rxLen.toNat < 260 := by simp [hl]
  have h2 : (t.storeByte d).rxLen = 2#9 := by simp [hl]
  have hn : (t.storeByte d).state ≠ .doneErr := by simp [hs]
  have hr : (t.storeByte d).rx 1 = t.pendFunc := by rw [storeByte_rx _ _ _ hlt, if_pos (by simp [hl]), hd]
  have hne : t.pendFunc ≠ exceptionCode t.pendFunc := by rcases hp with h | h <;> rw [h] <;> decide
  have hw : ¬ (t.pendFunc = fcWriteCoil ∨ t.pendFunc = fcWriteReg) := by rcases hp with h | h <;> rw [h] <;> decide
  rw [acceptByte, if_pos hlt, frameByte, if_pos h2, checkFunction, hr, storeByte_pendFunc, if_neg hne,
    if_neg (fun h => hw h.2), if_pos rfl, finishByte, if_neg hn, if_neg (by simp [hx])]

/-- The third byte of a read response gives the length (41_decoder.md R134). -/
theorem acceptByte_count (hs : t.state = .await) (hl : t.rxLen = 2#9) (hx : t.rxExpect = 0#9) :
    acceptByte d t = .ok { t.storeByte d with rxExpect := 5#9 + d.setWidth 9 } := by
  have hlt : t.rxLen.toNat < 260 := by simp [hl]
  have h3 : (t.storeByte d).rxLen = 3#9 := by simp [hl]
  have hn : (t.storeByte d).state ≠ .doneErr := by simp [hs]
  have hr : (t.storeByte d).rx 2 = d := by rw [storeByte_rx _ _ _ hlt, if_pos (by simp [hl])]
  have hm : (3#9 : BitVec 9) ≠ 5#9 + d.setWidth 9 := by
    intro hc
    have := congrArg BitVec.toNat hc
    have := d.isLt
    simp only [BitVec.toNat_add, BitVec.toNat_setWidth, BitVec.toNat_ofNat] at *
    omega
  rw [acceptByte, if_pos hlt, frameByte, if_neg (by simp [hl]), countLength, if_pos ⟨h3, hx⟩, hr, finishByte, if_neg hn,
    if_neg (by simp only [h3]; exact fun h => hm h.2)]

/-- A byte before the last, once the length is known: it is stored and more are awaited. -/
theorem acceptByte_more (h : t.Inv) (hs : t.state = .await) (hx : t.rxExpect ≠ 0#9)
    (hlt : t.rxLen.toNat + 1 < t.rxExpect.toNat) : acceptByte d t = .ok (t.storeByte d) := by
  have hroom := rxLen_lt_of_inv h hs
  have hn : (t.storeByte d).state ≠ .doneErr := by simp [hs]
  have hl := storeByte_rxLen_toNat d t hroom
  have h2 : 2 ≤ t.rxLen.toNat := by
    by_contra hc
    have hk := h.lengthKnown hs
    rw [expectedLength, if_pos (by omega)] at hk
    omega
  have h2' : (t.storeByte d).rxLen ≠ 2#9 := by intro hc; rw [hc, BitVec.toNat_ofNat] at hl; omega
  have hne : (t.storeByte d).rxLen ≠ t.rxExpect := by intro hc; rw [hc] at hl; omega
  rw [acceptByte, if_pos hroom, frameByte, if_neg h2', countLength, if_neg (fun h => hx h.2), finishByte, if_neg hn,
    if_neg (fun h => hne h.2)]

end single

/-- A complete response of a legal request is always decoded (41_decoder.md R136). -/
theorem complete_total {t : Transaction} (h : t.Collecting) (hx : t.rxExpect ≠ 0#9) (hl : t.rxLen = t.rxExpect) :
    ∃ u, complete t = .ok u := by
  have h5 : 5 ≤ t.rxLen.toNat := by
    rcases h.lengthBound with ⟨h0, -⟩ | ⟨h5, -, -⟩
    · exact absurd h0 hx
    · rw [hl]; exact h5
  rw [complete, if_neg (by omega)]
  split
  · exact ⟨_, rfl⟩
  split
  · exact ⟨_, rfl⟩
  split
  · exact ⟨_, rfl⟩
  rcases h.request.1 with ⟨hp, -, hn⟩ | ⟨hp, -, hn⟩ | hp | ⟨hp, -⟩
  · rw [if_pos hp]
    by_cases hc : (t.rx 2).toNat = 2 * t.pendData.toNat
    · exact ⟨_, decRhr_of_eq hc hn⟩
    · exact ⟨_, decRhr_of_ne hc⟩
  · rw [if_neg (by rw [hp]; decide), if_pos hp]
    by_cases hc : (t.rx 2).toNat = (t.pendData.toNat + 7) / 8
    · exact ⟨_, decRc_of_eq hc hn⟩
    · exact ⟨_, decRc_of_ne hc⟩
  · rw [if_neg (by rw [hp]; decide), if_neg (by rw [hp]; decide), if_pos hp]; exact ⟨_, rfl⟩
  · rw [if_neg (by rw [hp]; decide), if_neg (by rw [hp]; decide), if_neg (by rw [hp]; decide), if_pos hp]; exact ⟨_, rfl⟩

/-- A response byte accepted in AWAIT never stops the machine (41_decoder.md R143). -/
theorem acceptByte_total (d : Byte) {t : Transaction} (h : t.Inv) (hs : t.state = .await) :
    ∃ u, acceptByte d t = .ok u := by
  rw [acceptByte, if_pos (rxLen_lt_of_inv h hs), finishByte]
  split
  · exact ⟨_, rfl⟩
  rename_i hn
  split
  · rename_i hc
    rcases frameByte_collecting d h hs with ⟨he, -⟩ | hcol
    · rw [he] at hn; exact absurd rfl hn
    · exact complete_total hcol hc.1 hc.2
  · exact ⟨_, rfl⟩

/-- Bytes before the last one, once the length is known: all are stored, behind one another, and nothing else
changes. -/
theorem receive_more (bytes : List Byte) {s : State} (h : s.toBlock.Inv) (hs : s.txn.state = .await)
    (hx : s.txn.rxExpect ≠ 0#9) (hlt : s.txn.rxLen.toNat + bytes.length < s.txn.rxExpect.toNat) :
    ∃ t, receive bytes s = .next t ∧ t.toBlock.Inv ∧ t.txn.state = .await ∧ t.txn.rxExpect = s.txn.rxExpect ∧
      t.txn.rxLen.toNat = s.txn.rxLen.toNat + bytes.length ∧
      (∀ i, t.txn.rx i = if s.txn.rxLen.toNat ≤ i then bytes.getD (i - s.txn.rxLen.toNat) 0x00#8 else s.txn.rx i) ∧
      t.txn.pendFunc = s.txn.pendFunc ∧ t.txn.pendAddr = s.txn.pendAddr ∧ t.txn.pendData = s.txn.pendData ∧
      t.toBlock = { s.toBlock with txn := t.txn } := by
  induction bytes generalizing s with
  | nil =>
    refine ⟨s, rfl, h, hs, rfl, rfl, fun i => ?_, rfl, rfl, rfl, rfl⟩
    split
    · rw [h.txn.rxUnused i (by assumption)]; rfl
    · rfl
  | cons d ds ih =>
    simp only [List.length_cons] at hlt
    have hroom := rxLen_lt_of_inv h.txn hs
    have ha := acceptByte_more (d := d) h.txn hs hx (by omega)
    have hl := storeByte_rxLen_toNat d s.txn hroom
    have hstep : exec (.rxByte d) s = .next { s with txn := s.txn.storeByte d, response := .none } := by
      rw [exec, execRxByte, if_pos hs, ha]; rfl
    obtain ⟨t, h1, h2, h3, h4, h5, h6, h7, h8, h9, h10⟩ :=
      ih (s := { s with txn := s.txn.storeByte d, response := .none })
        ⟨acceptByte_inv h.txn hs ha, h.irqEnReserved, h.crcCfgReserved⟩ hs hx (by rw [hl]; simp only [storeByte_rxExpect]; omega)
    rw [hl] at h5
    refine ⟨t, ?_, h2, h3, h4, by rw [h5, List.length_cons]; omega, fun i => ?_, h7, h8, h9, h10⟩
    · rw [receive, List.map_cons, execAll, hstep]; exact h1
    · rw [h6, hl, storeByte_rx _ _ _ hroom]
      rcases lt_trichotomy i s.txn.rxLen.toNat with hi | hi | hi
      · rw [if_neg (by omega), if_neg (by omega), if_neg (by omega)]
      · rw [if_neg (by omega), if_pos hi, if_pos (by omega), hi]; simp
      · rw [if_pos (by omega), if_pos (by omega),
          show i - s.txn.rxLen.toNat = i - (s.txn.rxLen.toNat + 1) + 1 by omega, List.getD_cons_succ]

/-- A response delivered in two parts. -/
theorem receive_append {a b : List Byte} {s t : State} (h : receive a s = .next t) :
    receive (a ++ b) s = receive b t := by
  induction a generalizing s with
  | nil => cases h; rfl
  | cons d ds ih =>
    rw [receive, List.map_cons, execAll] at h
    rw [List.cons_append, receive, List.map_cons, execAll]
    cases he : exec (.rxByte d) s with
    | next u => rw [he] at h; exact ih h
    | fault f => rw [he] at h; cases h
    | refused r => rw [he] at h; cases h

/-- The first three bytes of a read response: stored, and the length is known from the third (41_decoder.md R133,
R134). -/
theorem receive_header (a n : Byte) {s : State} (h : s.toBlock.Inv) (hs : s.txn.state = .await)
    (hl : s.txn.rxLen = 0#9) (hp : s.txn.pendFunc = fcReadRegs ∨ s.txn.pendFunc = fcReadCoils) :
    ∃ t, receive [a, s.txn.pendFunc, n] s = .next t ∧ t.toBlock.Inv ∧ t.txn.state = .await ∧
      t.txn.rxExpect.toNat = 5 + n.toNat ∧ t.txn.rxLen.toNat = 3 ∧ t.txn.rx 0 = a ∧ t.txn.rx 1 = s.txn.pendFunc ∧
      t.txn.rx 2 = n ∧ t.txn.pendFunc = s.txn.pendFunc ∧ t.txn.pendAddr = s.txn.pendAddr ∧
      t.txn.pendData = s.txn.pendData ∧ t.toBlock = { s.toBlock with txn := t.txn } := by
  have hx : s.txn.rxExpect = 0#9 := by
    rcases h.txn.lengthBound with ⟨hx, -⟩ | ⟨h5, -⟩
    · exact hx
    · have := h.txn.lengthKnown hs
      simp only [expectedLength, hl, BitVec.toNat_ofNat] at this
      simp at this
      simp [this] at h5
  have h1 := acceptByte_first (d := a) hs hl hx
  have i1 := acceptByte_inv h.txn hs h1
  have h2 := acceptByte_readFunction (d := s.txn.pendFunc) (t := s.txn.storeByte a) hs (by simp [hl]) hx rfl hp
  have i2 := acceptByte_inv i1 hs h2
  have h3 := acceptByte_count (d := n) (t := (s.txn.storeByte a).storeByte s.txn.pendFunc) hs (by simp [hl]) hx
  have i3 := acceptByte_inv i2 hs h3
  have l1 : (s.txn.storeByte a).rxLen = 1#9 := by simp [hl]
  have l2 : ((s.txn.storeByte a).storeByte s.txn.pendFunc).rxLen = 2#9 := by simp [hl]
  have l3 : (((s.txn.storeByte a).storeByte s.txn.pendFunc).storeByte n).rxLen = 3#9 := by simp [hl]
  have r : ∀ i, (((s.txn.storeByte a).storeByte s.txn.pendFunc).storeByte n).rx i =
      if i = 2 then n else if i = 1 then s.txn.pendFunc else if i = 0 then a else s.txn.rx i := by
    intro i
    rw [storeByte_rx _ _ _ (by rw [l2]; decide), storeByte_rx _ _ _ (by rw [l1]; decide),
      storeByte_rx _ _ _ (by rw [hl]; decide), l2, l1, hl]
    rfl
  have step : ∀ (d : Byte) (u : State) (v : Transaction), u.txn.state = .await → acceptByte d u.txn = .ok v →
      exec (.rxByte d) u = .next { u with txn := v, response := .none } := by
    intro d u v hu hv
    rw [exec, execRxByte, if_pos hu, hv]; rfl
  refine ⟨{ s with
    txn := { ((s.txn.storeByte a).storeByte s.txn.pendFunc).storeByte n with rxExpect := 5#9 + n.setWidth 9 }
    response := .none }, ?_, ⟨i3, h.irqEnReserved, h.crcCfgReserved⟩, hs, ?_, congrArg BitVec.toNat l3, (r 0).trans rfl,
    (r 1).trans rfl, (r 2).trans rfl, rfl, rfl, rfl, rfl⟩
  · simp only [receive, List.map_cons, List.map_nil, execAll]
    rw [step a s _ hs h1]
    simp only
    rw [step s.txn.pendFunc { s with txn := s.txn.storeByte a, response := .none } _ hs h2]
    simp only
    rw [step n { s with txn := (s.txn.storeByte a).storeByte s.txn.pendFunc, response := .none } _ hs h3]
  · have := n.isLt
    simp only [BitVec.toNat_add, BitVec.toNat_setWidth, BitVec.toNat_ofNat]
    omega

/-- A read response up to its last byte: what remains is the byte that completes it. -/
theorem receive_toLast (a n d : Byte) (body : List Byte) {s : State} (h : s.toBlock.Inv) (hs : s.txn.state = .await)
    (hl : s.txn.rxLen = 0#9) (hp : s.txn.pendFunc = fcReadRegs ∨ s.txn.pendFunc = fcReadCoils)
    (hn : body.length = 1 + n.toNat) :
    ∃ t, receive ([a, s.txn.pendFunc, n] ++ body) s = .next t ∧
      Completing t d ([a, s.txn.pendFunc, n] ++ body ++ [d]) ∧ t.txn.pendFunc = s.txn.pendFunc ∧
      t.txn.pendAddr = s.txn.pendAddr ∧ t.txn.pendData = s.txn.pendData ∧
      t.toBlock = { s.toBlock with txn := t.txn } := by
  obtain ⟨u, u1, u2, u3, u4, u5, u6, u7, u8, u9, u10, u11, u12⟩ := receive_header a n h hs hl hp
  have hx : u.txn.rxExpect ≠ 0#9 := by intro hc; rw [hc, BitVec.toNat_ofNat] at u4; omega
  obtain ⟨t, t1, t2, t3, t4, t5, t6, t7, t8, t9, t10⟩ := receive_more body u2 u3 hx (by omega)
  have hlen : t.txn.rxLen.toNat = 3 + body.length := by omega
  have hb := t.txn.rxExpect.isLt
  have hroom := rxLen_lt_of_inv t2.txn t3
  refine ⟨t, (receive_append u1).trans t1, ⟨t2, t3, t4 ▸ hx, by rw [t4]; omega, ?_⟩, t7.trans u9, t8.trans u10,
    t9.trans u11, by rw [t10, u12]⟩
  rw [Transaction.frameWith]
  congr 1
  apply List.ext_getElem?
  intro i
  have hpl : (t.txn.rxPrefix t.txn.rxLen.toNat).length = 3 + body.length := by
    simp only [Transaction.rxPrefix, List.length_take, Vector.length_toList]; omega
  rcases Nat.lt_or_ge i (3 + body.length) with hi | hi
  · have hr : (t.txn.rxPrefix t.txn.rxLen.toNat)[i]? = some (t.txn.rx i) := by
      have h260 : i < 260 := by omega
      simp only [Transaction.rxPrefix, Transaction.rx]
      rw [List.getElem?_take_of_lt (by omega), Vector.getElem?_toList]
      simp [h260]
    rw [hr, t6, u5]
    match i with
    | 0 => simp [u6]
    | 1 => simp [u7]
    | 2 => simp [u8]
    | i + 3 =>
      rw [if_pos (by omega), List.getElem?_append_right (by simp)]
      simp only [List.length_cons, List.length_nil, Nat.zero_add, Nat.reduceAdd, Nat.add_sub_cancel]
      rw [List.getElem?_eq_getElem (by omega), List.getD_eq_getElem?_getD, List.getElem?_eq_getElem (by omega)]
      rfl
  · rw [List.getElem?_eq_none (by simp; omega), List.getElem?_eq_none (by omega)]

end Sys2Proof.Machine
end

