-- ==== Sys2Proof/Tests/Slice0.lean ====
section
/-! SUPPORT. Tests: well-formedness, decoding of words written out from the spec, single steps with the results of
95_test_vectors.md, and for every statement with hypotheses a state and operands that meet them. -/

namespace Sys2Proof.Tests
open Sys2Proof.Machine

-- One theorem after the other: elaborated side by side, the tests of the joined package start more threads than the
-- check's memory limit has room for.
set_option Elab.async false

/-! Helpers. -/

/-- The machine after reset with these operands. -/
def withOperands (a n : Word) : State := { State.reset with reqAddr := a, reqData := n }

/-- The machine with the request just built. -/
def sending (fc : Byte) (a field : Word) : State := { State.reset with txn := startedTxn fc a field }

/-- A request whose eight bytes were taken, with the response bytes `got` accepted and the length `x` expected. -/
def awaitTxn (fc : Byte) (a field : Word) (got : List Byte) (x : BitVec 9) : Transaction :=
  { startedTxn fc a field with
    state := .await, txPtr := 8#4, rxBuf := Vector.ofFn fun i => got.getD i.val 0x00#8
    rxLen := BitVec.ofNat 9 got.length, rxExpect := x }

def awaiting (fc : Byte) (a field : Word) (got : List Byte) (x : BitVec 9) : State :=
  { State.reset with txn := awaitTxn fc a field got x }

/-- The step ends in a next state with the property. -/
def ends (r : Result) (p : State → Bool) : Bool :=
  match r with
  | .next t => p t
  | .fault _ => false
  | .refused _ => false

theorem exists_of_ends {r : Result} {p : State → Bool} (h : ends r p = true) : ∃ t, r = .next t ∧ p t = true := by
  cases r with
  | next t => exact ⟨t, rfl, h⟩
  | fault f => cases h
  | refused f => cases h

theorem awaitTxn_rx (fc : Byte) (a field : Word) (got : List Byte) (x : BitVec 9) (i : Nat) (h : got.length ≤ 260) :
    (awaitTxn fc a field got x).rx i = got.getD i 0x00#8 := by
  simp only [awaitTxn, Transaction.rx, Vector.getElem?_ofFn]
  split
  · rfl
  · rw [List.getD_eq_getElem?_getD, List.getElem?_eq_none (by omega)]

theorem reset_block_inv : State.reset.toBlock.Inv := ⟨reset_txn_inv, by decide, by decide⟩

/-- A state built by `awaiting` meets the invariant where its length fits its bytes. -/
theorem awaiting_inv {fc : Byte} {a field : Word} {got : List Byte} {x : BitVec 9} (hr : RequestLegal fc field)
    (hg : got.length ≤ 260)
    (hb : (x = 0#9 ∧ got.length ≤ 2) ∨ (5 ≤ x.toNat ∧ got.length < x.toNat ∧ x.toNat ≤ 260))
    (hk : x.toNat = expectedLength (awaitTxn fc a field got x))
    (hf : 2 ≤ got.length → got.getD 1 0x00#8 = fc ∨ got.getD 1 0x00#8 = exceptionCode fc) :
    (awaiting fc a field got x).toBlock.Inv := by
  have hl : (awaitTxn fc a field got x).rxLen.toNat = got.length := by
    simp only [awaitTxn, BitVec.toNat_ofNat]; omega
  refine ⟨inv_of_collecting (t := awaitTxn fc a field got x) ?_ ?_, reset_block_inv.irqEnReserved, reset_block_inv.crcCfgReserved⟩
  · refine ⟨rfl, rfl, rfl, rfl, ⟨hr, rfl, rfl⟩, rfl, ⟨rfl, rfl, rfl⟩, ?_, hk, fun h => ?_, fun i hi => ?_⟩
    · rw [hl]
      rcases hb with ⟨h0, h2⟩ | ⟨h5, hlt, hm⟩
      · exact .inl ⟨h0, h2⟩
      · exact .inr ⟨h5, Nat.le_of_lt hlt, hm⟩
    · rw [awaitTxn_rx _ _ _ _ _ _ hg]
      exact hf (by omega)
    · rw [awaitTxn_rx _ _ _ _ _ _ hg, List.getD_eq_getElem?_getD, List.getElem?_eq_none (by omega)]
      rfl
  · rintro ⟨h0, he⟩
    have he := congrArg BitVec.toNat he
    rw [hl] at he
    rcases hb with ⟨hx, -⟩ | ⟨-, hlt, -⟩
    · exact h0 hx
    · have hx : (awaitTxn fc a field got x).rxExpect.toNat = x.toNat := rfl
      omega

theorem sending_inv {fc : Byte} {a field : Word} (h : RequestLegal fc field) : (sending fc a field).toBlock.Inv :=
  ⟨startedTxn_inv h, reset_block_inv.irqEnReserved, reset_block_inv.crcCfgReserved⟩

theorem legal_read (n : Word) (h : 1 ≤ n.toNat ∧ n.toNat ≤ 125) : RequestLegal 0x03#8 n := .inl ⟨rfl, h⟩
theorem legal_coils (n : Word) (h : 1 ≤ n.toNat ∧ n.toNat ≤ 2000) : RequestLegal 0x01#8 n := .inr (.inl ⟨rfl, h⟩)
theorem legal_write (n : Word) : RequestLegal 0x06#8 n := .inr (.inr (.inl rfl))
theorem legal_on : RequestLegal 0x05#8 0xFF00#16 := .inr (.inr (.inr ⟨rfl, .inr rfl⟩))

/-! Well-formedness: the one check refuses a command written as a MemWrite (30_encoding.md R80, R81). -/

theorem test_wellFormed_refuses_command_as_write :
    (Instr.memWrite 0x000#12 .bits16 0x0003#16).WellFormed = false := by decide
theorem test_wellFormed_admits_undefined_word : (Instr.memWrite 0x000#12 .bits16 0x0007#16).WellFormed = true := by decide
theorem test_wellFormed_admits_rw_write : (Instr.memWrite 0x00C#12 .bits16 0x0003#16).WellFormed = true := by decide

/-! Decoding: every row's word or event, written from 30_encoding.md R80, R81, R93 and 20_memory.md R67, R68. -/

theorem test_decode_encRc : decodeTableWord 16 0b0000000000000001 = some (.encRc 0x00#8) := by decide
theorem test_decode_encRhr : decodeTableWord 16 0b0000000000000011 = some (.encRhr 0x00#8) := by decide
theorem test_decode_encWsc : decodeTableWord 16 0b0000000000000101 = some (.encWsc 0x00#8) := by decide
theorem test_decode_encWsr : decodeTableWord 16 0b0000000000000110 = some (.encWsr 0x00#8) := by decide
theorem test_decode_clear : decodeTableWord 16 0b0000000100010000 = some (.clear 0x01#8) := by decide
theorem test_decode_crcInit : decodeTableWord 16 0b0000000000100000 = some (.crcInit 0x00#8) := by decide
theorem test_decode_crcByte : decodeTableWord 16 0b1111111000100001 = some (.crcByte 0xFE#8) := by decide
theorem test_decode_rejects_by_name : decodeCommand 0x0102#16 = .error (.undefinedOp 0x02#8) := by decide
theorem test_decode_events :
    decode .txTake = .txTake ∧ decode (.rxByte 0x41#8) = .rxByte 0x41#8 ∧ decode .rxTimeout = .rxTimeout ∧
    decode .reset = .reset ∧ decode (.hostRead 0x01E#12 .bits16) = .memRead 0x01E#12 .bits16 ∧
    decode (.hostWrite 0x00C#12 .bits16 0x0064#16) = .memWrite 0x00C#12 .bits16 0x0064#16 ∧
    decode (.hostWrite 0x000#12 .bits16 0x0003#16) = .encRhr 0x00#8 ∧
    decode (.hostWrite 0x000#12 .bits8 0x0003#16) = .memWrite 0x000#12 .bits8 0x0003#16 := by decide
theorem test_step_runs_command_word :
    ends (step ((withOperands 0x0000#16 1#16).withFetchWord 16 0x0003)) (fun t => t.txn.state == .tx) = true := by
  decide +kernel

/-! Single steps: the vectors of 95_test_vectors.md L2. -/

/-- L2.1: ENC_RHR with A = 0xFFFF, N = 2. -/
theorem test_encRhr_frame : ends (exec (.encRhr 0x00#8) (withOperands 0xFFFF#16 2#16)) (fun t =>
    t.txn.txBuf == #v[0x01#8, 0x03#8, 0xFF#8, 0xFF#8, 0x00#8, 0x02#8, 0xC4#8, 0x2F#8] && t.status == 0x0009#16) = true := by
  decide +kernel
/-- L2.1: N = 126 is refused. -/
theorem test_encRhr_badCount : ends (exec (.encRhr 0x00#8) (withOperands 0x0000#16 126#16)) (fun t =>
    t.cmdErr.code == 0x04#8 && t.status == 0x0080#16) = true := by decide +kernel
/-- L2.1: ENC_RC with N = 2000. -/
theorem test_encRc_frame : ends (exec (.encRc 0x00#8) (withOperands 0x0000#16 2000#16)) (fun t =>
    t.txn.txBuf == #v[0x01#8, 0x01#8, 0x00#8, 0x00#8, 0x07#8, 0xD0#8, 0x3F#8, 0xA6#8] && t.txn.pendData == 0x07D0#16) = true := by
  decide +kernel
/-- L2.1: ENC_WSR of 1234 to 0x0064. -/
theorem test_encWsr_frame : ends (exec (.encWsr 0x00#8) (withOperands 0x0064#16 0x04D2#16)) (fun t =>
    t.txn.txBuf == #v[0x01#8, 0x06#8, 0x00#8, 0x64#8, 0x04#8, 0xD2#8, 0x4A#8, 0x88#8]) = true := by decide +kernel
/-- L2.1: ENC_WSC ON. -/
theorem test_encWsc_frame : ends (exec (.encWsc 0x00#8) (withOperands 0x00AC#16 1#16)) (fun t =>
    t.txn.txBuf == #v[0x01#8, 0x05#8, 0x00#8, 0xAC#8, 0xFF#8, 0x00#8, 0x4C#8, 0x1B#8] && t.txn.pendData == 0xFF00#16) = true := by
  decide +kernel
/-- L2.1: the wire value is not the operand. -/
theorem test_encWsc_wireValue : ends (exec (.encWsc 0x00#8) (withOperands 0x00AC#16 0xFF00#16)) (fun t =>
    t.cmdErr.code == 0x05#8) = true := by decide +kernel
/-- L2.8: RESERVED_IMM comes before BUSY, BUSY before BAD_COUNT. -/
theorem test_refusal_priority :
    ends (exec (.memWrite 0x000#12 .bits16 0x0103#16) (sending 0x03#8 0#16 1#16)) (fun t => t.cmdErr.code == 0x02#8) = true ∧
    ends (exec (.memWrite 0x000#12 .bits16 0x0003#16) (sending 0x03#8 0#16 1#16)) (fun t => t.cmdErr.code == 0x03#8) = true := by
  decide +kernel
/-- L2.8: CLEAR of an error gives STATUS 0. -/
theorem test_clear_error :
    ends (exec (.clear 0x00#8) { State.reset with txn := (startedTxn 0x03#8 0#16 1#16).fail .crcMismatch }) (fun t =>
      t.status == 0x0000#16 && t.txn.pendFunc == 0x00#8 && t.txn.txLen == 0#4 && t.txn.txBuf[6] == 0x00#8) = true := by decide +kernel
/-- L2.8: CLEAR does not abort. -/
theorem test_clear_busy : ends (exec (.clear 0x00#8) (sending 0x03#8 0#16 1#16)) (fun t =>
    t.cmdErr.code == 0x03#8 && t.txn.state == .tx) = true := by decide +kernel
/-- L2.7: CRC_INIT under XMODEM, and with a nonzero imm8. -/
theorem test_crcInit :
    ends (exec (.crcInit 0x00#8) { State.reset with crcCfg := 2#16 }) (fun t => t.crcValue == 0x0000#16) = true ∧
    ends (exec (.crcInit 0x01#8) State.reset) (fun t => t.cmdErr.code == 0x02#8 && t.crcValue == 0xFFFF#16) = true := by
  decide +kernel
/-- L2.7: one byte 0x31 under each preset. -/
theorem test_crcByte :
    ends (exec (.crcByte 0x31#8) State.reset) (fun t => t.crcValue == 0x947E#16) = true ∧
    ends (exec (.crcByte 0x31#8) { State.reset with crcCfg := 1#16 }) (fun t => t.crcValue == 0xC782#16) = true ∧
    ends (exec (.crcByte 0x31#8) { State.reset with crcCfg := 2#16, crcValue := 0#16 }) (fun t => t.crcValue == 0x2672#16) = true ∧
    ends (exec (.crcByte 0x31#8) { State.reset with crcCfg := 3#16, crcValue := 0#16 }) (fun t => t.crcValue == 0x200A#16) = true := by
  decide +kernel
/-- L2.2: the eighth byte. -/
theorem test_txTake_last :
    ends (exec .txTake { State.reset with txn := { startedTxn 0x03#8 0#16 1#16 with txPtr := 7#4 } }) (fun t =>
      t.response == .txByte 0x0A#8 && t.txn.txPtr == 8#4 && t.status == 0x000A#16) = true := by decide +kernel
/-- L2.2: not enabled in IDLE. -/
theorem test_txTake_idle : exec .txTake State.reset = .refused .notEnabled := by rfl
/-- L2.3: the last byte of the response 0x1234. -/
theorem test_rxByte_result :
    ends (exec (.rxByte 0x33#8) (awaiting 0x03#8 0#16 1#16 [0x01#8, 0x03#8, 0x02#8, 0x12#8, 0x34#8, 0xB5#8] 7#9)) (fun t =>
      t.status == 0x0003#16 && t.txn.resultReg[0] == 0x1234#16 && t.txn.resultCount == 1#16) = true := by decide +kernel
/-- L2.4: the last byte of the response of 37 coils. -/
theorem test_rxByte_coils :
    ends (exec (.rxByte 0xEA#8) (awaiting 0x01#8 0x13#16 37#16
        [0x01#8, 0x01#8, 0x05#8, 0xCD#8, 0x6B#8, 0xB2#8, 0x0E#8, 0x1B#8, 0x44#8] 10#9)) (fun t =>
      t.txn.resultCoil[0] == 0x6BCD#16 && t.txn.resultCoil[1] == 0x0EB2#16 && t.txn.resultCoil[2] == 0x001B#16) = true := by
  decide +kernel
/-- L2.6 and 41_decoder.md R142: a timeout after two bytes, and none outside a transaction. -/
theorem test_rxTimeout :
    ends (exec .rxTimeout (awaiting 0x03#8 0#16 1#16 [0x01#8, 0x03#8] 0#9)) (fun t =>
      t.txn.errCode.code == 0x02#8 && t.status == 0x0014#16 && t.txn.rxLen == 2#9) = true ∧
    ends (exec .rxTimeout State.reset) (fun t => t.status == 0x0000#16 && t.txn.errCode == .none) = true := by decide +kernel
/-- L2.8: RESET. -/
theorem test_reset :
    ends (exec .reset (awaiting 0x03#8 0#16 1#16 [0x01#8, 0x03#8] 0#9)) (fun t =>
      t.status == 0x0000#16 && t.txn.rxLen == 0#9 && t.txn.rx 1 == 0x00#8 && t.crcValue == 0xFFFF#16) = true := by
  decide +kernel
/-- L2.9: reads. -/
theorem test_memRead :
    ends (exec (.memRead 0x00A#12 .bits16) State.reset) (fun t => t.response == .readData 0x0001#16) = true ∧
    ends (exec (.memRead 0x10E#12 .bits16) (sending 0x03#8 0#16 1#16)) (fun t => t.response == .readData 0x000A#16) = true ∧
    ends (exec (.memRead 0x026#12 .bits16) State.reset) (fun t => t.response == .busError 0x026#12) = true ∧
    ends (exec (.memRead 0x002#12 .bits8) State.reset) (fun t => t.response == .busError 0x002#12) = true := by decide +kernel
/-- L2.9 and L2.8: writes. -/
theorem test_memWrite :
    ends (exec (.memWrite 0x022#12 .bits16 0x0007#16) State.reset) (fun t => t.crcCfg == 0x0003#16 && t.crcValue == 0xFFFF#16) = true ∧
    ends (exec (.memWrite 0x002#12 .bits16 0x0007#16) State.reset) (fun t => t.response == .busError 0x002#12) = true ∧
    ends (exec (.memWrite 0x000#12 .bits16 0x0102#16) State.reset) (fun t => t.cmdErr.code == 0x01#8) = true := by decide +kernel

/-! Witnesses: for each statement with hypotheses, a state and operands that meet them. -/

theorem wit_ResetEventRestoresTheBlock : ∃ (i : Instr) (s t : State), exec i s = .next t ∧ i ≠ .reset ∧
    (∀ off w v, i ≠ .memWrite off w v) := ⟨.crcByte 0x01#8, State.reset, _, rfl, by simp, by simp⟩

theorem wit_BusErrorExactlyWhenNotAdmitted :
    (∀ off ∈ [0x002#12, 0x024#12, 0x100#12, 0x10E#12, 0x200#12, 0x406#12, 0x500#12, 0x5F8#12, 0x600#12, 0x6F8#12],
      ReadAdmitted off .bits16) ∧
    (∀ off ∈ [0x000#12, 0x001#12, 0x026#12, 0x0FE#12, 0x110#12, 0x1FE#12, 0x408#12, 0x4FE#12, 0x5FA#12, 0x6FA#12, 0xFFE#12],
      ¬ ReadAdmitted off .bits16) ∧
    (∀ w ∈ [AccessWidth.bits8, .bits32, .oneLane], ¬ ReadAdmitted 0x002#12 w ∧ ¬ WriteAdmitted 0x00C#12 w) ∧
    (∀ off ∈ [0x000#12, 0x00C#12, 0x00E#12, 0x020#12, 0x022#12], WriteAdmitted off .bits16) ∧
    (∀ off ∈ [0x001#12, 0x002#12, 0x00A#12, 0x010#12, 0x024#12, 0x026#12, 0x100#12, 0x6F8#12], ¬ WriteAdmitted off .bits16) := by
  unfold ReadAdmitted WriteAdmitted
  refine ⟨?_, ?_, ?_, ?_, ?_⟩ <;> intro x hx <;> fin_cases hx <;> decide

theorem wit_CommandDispatch :
    (0x0001#16).extractLsb' 0 8 = 0x01#8 ∧ (0x0103#16).extractLsb' 0 8 = 0x03#8 ∧ (0x0005#16).extractLsb' 0 8 = 0x05#8 ∧
    (0x0006#16).extractLsb' 0 8 = 0x06#8 ∧ (0xFF10#16).extractLsb' 0 8 = 0x10#8 ∧ (0x0020#16).extractLsb' 0 8 = 0x20#8 ∧
    (0x3121#16).extractLsb' 0 8 = 0x21#8 ∧
    (∀ v : Word, v ∈ [0x0000#16, 0x0102#16, 0x0004#16, 0x0007#16, 0x000F#16, 0x0011#16, 0x001F#16, 0x0022#16, 0x00FF#16] →
      v.extractLsb' 0 8 ∉ [0x01#8, 0x03#8, 0x05#8, 0x06#8, 0x10#8, 0x20#8, 0x21#8]) := by
  refine ⟨by decide, by decide, by decide, by decide, by decide, by decide, by decide, ?_⟩
  intro v hv
  fin_cases hv <;> decide

theorem wit_DiscardIsSticky :
    (∃ t, exec (.rxByte 0x01#8) State.reset = .next t ∧ State.reset.txn.state ≠ .await ∧ State.reset.txn.discard = false ∧
      t.txn.discard = true) ∧
    (∃ (s t : State), exec (.clear 0x00#8) s = .next t ∧ s.txn.discard = true ∧ t.txn.discard = false) ∧
    (∃ (s t : State), exec (.encWsr 0x00#8) s = .next t ∧ s.txn.discard = true ∧ t.txn.discard = false) ∧
    (∃ (s t : State), exec .reset s = .next t ∧ s.txn.discard = true ∧ t.txn.discard = false) :=
  ⟨⟨_, rfl, by decide, rfl, rfl⟩, ⟨{ State.reset with txn := { Transaction.reset with discard := true } }, _, rfl, rfl, rfl⟩,
    ⟨{ State.reset with txn := { Transaction.reset with discard := true } }, _, rfl, rfl, rfl⟩,
    ⟨{ State.reset with txn := { Transaction.reset with discard := true } }, _, rfl, rfl, rfl⟩⟩

theorem wit_CmdErrIsTheLastOutcome :
    (∃ t, exec .rxTimeout State.reset = .next t ∧ Instr.rxTimeout.writesCmd = false ∧ Instr.rxTimeout ≠ .reset) ∧
    (∃ t, exec (.clear 0x01#8) State.reset = .next t ∧ (Instr.clear 0x01#8).writesCmd = true ∧ t.cmdErr.code ≠ 0x00#8) ∧
    (∃ t t', (Instr.clear 0x00#8).writesCmd = true ∧
      State.reset.toBlock = { ({ State.reset with cmdErr := .busy } : State).toBlock with cmdErr := State.reset.cmdErr } ∧
      exec (.clear 0x00#8) State.reset = .next t ∧ exec (.clear 0x00#8) { State.reset with cmdErr := .busy } = .next t') :=
  ⟨⟨_, rfl, rfl, by simp⟩, ⟨_, rfl, rfl, by decide⟩, ⟨_, _, rfl, rfl, rfl, rfl⟩⟩

theorem wit_EncoderInvariants :
    (∃ t, exec (.encRhr 0x00#8) (withOperands 0#16 1#16) = .next t ∧ t.txn.txLen ≠ (withOperands 0#16 1#16).txn.txLen ∧
      (Instr.encRhr 0x00#8).command?.bind Instr.encodeOp = some 0x03#8 ∧ t.cmdErr = .ok) ∧
    (∃ s t : State, exec (.clear 0x00#8) s = .next t ∧ t.txn.txLen ≠ s.txn.txLen) :=
  ⟨⟨_, rfl, by decide, rfl, rfl⟩,
    ⟨{ State.reset with txn := (startedTxn 0x03#8 0#16 1#16).fail .crcMismatch }, _, rfl, by decide⟩⟩

theorem wit_GeneratorPresets : (0xFFFC#16).extractLsb' 0 2 = 0#2 ∧ (0x0001#16).extractLsb' 0 2 = 1#2 ∧
    (0xFFFE#16).extractLsb' 0 2 = 2#2 ∧ (0x0003#16).extractLsb' 0 2 = 3#2 := by decide

/-- The exception response 01 83 02 C0 F1 with its third byte damaged in one bit. -/
theorem wit_OneByteErrorIsDetected : (0x02#8 : Byte) ≠ 0x03#8 ∧
    2 ≤ ([0x01#8, 0x83#8] ++ 0x02#8 :: [0xC0#8, 0xF1#8] : List Byte).length ∧
    TrailerOk ([0x01#8, 0x83#8] ++ 0x02#8 :: [0xC0#8, 0xF1#8]) := by
  unfold TrailerOk; decide +kernel

theorem wit_GeneratorIsApartFromTheFramer :
    (∃ t, exec (.encRhr 0x00#8) (withOperands 0#16 1#16) = .next t) ∧
    (∃ t, exec (.crcInit 0x00#8) { State.reset with crcCfg := 2#16 } = .next t ∧ t.crcValue ≠ 0xFFFF#16) ∧
    (∃ t, exec (.crcByte 0x31#8) State.reset = .next t ∧ (Instr.crcByte 0x31#8).command? = some (.crcByte 0x31#8)) ∧
    (∃ t, exec (.crcInit 0x01#8) State.reset = .next t ∧ (Instr.crcInit 0x01#8).command? = some (.crcInit 0x01#8)) :=
  ⟨⟨_, rfl⟩, ⟨_, rfl, by decide⟩, ⟨_, rfl, rfl⟩, ⟨_, rfl, rfl⟩⟩

/-! States that await the last byte of a response, for the statements about a complete frame. -/

theorem completing_of {fc : Byte} {a field : Word} {got f : List Byte} {d : Byte} {x : BitVec 9}
    (h : (awaiting fc a field got x).toBlock.Inv) (hx : x ≠ 0#9) (hl : got.length + 1 = x.toNat) (hg : got.length ≤ 260)
    (hf : f = got ++ [d]) : Completing (awaiting fc a field got x) d f := by
  have hrl : (awaitTxn fc a field got x).rxLen.toNat = got.length := by
    simp only [awaitTxn, BitVec.toNat_ofNat]; omega
  refine ⟨h, rfl, hx, ?_, ?_⟩
  · show (awaitTxn fc a field got x).rxLen.toNat + 1 = x.toNat
    omega
  · rw [hf, Transaction.frameWith]
    congr 1
    show got = (awaitTxn fc a field got x).rxPrefix (awaitTxn fc a field got x).rxLen.toNat
    rw [hrl]
    apply List.ext_getElem?
    intro i
    simp only [Transaction.rxPrefix, awaitTxn]
    rcases Nat.lt_or_ge i got.length with hi | hi
    · have h260 : i < 260 := by omega
      rw [List.getElem?_take_of_lt hi, Vector.getElem?_toList]
      simp [h260, hi]
    · rw [List.getElem?_eq_none hi, List.getElem?_eq_none (by simp; omega)]

/-- L2.3: 01 03 02 12 34 B5 33 up to its last byte. -/
def readState : State := awaiting 0x03#8 0#16 1#16 [0x01#8, 0x03#8, 0x02#8, 0x12#8, 0x34#8, 0xB5#8] 7#9
theorem readState_inv : readState.toBlock.Inv :=
  awaiting_inv (legal_read _ (by decide)) (by decide) (.inr (by decide)) (by decide +kernel) (by decide)
theorem readState_completing : Completing readState 0x33#8 [0x01#8, 0x03#8, 0x02#8, 0x12#8, 0x34#8, 0xB5#8, 0x33#8] :=
  completing_of readState_inv (by decide) (by decide) (by decide) rfl

/-- L2.3: 01 83 02 C0 F1 up to its last byte. -/
def exceptionState : State := awaiting 0x03#8 0#16 1#16 [0x01#8, 0x83#8, 0x02#8, 0xC0#8] 5#9
theorem exceptionState_completing (d : Byte) : Completing exceptionState d [0x01#8, 0x83#8, 0x02#8, 0xC0#8, d] :=
  completing_of (awaiting_inv (legal_read _ (by decide)) (by decide) (.inr (by decide)) (by decide +kernel) (by decide))
    (by decide) (by decide) (by decide) rfl

/-- L2.3: 02 83 02 30 F1 up to its last byte. -/
def otherSlaveState : State := awaiting 0x03#8 0#16 1#16 [0x02#8, 0x83#8, 0x02#8, 0x30#8] 5#9
theorem otherSlaveState_completing : Completing otherSlaveState 0xF1#8 [0x02#8, 0x83#8, 0x02#8, 0x30#8, 0xF1#8] :=
  completing_of (awaiting_inv (legal_read _ (by decide)) (by decide) (.inr (by decide)) (by decide +kernel) (by decide))
    (by decide) (by decide) (by decide) rfl

/-- L2.3: 01 03 00 20 F0 (byte count 0 for N = 1) up to its last byte. -/
def shortState : State := awaiting 0x03#8 0#16 1#16 [0x01#8, 0x03#8, 0x00#8, 0x20#8] 5#9
theorem shortState_completing : Completing shortState 0xF0#8 [0x01#8, 0x03#8, 0x00#8, 0x20#8, 0xF0#8] :=
  completing_of (awaiting_inv (legal_read _ (by decide)) (by decide) (.inr (by decide)) (by decide +kernel) (by decide))
    (by decide) (by decide) (by decide) rfl

/-- L2.4: 01 01 01 01 90 48 for N = 1 up to its last byte. -/
def coilState : State := awaiting 0x01#8 0#16 1#16 [0x01#8, 0x01#8, 0x01#8, 0x01#8, 0x90#8] 6#9
theorem coilState_completing : Completing coilState 0x48#8 [0x01#8, 0x01#8, 0x01#8, 0x01#8, 0x90#8, 0x48#8] :=
  completing_of (awaiting_inv (legal_coils _ (by decide)) (by decide) (.inr (by decide)) (by decide +kernel) (by decide))
    (by decide) (by decide) (by decide) rfl

/-- L2.4: 01 01 01 FF 11 C8 for N = 9 (byte count 1, needs 2) up to its last byte. -/
def shortCoilState : State := awaiting 0x01#8 0#16 9#16 [0x01#8, 0x01#8, 0x01#8, 0xFF#8, 0x11#8] 6#9
theorem shortCoilState_completing : Completing shortCoilState 0xC8#8 [0x01#8, 0x01#8, 0x01#8, 0xFF#8, 0x11#8, 0xC8#8] :=
  completing_of (awaiting_inv (legal_coils _ (by decide)) (by decide) (.inr (by decide)) (by decide +kernel) (by decide))
    (by decide) (by decide) (by decide) rfl

/-- L2.5: the echo 01 06 00 01 00 03 98 0B up to its last byte. -/
def echoState : State := awaiting 0x06#8 1#16 3#16 [0x01#8, 0x06#8, 0x00#8, 0x01#8, 0x00#8, 0x03#8, 0x98#8] 8#9
theorem echoState_completing : Completing echoState 0x0B#8 [0x01#8, 0x06#8, 0x00#8, 0x01#8, 0x00#8, 0x03#8, 0x98#8, 0x0B#8] :=
  completing_of (awaiting_inv (legal_write _) (by decide) (.inr (by decide)) (by decide +kernel) (by decide))
    (by decide) (by decide) (by decide) rfl

/-- L2.5: the wrong echo 01 05 00 AC 00 00 0D EB after an ON request, up to its last byte. -/
def wrongEchoState : State :=
  awaiting 0x05#8 0xAC#16 0xFF00#16 [0x01#8, 0x05#8, 0x00#8, 0xAC#8, 0x00#8, 0x00#8, 0x0D#8] 8#9
theorem wrongEchoState_completing :
    Completing wrongEchoState 0xEB#8 [0x01#8, 0x05#8, 0x00#8, 0xAC#8, 0x00#8, 0x00#8, 0x0D#8, 0xEB#8] :=
  completing_of (awaiting_inv legal_on (by decide) (.inr (by decide)) (by decide +kernel) (by decide))
    (by decide) (by decide) (by decide) rfl

/-- No response byte accepted yet, of a read of one register. -/
theorem awaiting_none_inv : (awaiting 0x03#8 0#16 1#16 [] 0#9).toBlock.Inv :=
  awaiting_inv (legal_read _ (by decide)) (by decide) (.inl (by decide)) (by decide +kernel) (by decide)
/-- One response byte accepted, of a read of one register and of a register write. -/
theorem awaiting_one_inv : (awaiting 0x03#8 0#16 1#16 [0x01#8] 0#9).toBlock.Inv :=
  awaiting_inv (legal_read _ (by decide)) (by decide) (.inl (by decide)) (by decide +kernel) (by decide)
theorem awaiting_one_write_inv : (awaiting 0x06#8 0#16 1#16 [0x01#8] 0#9).toBlock.Inv :=
  awaiting_inv (legal_write _) (by decide) (.inl (by decide)) (by decide +kernel) (by decide)
/-- Two response bytes accepted. -/
theorem awaiting_two_inv : (awaiting 0x03#8 0#16 1#16 [0x01#8, 0x03#8] 0#9).toBlock.Inv :=
  awaiting_inv (legal_read _ (by decide)) (by decide) (.inl (by decide)) (by decide +kernel) (by decide)
theorem awaiting_two_coils_inv : (awaiting 0x01#8 0#16 1#16 [0x01#8, 0x01#8] 0#9).toBlock.Inv :=
  awaiting_inv (legal_coils _ (by decide)) (by decide) (.inl (by decide)) (by decide +kernel) (by decide)

theorem wit_StateChangesAreTheTable :
    (∃ t, exec (.encRhr 0x00#8) (withOperands 0#16 1#16) = .next t ∧ t.txn.state ≠ (withOperands 0#16 1#16).txn.state ∧
      (withOperands 0#16 1#16).toBlock.Inv) ∧
    (∃ s t : State, s.toBlock.Inv ∧ exec .rxTimeout s = .next t ∧ t.txn.state ≠ s.txn.state) ∧
    (∃ t, exec (.rxByte 0x04#8) (awaiting 0x03#8 0#16 1#16 [0x01#8] 0#9) = .next t ∧ (t.txn.state != .await) = true) ∧
    (∃ t, exec (.rxByte 0x33#8) readState = .next t ∧ (t.txn.state != .await) = true) :=
  ⟨⟨_, rfl, by simp [withOperands, State.reset, Block.reset], ⟨reset_txn_inv, by decide, by decide⟩⟩,
    ⟨sending 0x06#8 0#16 1#16, _, sending_inv (legal_write _), rfl, by simp [sending]⟩,
    exists_of_ends (by decide +kernel), exists_of_ends (by decide +kernel)⟩

theorem wit_TxTakeHandsOutTheNextByte :
    (sending 0x03#8 0#16 1#16).txn.txPtr.toNat < 8 ∧ (sending 0x03#8 0#16 1#16).txn.state = .tx ∧
    (7#4).toNat < 8 ∧ State.reset.txn.state ≠ .tx ∧ (sending 0x03#8 0#16 1#16).toBlock.Inv :=
  ⟨by decide, rfl, by decide, by simp [State.reset, Block.reset], sending_inv (legal_read _ (by decide))⟩

theorem wit_EightTakesSendTheFrame : (sending 0x03#8 0#16 1#16).toBlock.Inv ∧ (sending 0x03#8 0#16 1#16).txn.state = .tx ∧
    (sending 0x03#8 0#16 1#16).txn.txPtr = 0#4 ∧ 0 < 8 ∧ 7 < 8 :=
  ⟨sending_inv (legal_read _ (by decide)), rfl, rfl, by decide, by decide⟩

theorem wit_RxByteOutsideAwaitIsDiscarded : State.reset.txn.state ≠ .await := by simp [State.reset, Block.reset]

theorem wit_RxByteInAwaitIsStored :
    (awaiting 0x03#8 0#16 1#16 [] 0#9).toBlock.Inv ∧ (awaiting 0x03#8 0#16 1#16 [] 0#9).txn.state = .await ∧
    (awaiting 0x03#8 0#16 1#16 [0x01#8] 0#9).toBlock.Inv ∧ readState.toBlock.Inv ∧ readState.txn.state = .await ∧
    readState.txn.rxLen ≠ 1#9 ∧ readState.txn.rxExpect ≠ 0#9 :=
  ⟨awaiting_none_inv, rfl, awaiting_one_inv, readState_inv, rfl, by decide, by decide⟩

theorem wit_SecondByteFixesTheForm :
    (awaiting 0x03#8 0#16 1#16 [0x01#8] 0#9).toBlock.Inv ∧ (awaiting 0x03#8 0#16 1#16 [0x01#8] 0#9).txn.state = .await ∧
    (awaiting 0x03#8 0#16 1#16 [0x01#8] 0#9).txn.rxLen = 1#9 ∧ (0x83#8 : Byte) = 0x03#8 ||| 0x80#8 ∧
    (0x04#8 : Byte) ≠ 0x03#8 ∧ (0x04#8 : Byte) ≠ 0x03#8 ||| 0x80#8 ∧
    (awaiting 0x06#8 0#16 1#16 [0x01#8] 0#9).toBlock.Inv ∧ (awaiting 0x06#8 0#16 1#16 [0x01#8] 0#9).txn.pendFunc = 0x06#8 :=
  ⟨awaiting_one_inv, rfl, rfl, by decide, by decide, by decide, awaiting_one_write_inv, rfl⟩

theorem wit_ThirdByteFixesTheLength :
    (awaiting 0x03#8 0#16 1#16 [0x01#8, 0x03#8] 0#9).toBlock.Inv ∧
    (awaiting 0x03#8 0#16 1#16 [0x01#8, 0x03#8] 0#9).txn.state = .await ∧
    (awaiting 0x03#8 0#16 1#16 [0x01#8, 0x03#8] 0#9).txn.rxLen = 2#9 ∧
    (awaiting 0x03#8 0#16 1#16 [0x01#8, 0x03#8] 0#9).txn.rx 1 = 0x03#8 ∧
    (awaiting 0x01#8 0#16 1#16 [0x01#8, 0x01#8] 0#9).toBlock.Inv ∧
    (awaiting 0x01#8 0#16 1#16 [0x01#8, 0x01#8] 0#9).txn.rx 1 = 0x01#8 :=
  ⟨awaiting_two_inv, rfl, rfl, by decide +kernel, awaiting_two_coils_inv, by decide +kernel⟩

theorem wit_CrcMismatchFailsFirst : Completing exceptionState 0xF0#8 [0x01#8, 0x83#8, 0x02#8, 0xC0#8, 0xF0#8] ∧
    ¬ TrailerOk [0x01#8, 0x83#8, 0x02#8, 0xC0#8, 0xF0#8] :=
  ⟨exceptionState_completing _, by unfold TrailerOk; decide +kernel⟩

theorem wit_SlaveMismatchFailsNext : Completing otherSlaveState 0xF1#8 [0x02#8, 0x83#8, 0x02#8, 0x30#8, 0xF1#8] ∧
    TrailerOk [0x02#8, 0x83#8, 0x02#8, 0x30#8, 0xF1#8] ∧ byteOf [0x02#8, 0x83#8, 0x02#8, 0x30#8, 0xF1#8] 0 ≠ 0x01#8 :=
  ⟨otherSlaveState_completing, by unfold TrailerOk; decide +kernel, by decide⟩

theorem wit_DeviceExceptionIsRecorded : Completing exceptionState 0xF1#8 [0x01#8, 0x83#8, 0x02#8, 0xC0#8, 0xF1#8] ∧
    TrailerOk [0x01#8, 0x83#8, 0x02#8, 0xC0#8, 0xF1#8] ∧ byteOf [0x01#8, 0x83#8, 0x02#8, 0xC0#8, 0xF1#8] 0 = 0x01#8 ∧
    byteOf [0x01#8, 0x83#8, 0x02#8, 0xC0#8, 0xF1#8] 1 = exceptionState.txn.pendFunc ||| 0x80#8 :=
  ⟨exceptionState_completing _, by unfold TrailerOk; decide +kernel, by decide, by decide⟩

theorem wit_ReadRegistersResponse :
    (Completing readState 0x33#8 [0x01#8, 0x03#8, 0x02#8, 0x12#8, 0x34#8, 0xB5#8, 0x33#8] ∧
      TrailerOk [0x01#8, 0x03#8, 0x02#8, 0x12#8, 0x34#8, 0xB5#8, 0x33#8] ∧
      (byteOf [0x01#8, 0x03#8, 0x02#8, 0x12#8, 0x34#8, 0xB5#8, 0x33#8] 2).toNat = 2 * readState.txn.pendData.toNat ∧
      readState.txn.pendFunc = 0x03#8) ∧
    (Completing shortState 0xF0#8 [0x01#8, 0x03#8, 0x00#8, 0x20#8, 0xF0#8] ∧
      TrailerOk [0x01#8, 0x03#8, 0x00#8, 0x20#8, 0xF0#8] ∧
      (byteOf [0x01#8, 0x03#8, 0x00#8, 0x20#8, 0xF0#8] 2).toNat ≠ 2 * shortState.txn.pendData.toNat) :=
  ⟨⟨readState_completing, by unfold TrailerOk; decide +kernel, by decide, rfl⟩,
    ⟨shortState_completing, by unfold TrailerOk; decide +kernel, by decide⟩⟩

theorem wit_ReadCoilsResponse :
    (Completing coilState 0x48#8 [0x01#8, 0x01#8, 0x01#8, 0x01#8, 0x90#8, 0x48#8] ∧
      TrailerOk [0x01#8, 0x01#8, 0x01#8, 0x01#8, 0x90#8, 0x48#8] ∧
      (byteOf [0x01#8, 0x01#8, 0x01#8, 0x01#8, 0x90#8, 0x48#8] 2).toNat = (coilState.txn.pendData.toNat + 7) / 8 ∧
      coilState.txn.pendFunc = 0x01#8) ∧
    (Completing shortCoilState 0xC8#8 [0x01#8, 0x01#8, 0x01#8, 0xFF#8, 0x11#8, 0xC8#8] ∧
      TrailerOk [0x01#8, 0x01#8, 0x01#8, 0xFF#8, 0x11#8, 0xC8#8] ∧
      (byteOf [0x01#8, 0x01#8, 0x01#8, 0xFF#8, 0x11#8, 0xC8#8] 2).toNat ≠ (shortCoilState.txn.pendData.toNat + 7) / 8) :=
  ⟨⟨coilState_completing, by unfold TrailerOk; decide +kernel, by decide, rfl⟩,
    ⟨shortCoilState_completing, by unfold TrailerOk; decide +kernel, by decide⟩⟩

theorem wit_WriteResponseMustEcho :
    (Completing echoState 0x0B#8 [0x01#8, 0x06#8, 0x00#8, 0x01#8, 0x00#8, 0x03#8, 0x98#8, 0x0B#8] ∧
      TrailerOk [0x01#8, 0x06#8, 0x00#8, 0x01#8, 0x00#8, 0x03#8, 0x98#8, 0x0B#8] ∧ echoState.txn.pendFunc = 0x06#8 ∧
      echoState.txn.txBuf = #v[0x01#8, 0x06#8, 0x00#8, 0x01#8, 0x00#8, 0x03#8, 0x98#8, 0x0B#8]) ∧
    (Completing wrongEchoState 0xEB#8 [0x01#8, 0x05#8, 0x00#8, 0xAC#8, 0x00#8, 0x00#8, 0x0D#8, 0xEB#8] ∧
      TrailerOk [0x01#8, 0x05#8, 0x00#8, 0xAC#8, 0x00#8, 0x00#8, 0x0D#8, 0xEB#8] ∧ wrongEchoState.txn.pendFunc = 0x05#8 ∧
      byteOf [0x01#8, 0x05#8, 0x00#8, 0xAC#8, 0x00#8, 0x00#8, 0x0D#8, 0xEB#8] 4 ≠ wrongEchoState.txn.txBuf[4]) :=
  ⟨⟨echoState_completing, by unfold TrailerOk; decide +kernel, rfl, by decide +kernel⟩,
    ⟨wrongEchoState_completing, by unfold TrailerOk; decide +kernel, rfl, by decide +kernel⟩⟩

theorem wit_WriteSuccessIsAnExactEcho :
    Completing echoState 0x0B#8 [0x01#8, 0x06#8, 0x00#8, 0x01#8, 0x00#8, 0x03#8, 0x98#8, 0x0B#8] ∧
    echoState.txn.pendFunc = 0x06#8 ∧ (∃ t, exec (.rxByte 0x0B#8) echoState = .next t ∧ (t.txn.state == .doneOk) = true) :=
  ⟨echoState_completing, rfl, exists_of_ends (by decide +kernel)⟩

theorem wit_ErrorEntryKeepsTheTransaction :
    (∃ t, readState.toBlock.Inv ∧ exec .rxTimeout readState = .next t ∧ readState.txn.state ≠ .doneErr ∧
      t.txn.state = .doneErr) ∧
    (∃ t, exec (.rxByte 0xF1#8) exceptionState = .next t ∧ (t.txn.state == .doneErr && t.txn.errCode == .deviceException) = true) ∧
    (∃ t, exec (.rxByte 0x00#8) exceptionState = .next t ∧ (t.txn.state == .doneErr && t.txn.errCode.code != 0x13#8) = true) :=
  ⟨⟨_, readState_inv, rfl, by simp [readState, awaiting, awaitTxn], rfl⟩, exists_of_ends (by decide +kernel),
    exists_of_ends (by decide +kernel)⟩

theorem wit_FinishedTransactionsAreStable :
    (∃ s t : State, exec (.rxByte 0x01#8) s = .next t ∧ s.txn.state = .doneErr) ∧
    (∃ s t : State, exec (.clear 0x00#8) s = .next t ∧ s.txn.state = .doneOk) :=
  ⟨⟨{ State.reset with txn := (startedTxn 0x06#8 0#16 1#16).fail .crcMismatch }, _, rfl, rfl⟩,
    ⟨{ State.reset with txn := { startedTxn 0x06#8 0#16 1#16 with state := .doneOk, txPtr := 8#4 } }, _, rfl, rfl⟩⟩

theorem wit_ResultsAreAtomic : readState.toBlock.Inv ∧
    (∃ t, exec (.rxByte 0x33#8) readState = .next t ∧ (t.txn.resultCount != readState.txn.resultCount) = true) :=
  ⟨readState_inv, exists_of_ends (by decide +kernel)⟩

theorem wit_ReadRegistersRoundTrip :
    (awaiting 0x03#8 0#16 1#16 [] 0#9).toBlock.Inv ∧ (awaiting 0x03#8 0#16 1#16 [] 0#9).txn.state = .await ∧
    (awaiting 0x03#8 0#16 1#16 [] 0#9).txn.rxLen = 0#9 ∧ (awaiting 0x03#8 0#16 1#16 [] 0#9).txn.pendFunc = 0x03#8 ∧
    [0x1234#16].length = (awaiting 0x03#8 0#16 1#16 [] 0#9).txn.pendData.toNat ∧
    (awaiting 0x03#8 0#16 125#16 [] 0#9).toBlock.Inv ∧
    (List.replicate 125 0xFFFF#16).length = (awaiting 0x03#8 0#16 125#16 [] 0#9).txn.pendData.toNat :=
  ⟨awaiting_none_inv, rfl, rfl, rfl, rfl,
    awaiting_inv (legal_read _ (by decide)) (by decide) (.inl (by decide)) (by decide +kernel) (by decide), List.length_replicate⟩

theorem wit_ReadCoilsRoundTrip :
    (awaiting 0x01#8 0#16 2000#16 [] 0#9).toBlock.Inv ∧ (awaiting 0x01#8 0#16 2000#16 [] 0#9).txn.state = .await ∧
    (awaiting 0x01#8 0#16 2000#16 [] 0#9).txn.rxLen = 0#9 ∧ (awaiting 0x01#8 0#16 2000#16 [] 0#9).txn.pendFunc = 0x01#8 ∧
    (List.replicate 250 0xA5#8).length = ((awaiting 0x01#8 0#16 2000#16 [] 0#9).txn.pendData.toNat + 7) / 8 ∧
    (awaiting 0x01#8 0#16 1#16 [] 0#9).toBlock.Inv ∧
    [0x02#8].length = ((awaiting 0x01#8 0#16 1#16 [] 0#9).txn.pendData.toNat + 7) / 8 :=
  ⟨awaiting_inv (legal_coils _ (by decide)) (by decide) (.inl (by decide)) (by decide +kernel) (by decide), rfl, rfl, rfl,
    List.length_replicate,
    awaiting_inv (legal_coils _ (by decide)) (by decide) (.inl (by decide)) (by decide +kernel) (by decide), rfl⟩

theorem wit_InvariantIsKeptByEveryStep : ∃ s t : State, s.toBlock.Inv ∧ step s = .next t :=
  ⟨State.reset.post .rxTimeout, _, reset_block_inv, rfl⟩

theorem wit_NoStepFaultsFromTheInvariant : (State.reset.post (.rxByte 0x01#8)).toBlock.Inv := reset_block_inv

theorem wit_ReachableStatesSatisfyRule49 : ∃ t, Reachable t ∧ t.txn.state = .tx := by
  obtain ⟨t, h, ht⟩ := exists_of_ends (r := step ((State.reset.post (.hostWrite 0x000#12 .bits16 0x0006#16))))
    (p := fun t => t.txn.state == .tx) (by decide +kernel)
  exact ⟨t, .step (.post _ .reset) h, by simpa using ht⟩

theorem wit_DecodeEncodeRoundTrip : (Instr.crcByte 0xFF#8).WellFormed = true ∧
    (Instr.memWrite 0x000#12 .bits16 0x0007#16).WellFormed = true ∧
    (Instr.memWrite 0x000#12 .oneLane 0x0003#16).WellFormed = true := by decide

theorem wit_StepRunsTheDecodedEvent : (State.reset.post .txTake).inbox = .txTake :: [] ∧ State.reset.inbox = [] ∧
    (∃ t, exec .rxTimeout State.reset = .next t) := ⟨rfl, rfl, _, rfl⟩

/-! The environment: a run in which the host starts a write, the link takes a byte, and its timer expires. -/

def timedOut : Nat → Event
  | 0 => encode (.encWsr 0x00#8)
  | 1 => .txTake
  | _ => .rxTimeout

theorem timedOut_offered : TakesWhatIsOffered State.reset timedOut := by
  intro n h
  match n with
  | 0 => cases h
  | 1 => rfl
  | n + 2 => cases h

theorem timedOut_ends : EndsEveryTransaction State.reset timedOut := fun n _ => ⟨n + 2, by omega, .inl (.inl rfl)⟩

theorem wit_LinkDuties : LinkDuties State.reset timedOut (takenBytes State.reset timedOut) (deliveredBytes timedOut) :=
  ⟨timedOut_offered, ⟨fun _ => List.prefix_rfl, fun n => ⟨n, List.prefix_rfl⟩⟩,
    ⟨fun _ => List.prefix_rfl, fun n => ⟨n, List.prefix_rfl⟩⟩, timedOut_ends⟩

theorem wit_EveryEventHasAStep : State.reset.toBlock.Inv ∧ TakesWhatIsOffered State.reset timedOut ∧
    timedOut 1 = .txTake := ⟨reset_block_inv, timedOut_offered, rfl⟩

theorem wit_LinkStreamsAreTheBuffers : State.reset.toBlock.Inv ∧ State.reset.txn.state = .idle ∧
    SendsInOrder State.reset timedOut (takenBytes State.reset timedOut) ∧
    DeliversInOrder timedOut (deliveredBytes timedOut) ∧
    (runFrom State.reset timedOut 2).txn.state = .tx ∧ takenBytes State.reset timedOut 2 = [0x01#8] :=
  ⟨reset_block_inv, rfl, wit_LinkDuties.sendsInOrder, wit_LinkDuties.deliversInOrder, rfl, by decide +kernel⟩

theorem wit_LinkDutyEndsEveryTransaction :
    (State.reset.toBlock.Inv ∧ EndsEveryTransaction State.reset timedOut ∧ (runFrom State.reset timedOut 1).busy = true) ∧
    ((sending 0x06#8 0#16 1#16).toBlock.Inv ∧ (sending 0x06#8 0#16 1#16).busy = true ∧
      ∀ m, ¬ LinkEnds (sending 0x06#8 0#16 1#16) (fun _ => .hostRead 0x002#12 .bits16) m ∧
        Event.hostRead 0x002#12 .bits16 ≠ .reset) :=
  ⟨⟨reset_block_inv, timedOut_ends, rfl⟩, sending_inv (legal_write _), rfl, fun m => ⟨by simp [LinkEnds], by simp⟩⟩

end Sys2Proof.Tests
end

section
/-! The scope statements (00_scope.md R11): what a step runs, and what becomes of the pending events. -/

namespace Sys2Proof.Machine

/-- The oldest pending event is taken and decoded (log 1). -/
theorem nextInstr_of_inbox_cons {s : State} {e : Event} {rest : List Event} (h : s.inbox = e :: rest) :
    s.nextInstr = some (decode e, { s with inbox := rest }) := by
  simp [State.nextInstr, h]

theorem nextInstr_of_inbox_nil {s : State} (h : s.inbox = []) : s.nextInstr = none := by
  simp [State.nextInstr, h]

theorem step_of_inbox_cons {s : State} {e : Event} {rest : List Event} (h : s.inbox = e :: rest) :
    step s = exec (decode e) { s with inbox := rest } := by
  simp [step, nextInstr_of_inbox_cons h]

/-- The block has no step of its own (00_scope.md R11). -/
theorem step_of_inbox_nil {s : State} (h : s.inbox = []) : step s = .refused .noEvent := by
  simp [step, nextInstr_of_inbox_nil h]

/-- No effect of an instruction touches the pending events. -/
theorem Effect.inbox_eq {i : Instr} {s t : State} (h : Effect i s t) : t.inbox = s.inbox := by
  cases h <;> rfl

/-- A fetched command word is the raised host write of that word to CMD (30_encoding.md R80; log 12). -/
theorem withFetchWord_eq_raise (s : State) (w : Word) :
    s.withFetchWord 16 w.toNat = s.raise (.hostWrite 0x000#12 .bits16 w) := by
  simp [State.withFetchWord, State.raise]

end Sys2Proof.Machine

open Sys2Proof Sys2Proof.Machine

/-- Settles O56: the step equations of an empty and a nonempty inbox, the inversion lemma `exec_effect` for the frame,
and a fetched word as a raised event. -/
theorem stepRunsTheDecodedEvent : Obligations.StepRunsTheDecodedEvent := by
  refine ⟨fun s e rest h => step_of_inbox_cons h, fun s h => step_of_inbox_nil h,
    fun i s t h => (exec_effect h).inbox_eq, fun s w => ?_⟩
  rw [withFetchWord_eq_raise, step_raise]

end

section
/-! The state statements (10_state.md R21 to R49): what a step can do to the invariant, to `DISCARD` and to `CMD_ERR`,
and the flags derived from the state. -/

namespace Sys2Proof.Machine

/-! The invariant. -/

/-- The invariant is that of group T where the two registers with reserved bits stay. -/
theorem Block.Inv.of_txn {b b' : Block} (h : b.Inv) (ht : b'.txn.Inv) (hi : b'.irqEn = b.irqEn)
    (hc : b'.crcCfg = b.crcCfg) : b'.Inv :=
  ⟨ht, hi ▸ h.irqEnReserved, hc ▸ h.crcCfgReserved⟩

theorem block_reset_inv : Block.reset.Inv := ⟨reset_txn_inv, by decide, by decide⟩

/-- A timeout is recorded with an error code (41_decoder.md R142). -/
theorem timeoutCode_ne_none (t : Transaction) : timeoutCode t ≠ .none := by
  unfold timeoutCode; split <;> simp

/-- Every effect of an instruction keeps the invariant. -/
theorem Effect.inv {i : Instr} {s t : State} (h : Effect i s t) (hs : s.toBlock.Inv) : t.toBlock.Inv := by
  cases h with
  | same | refuse | crcInit | crcByte => exact hs.of_txn hs.txn rfl rfl
  | rw off v r => exact writeRw_inv hs r v
  | start op _ _ _ hop hn => exact hs.of_txn (startedTxn_inv (requestLegal_of_operand hop hn)) rfl rfl
  | clear => exact hs.of_txn reset_txn_inv rfl rfl
  | take _ _ hst => exact hs.of_txn (takeByte_inv hs.txn hst) rfl rfl
  | discard => exact hs.of_txn (discard_inv hs.txn) rfl rfl
  | accept d u _ hst hu => exact hs.of_txn (acceptByte_inv hs.txn hst hu) rfl rfl
  | timeout _ hb => exact hs.of_txn (fail_inv hs.txn ((busy_iff _).1 hb) (timeoutCode_ne_none _)) rfl rfl
  | reset => exact block_reset_inv

/-- A step takes the oldest pending event and runs the instruction it decodes to (log 1). -/
theorem step_next {s t : State} (h : step s = .next t) :
    ∃ e rest, s.inbox = e :: rest ∧ exec (decode e) { s with inbox := rest } = .next t := by
  cases hq : s.inbox with
  | nil => rw [step_of_inbox_nil hq] at h; cases h
  | cons e rest => exact ⟨e, rest, rfl, by rw [← step_of_inbox_cons hq, h]⟩

/-- A step keeps the invariant. -/
theorem step_inv {s t : State} (hs : s.toBlock.Inv) (h : step s = .next t) : t.toBlock.Inv := by
  obtain ⟨e, rest, -, he⟩ := step_next h
  exact (exec_effect he).inv hs

/-- The invariant holds in every reachable state: it does at reset, and raising an event leaves the block. -/
theorem Reachable.inv {s : State} (h : Reachable s) : s.toBlock.Inv := by
  induction h with
  | reset => exact block_reset_inv
  | post e _ ih => exact ih
  | step _ h ih => exact step_inv ih h

/-! Rule R49, on the codes of the fields. -/

theorem Phase.code_toNat_le (p : Phase) : p.code.toNat ≤ 4 := by cases p <;> decide

theorem ErrCode.code_eq_zero_iff (c : ErrCode) : c.code = 0x00#8 ↔ c = .none := by cases c <;> decide

theorem ErrCode.errClass_code_eq_zero_iff (c : ErrCode) : c.errClass.code = 0#2 ↔ c = .none := by cases c <;> decide

/-- The pending function code of a legal request is one of the four the block sends (00_scope.md R2). -/
theorem RequestLegal.op_eq {op : Byte} {field : Word} (h : RequestLegal op field) :
    op = 0x01#8 ∨ op = 0x03#8 ∨ op = 0x05#8 ∨ op = 0x06#8 := by
  rcases h with ⟨rfl, -⟩ | ⟨rfl, -⟩ | rfl | ⟨rfl, -⟩ <;> decide

/-- The invariant contains rule R49 of 10_state.md. -/
theorem Block.Inv.rule49 {b : Block} (h : b.Inv) : b.Rule49 where
  a := b.txn.state.code_toNat_le
  b1 := by rw [h.txn.errClassOfCode, ne_eq, ne_eq, ErrCode.errClass_code_eq_zero_iff, ErrCode.code_eq_zero_iff]
  b2 := by rw [ne_eq, ErrCode.code_eq_zero_iff, h.txn.errOnlyDoneErr, not_not]
  c hx := by rw [h.txn.exCodeOnlyException hx]; rfl
  d hs := by rw [h.txn.idleCleared hs]; exact ⟨rfl, rfl, rfl⟩
  e hs := by
    obtain ⟨hr, hl, -⟩ := h.txn.requestBuilt (by rcases hs with hs | hs | hs | hs <;> simp [hs])
    exact ⟨hr.op_eq, hl⟩
  f hs := (h.txn.offering hs).2.1
  g hs := h.txn.allTaken (.inl hs)
  h := by
    rcases h.txn.lengthBound with ⟨h0, -⟩ | ⟨-, hl, hx⟩
    · exact .inl h0
    · exact .inr ⟨hl, hx⟩
  i hc := by
    by_contra hs
    exact hc (h.txn.noPartialResult hs).1

/-! `DISCARD` (10_state.md R27). -/

/-- What a step does to `DISCARD`: it stays, or a response byte outside AWAIT sets it, or RESET, an accepted CLEAR or an
accepted encode command clears it. -/
theorem Effect.discard_cases {i : Instr} {s t : State} (h : Effect i s t) :
    t.txn.discard = s.txn.discard ∨
    (t.txn.discard = true ∧ s.txn.state ≠ .await ∧ ∃ d, i = .rxByte d) ∨
    (t.txn.discard = false ∧ (i = .reset ∨ i.command? = some (.clear 0x00#8) ∧ t.cmdErr = .ok ∨
      ∃ op, i.command?.bind Instr.encodeOp = some op ∧ t.cmdErr = .ok)) := by
  cases h with
  | discard d hi hst => exact .inr (.inl ⟨rfl, hst, d, hi⟩)
  | reset hi => exact .inr (.inr ⟨rfl, .inl hi⟩)
  | clear hi => exact .inr (.inr ⟨rfl, .inr (.inl ⟨hi, rfl⟩)⟩)
  | start op hi => exact .inr (.inr ⟨rfl, .inr (.inr ⟨op, hi, rfl⟩)⟩)
  | accept d u _ _ hu => exact .inl (acceptByte_frame hu).1
  | rw off v r => exact .inl (congrArg Transaction.discard (writeRw_txn ..))
  | same | refuse | crcInit | crcByte | take | timeout => exact .inl rfl

/-- A response byte outside AWAIT is discarded (41_decoder.md R132). -/
theorem exec_rxByte_of_ne_await {s : State} (d : Byte) (hs : s.txn.state ≠ .await) :
    exec (.rxByte d) s = .next { s with txn := { s.txn with discard := true }, response := .none } :=
  if_neg hs

/-! `CMD_ERR` (10_state.md R28). -/

theorem CmdErr.code_toNat_le (c : CmdErr) : c.code.toNat ≤ 0x05 := by cases c <;> decide

theorem CmdErr.code_eq_zero_iff (c : CmdErr) : c.code = 0x00#8 ↔ c = .ok := by cases c <;> decide

/-- Nothing but a write to CMD and RESET writes `CMD_ERR`. -/
theorem Effect.cmdErr_eq {i : Instr} {s t : State} (h : Effect i s t) (hw : i.writesCmd = false) (hr : i ≠ .reset) :
    t.cmdErr = s.cmdErr := by
  cases h with
  | rw off v r => exact writeRw_cmdErr ..
  | refuse _ hc | start _ _ hc | clear _ hc | crcInit _ hc | crcByte _ _ hc => rw [hw] at hc; cases hc
  | reset hi => exact absurd hi hr
  | same | take | discard | accept | timeout => rfl

/-- A refused write to CMD changes nothing but `CMD_ERR` (60_exceptions.md R201). -/
theorem Effect.block_eq_of_refused {i : Instr} {s t : State} (h : Effect i s t) (hw : i.writesCmd = true)
    (hc : t.cmdErr ≠ .ok) : t.toBlock = { s.toBlock with cmdErr := t.cmdErr } := by
  cases h with
  | same | refuse => rfl
  | start | clear | crcInit | crcByte => exact absurd rfl hc
  | rw off v r hi _ _ hoff => simp [hi, Instr.writesCmd, hoff] at hw
  | take _ hi | discard _ hi | accept _ _ hi | timeout hi | reset hi => rw [hi] at hw; cases hw

/-- `CMD_ERR` after what a meaning answers, where it answers a next state. -/
def cmdErrAfter : Result → Option CmdErr
  | .next t => some t.cmdErr
  | .fault _ | .refused _ => none

/-- Every write to CMD is the command of some word (30_encoding.md R80). -/
theorem exec_eq_command {i : Instr} (h : i.writesCmd = true) : ∃ v, ∀ s, exec i s = command v s := by
  cases i with
  | encRc imm => exact ⟨commandWord imm 0x01#8, fun s => by simp [exec, command]⟩
  | encRhr imm => exact ⟨commandWord imm 0x03#8, fun s => by simp [exec, command]⟩
  | encWsc imm => exact ⟨commandWord imm 0x05#8, fun s => by simp [exec, command]⟩
  | encWsr imm => exact ⟨commandWord imm 0x06#8, fun s => by simp [exec, command]⟩
  | clear imm => exact ⟨commandWord imm 0x10#8, fun s => by simp [exec, command]⟩
  | crcInit imm => exact ⟨commandWord imm 0x20#8, fun s => by simp [exec, command]⟩
  | crcByte d => exact ⟨commandWord d 0x21#8, fun s => by simp [exec, command]⟩
  | memWrite off w v =>
    obtain ⟨rfl, rfl⟩ : off = 0#12 ∧ w = .bits16 := by simpa [Instr.writesCmd] using h
    exact ⟨v, fun s => rfl⟩
  | txTake | rxByte | rxTimeout | reset | memRead => cases h

theorem cmdErrAfter_encodeRequest {s s' : State} (hb : s.busy = s'.busy) (hn : s.reqData = s'.reqData) (op imm : Byte) :
    cmdErrAfter (encodeRequest op imm s) = cmdErrAfter (encodeRequest op imm s') := by
  unfold encodeRequest
  rw [hb, hn]
  split_ifs
  · rfl
  · rfl
  · cases operandError op s'.reqData <;> rfl

theorem cmdErrAfter_execClear {s s' : State} (hb : s.busy = s'.busy) (imm : Byte) :
    cmdErrAfter (execClear imm s) = cmdErrAfter (execClear imm s') := by
  unfold execClear
  rw [hb]
  split_ifs <;> rfl

theorem cmdErrAfter_execCrcInit (imm : Byte) (s s' : State) :
    cmdErrAfter (execCrcInit imm s) = cmdErrAfter (execCrcInit imm s') := by
  unfold execCrcInit
  split_ifs <;> rfl

/-- The outcome of a command depends on its word, on BUSY and on `REQ_DATA` alone (60_exceptions.md R207). -/
theorem cmdErrAfter_command {s s' : State} (hb : s.busy = s'.busy) (hn : s.reqData = s'.reqData) (v : Word) :
    cmdErrAfter (command v s) = cmdErrAfter (command v s') := by
  unfold command
  split_ifs
  · exact cmdErrAfter_encodeRequest hb hn _ _
  · exact cmdErrAfter_encodeRequest hb hn _ _
  · exact cmdErrAfter_encodeRequest hb hn _ _
  · exact cmdErrAfter_encodeRequest hb hn _ _
  · exact cmdErrAfter_execClear hb _
  · exact cmdErrAfter_execCrcInit ..
  · rfl
  · rfl

/-- What a write to CMD leaves in `CMD_ERR` does not depend on what `CMD_ERR` held (70_reset_and_hazards.md R240). -/
theorem cmdErrAfter_exec {i : Instr} {s s' : State} (hw : i.writesCmd = true)
    (h : s.toBlock = { s'.toBlock with cmdErr := s.cmdErr }) : cmdErrAfter (exec i s) = cmdErrAfter (exec i s') := by
  obtain ⟨v, hv⟩ := exec_eq_command hw
  rw [hv, hv]
  exact cmdErrAfter_command (congrArg Block.busy h :) (congrArg Block.reqData h :) v

/-! The flags (10_state.md R23, R29, R30). -/

theorem busy_eq_decide (b : Block) : b.busy = decide (b.txn.state = .tx ∨ b.txn.state = .await) :=
  Bool.eq_iff_iff.2 (by rw [busy_iff, decide_eq_true_iff])

theorem done_eq_decide (b : Block) : b.done = decide (b.txn.state = .doneOk ∨ b.txn.state = .doneErr) :=
  Bool.eq_iff_iff.2 (by rw [done_iff, decide_eq_true_iff])

theorem cmdErrFlag_eq_decide (b : Block) : b.cmdErrFlag = decide (b.cmdErr.code ≠ 0x00#8) :=
  Bool.eq_iff_iff.2 (by rw [Block.cmdErrFlag, bne_iff_ne, decide_eq_true_iff])

/-- STATUS bit by bit: each field stands above the ones before it (10_state.md R30). -/
theorem status_getLsbD (b : Block) (i : Nat) : b.status.getLsbD i =
    if i < 3 then b.txn.state.code.getLsbD i
    else if i = 3 then b.busy
    else if i < 6 then b.txn.errClass.code.getLsbD (i - 4)
    else if i = 6 then b.txn.discard
    else if i = 7 then b.cmdErrFlag
    else decide (i = 8) && b.irq := by
  -- The width of STATUS as the sum of its fields' widths, which the append lemma reads.
  have asSum : b.status.getLsbD i = BitVec.getLsbD (w := 7 + 1 + 1 + 1 + 2 + 1 + 3) b.status i := rfl
  rw [asSum]
  simp only [Block.status, BitVec.getLsbD_append, BitVec.getLsbD_zero, BitVec.getLsbD_ofBool]
  rcases Nat.lt_or_ge i 9 with hi | hi
  · interval_cases i <;> simp
  · simp (disch := omega) only [if_neg, decide_eq_false, Bool.false_and]

/-- A 16-bit write at the offset of an RW register sets that register and is acknowledged (20_memory.md R68, R69). -/
theorem exec_memWrite_rw {r : Reg} (h : r.access = .rw) (v : Word) (s : State) :
    exec (.memWrite r.offset .bits16 v) s =
      .next { s with toBlock := writeRw r v s.toBlock, response := .writeAck } := by
  simp only [exec, execMemWrite, accessedReg, regAt_offset, writeReg, h, if_true]

end Sys2Proof.Machine

open Sys2Proof Sys2Proof.Machine

/-- Settles O51: every effect of an instruction keeps the invariant, and a step runs one instruction. -/
theorem invariantIsKeptByEveryStep : Obligations.InvariantIsKeptByEveryStep := fun _ _ hs h => step_inv hs h

/-- Settles O10, by the three things a step can do to `DISCARD`. -/
theorem discardIsSticky : Obligations.DiscardIsSticky := by
  refine ⟨rfl, fun d s t hs h => ?_, fun i s t h => ?_⟩
  · rw [exec_rxByte_of_ne_await d hs] at h
    cases h; rfl
  · rcases (exec_effect h).discard_cases with he | ⟨ht, hset⟩ | ⟨ht, hclear⟩
    · exact ⟨fun h0 h1 => by simp [he, h0] at h1, fun h1 h0 => by simp [he, h1] at h0⟩
    · exact ⟨fun _ _ => hset, fun _ h0 => by simp [ht] at h0⟩
    · exact ⟨fun _ h1 => by simp [ht] at h1, fun _ _ => hclear⟩

/-- Settles O11: who writes `CMD_ERR`, that a refusal changes nothing else, and what the outcome depends on. -/
theorem cmdErrIsTheLastOutcome : Obligations.CmdErrIsTheLastOutcome := by
  refine ⟨fun i s t h => (exec_effect h).cmdErr_eq, fun i s t h hw => ⟨t.cmdErr.code_toNat_le, fun hc => ?_⟩,
    fun i s s' t t' hw hss' h h' => ?_⟩
  · exact (exec_effect h).block_eq_of_refused hw (mt (CmdErr.code_eq_zero_iff _).2 hc)
  · have := cmdErrAfter_exec hw hss'
    rw [h, h'] at this
    exact Option.some.inj this

/-- Settles O53: reachable states satisfy the invariant, which contains rule R49. -/
theorem reachableStatesSatisfyRule49 : Obligations.ReachableStatesSatisfyRule49 := fun _ h => h.inv.rule49

/-- Settles O8: the fields of the concatenation that STATUS is, with the flags BUSY and IRQ as conditions on STATE. -/
theorem statusWordLayout : Obligations.StatusWordLayout := by
  refine ⟨by decide, rfl, by decide, fun b => ?_⟩
  rw [← busy_eq_decide, ← done_eq_decide, ← cmdErrFlag_eq_decide]
  refine ⟨?_, ?_, ?_, ?_, ?_, ?_, fun i hi => ?_⟩
  · refine BitVec.eq_of_getLsbD_eq fun i hi => ?_
    simp [status_getLsbD, hi]
  · rw [status_getLsbD]; rfl
  · refine BitVec.eq_of_getLsbD_eq fun i hi => ?_
    rw [BitVec.getLsbD_extractLsb', status_getLsbD]
    simp (disch := omega) [hi, if_neg, if_pos]
  · rw [status_getLsbD]; rfl
  · rw [status_getLsbD]; rfl
  · rw [status_getLsbD]; rfl
  · rw [status_getLsbD]
    simp (disch := omega) only [if_neg, decide_eq_false, Bool.false_and]

/-- Settles O9: the level by definition, and the write of IRQ_EN as a write to an RW register. -/
theorem interruptIsALevel : Obligations.InterruptIsALevel := by
  refine ⟨fun b => ?_, fun v s => ⟨_, exec_memWrite_rw (r := .irqEn) rfl v s, ?_⟩⟩
  · rw [Block.irq, Bool.and_eq_true, done_iff]
  · rw [← done_eq_decide]
    simp [Block.irq, Block.done, writeRw]

/-- Settles O50: group T by `reset_txn_inv`, the reserved bits by their reset values. -/
theorem invariantHoldsAtReset : Obligations.InvariantHoldsAtReset := block_reset_inv

end

section
/-! The memory statements (20_memory.md R61 to R72): the register map, which host accesses it admits and what they
answer, and the result registers. -/

namespace Sys2Proof.Machine

/-! The register map (20_memory.md R61). -/

theorem namedReg_eq_none_iff {n : Nat} : namedReg n = none ↔ 19 ≤ n := by
  constructor
  · intro h
    by_contra hn
    interval_cases n <;> cases h
  · intro hn
    obtain ⟨m, rfl⟩ := Nat.exists_eq_add_of_le' hn
    rfl

/-- An offset reaches no register exactly when it is odd or in one of the gaps of the map. -/
theorem regAt_eq_none_iff (off : Offset) : regAt off = none ↔
    off.toNat % 2 = 1 ∨ (0x026 ≤ off.toNat ∧ off.toNat ≤ 0x0FE) ∨ (0x110 ≤ off.toNat ∧ off.toNat ≤ 0x1FE) ∨
    (0x408 ≤ off.toNat ∧ off.toNat ≤ 0x4FE) ∨ (0x5FA ≤ off.toNat ∧ off.toNat ≤ 0x5FE) ∨
    (0x6FA ≤ off.toNat ∧ off.toNat ≤ 0xFFE) := by
  have := off.isLt
  unfold regAt
  split_ifs
  · exact iff_of_true rfl (by omega)
  · rw [namedReg_eq_none_iff]; omega
  iterate 4 · exact iff_of_false (by simp) (by omega)
  · exact iff_of_true rfl (by omega)

/-- A register is found at its own offset and at no other. -/
theorem regAt_eq_some_iff {off : Offset} {r : Reg} : regAt off = some r ↔ off = r.offset :=
  ⟨fun h => (offset_of_regAt h).symm, fun h => h ▸ regAt_offset r⟩

theorem access_eq_wo_iff (r : Reg) : r.access = .wo ↔ r = .cmd := ⟨access_wo, fun h => h ▸ rfl⟩

theorem access_eq_rw_iff (r : Reg) : r.access = .rw ↔ r = .reqAddr ∨ r = .reqData ∨ r = .irqEn ∨ r = .crcCfg := by
  cases r <;> simp [Reg.access]

/-! Which accesses the map admits (20_memory.md R62 to R64). -/

theorem accessedReg_eq_some_iff {off : Offset} {w : AccessWidth} {r : Reg} :
    accessedReg off w = some r ↔ w = .bits16 ∧ off = r.offset := by
  simp [accessedReg, regAt_eq_some_iff]

/-- A read is admitted exactly when it reaches a register other than CMD. -/
theorem readAdmitted_iff {off : Offset} {w : AccessWidth} :
    ReadAdmitted off w ↔ ∃ r, accessedReg off w = some r ∧ r ≠ .cmd := by
  have hmap : (∃ r, regAt off = some r) ↔ ¬ regAt off = none := Option.ne_none_iff_exists'.symm
  rw [regAt_eq_none_iff] at hmap
  have hcmd : ∀ r, regAt off = some r → (r ≠ .cmd ↔ off ≠ 0x000#12) := fun r hr =>
    not_congr ⟨fun h => regAt_cmd (h ▸ hr), fun h => by simpa [h, regAt_zero, eq_comm] using hr⟩
  have := off.isLt
  constructor
  · rintro ⟨rfl, heven, h0, hrange⟩
    obtain ⟨r, hr⟩ := hmap.2 (by omega)
    exact ⟨r, hr, (hcmd r hr).2 h0⟩
  · rintro ⟨r, hr, hne⟩
    obtain ⟨rfl, hat⟩ := accessedReg_some hr
    have := hmap.1 ⟨r, hat⟩
    exact ⟨rfl, by omega, (hcmd r hat).1 hne, by omega⟩

/-- A write is admitted exactly when it reaches CMD or an RW register. -/
theorem writeAdmitted_iff {off : Offset} {w : AccessWidth} :
    WriteAdmitted off w ↔ ∃ r, accessedReg off w = some r ∧ (r.access = .wo ∨ r.access = .rw) := by
  simp only [access_eq_wo_iff, access_eq_rw_iff, accessedReg_eq_some_iff, WriteAdmitted]
  constructor
  · rintro ⟨rfl, rfl | rfl | rfl | rfl | rfl⟩
    · exact ⟨.cmd, ⟨rfl, rfl⟩, by simp⟩
    · exact ⟨.reqAddr, ⟨rfl, rfl⟩, by simp⟩
    · exact ⟨.reqData, ⟨rfl, rfl⟩, by simp⟩
    · exact ⟨.irqEn, ⟨rfl, rfl⟩, by simp⟩
    · exact ⟨.crcCfg, ⟨rfl, rfl⟩, by simp⟩
  · rintro ⟨r, ⟨rfl, rfl⟩, rfl | rfl | rfl | rfl | rfl⟩ <;> exact ⟨rfl, by simp [Reg.offset]⟩

/-! What a host access answers (20_memory.md R65 to R69). -/

/-- A read that reaches a register with a value returns it (20_memory.md R67). -/
theorem exec_memRead_of_value {off : Offset} {w : AccessWidth} {r : Reg} {v : Word} {s : State}
    (hr : accessedReg off w = some r) (hv : r.value16 s.toBlock = some v) :
    exec (.memRead off w) s = .next { s with response := .readData v } := by
  simp only [exec, execMemRead, hr, Option.bind_some, hv]

/-- A read that is not admitted raises BusError (20_memory.md R65). -/
theorem exec_memRead_of_not_admitted {off : Offset} {w : AccessWidth} (h : ¬ ReadAdmitted off w) (s : State) :
    exec (.memRead off w) s = .next { s with response := .busError off } := by
  have hn : (accessedReg off w).bind (Reg.value16 s.toBlock) = none := by
    refine Option.bind_eq_none_iff.2 fun r hr => value16_eq_none.2 ?_
    by_contra hne
    exact h (readAdmitted_iff.2 ⟨r, hr, hne⟩)
  simp only [exec, execMemRead, hn, busError_eq]

/-- A 16-bit read at a register's offset presents its value (20_memory.md R67). -/
theorem readsAs_offset {s : State} {r : Reg} {v : Word} (h : r.value16 s.toBlock = some v) : ReadsAs s r.offset v :=
  ⟨_, exec_memRead_of_value (accessedReg_eq_some_iff.2 ⟨rfl, rfl⟩) h, rfl, rfl⟩

theorem encodeRequest_acknowledged (op imm : Byte) (s : State) :
    ∃ t, encodeRequest op imm s = .next t ∧ t.response = .writeAck := by
  rcases encodeRequest_cases op imm s with ⟨c, -, he⟩ | ⟨-, -, -, he⟩ <;> exact ⟨_, he, rfl⟩

theorem execClear_acknowledged (imm : Byte) (s : State) : ∃ t, execClear imm s = .next t ∧ t.response = .writeAck := by
  unfold execClear
  split_ifs <;> exact ⟨_, rfl, rfl⟩

theorem execCrcInit_acknowledged (imm : Byte) (s : State) :
    ∃ t, execCrcInit imm s = .next t ∧ t.response = .writeAck := by
  unfold execCrcInit
  split_ifs <;> exact ⟨_, rfl, rfl⟩

/-- Every word written to CMD is acknowledged, performed or refused (60_exceptions.md R200; log 4). -/
theorem command_acknowledged (v : Word) (s : State) : ∃ t, command v s = .next t ∧ t.response = .writeAck := by
  unfold command
  split_ifs
  iterate 4 · exact encodeRequest_acknowledged ..
  · exact execClear_acknowledged ..
  · exact execCrcInit_acknowledged ..
  · exact ⟨_, rfl, rfl⟩
  · exact ⟨_, rfl, rfl⟩

/-- A write that is admitted is acknowledged (20_memory.md R68). -/
theorem exec_memWrite_of_admitted {off : Offset} {w : AccessWidth} (h : WriteAdmitted off w) (v : Word) (s : State) :
    ∃ t, exec (.memWrite off w v) s = .next t ∧ t.response = .writeAck := by
  obtain ⟨r, hr, ha⟩ := writeAdmitted_iff.1 h
  simp only [exec, execMemWrite, hr, writeReg]
  rcases ha with ha | ha <;> rw [ha]
  · exact command_acknowledged v s
  · exact ⟨_, rfl, rfl⟩

/-- A write that is not admitted raises BusError (20_memory.md R64, R65). -/
theorem exec_memWrite_of_not_admitted {off : Offset} {w : AccessWidth} (h : ¬ WriteAdmitted off w) (v : Word)
    (s : State) : exec (.memWrite off w v) s = .next { s with response := .busError off } := by
  simp only [exec, execMemWrite]
  cases hr : accessedReg off w with
  | none => rfl
  | some r =>
    have ha : r.access = .ro := by
      have hn : ¬ (r.access = .wo ∨ r.access = .rw) := fun ha => h (writeAdmitted_iff.2 ⟨r, hr, ha⟩)
      cases hx : r.access <;> simp [hx] at hn ⊢
    simp only [writeReg, ha, busError_eq]

/-! The result registers (20_memory.md R72). -/

/-- A step that ends in DONE_OK decoded the frame in AWAIT, or left the result registers. -/
theorem Effect.await_or_results_eq {i : Instr} {s t : State} (h : Effect i s t) (hd : t.txn.state = .doneOk) :
    s.txn.state = .await ∨ (t.txn.resultCount = s.txn.resultCount ∧ t.txn.resultReg = s.txn.resultReg ∧
      t.txn.resultCoil = s.txn.resultCoil) := by
  cases h with
  | accept d u _ hs => exact .inl hs
  | start | clear | reset => cases hd
  | rw off v r => simp only [writeRw_txn, and_self, or_true]
  | same | refuse | crcInit | crcByte | take | discard | timeout => exact .inr ⟨rfl, rfl, rfl⟩

/-- Outside DONE_OK every result register reads zero. -/
theorem Transaction.Inv.results_zero {t : Transaction} (h : t.Inv) (hs : t.state ≠ .doneOk) :
    t.resultCount = 0#16 ∧ (∀ i : Fin 125, t.resultReg[i] = 0#16) ∧ (∀ k : Fin 125, t.resultCoil[k] = 0#16) := by
  obtain ⟨hc, hr, hk⟩ := h.noPartialResult hs
  exact ⟨hc, fun i => by simp [hr], fun k => by simp [hk]⟩

/-- In DONE_OK a result register holds its two bytes of the response, the first one high, and zero beyond the quantity
(10_state.md R44). -/
theorem Transaction.Inv.resultReg_toNat {t : Transaction} (h : t.Inv) (hs : t.state = .doneOk) (i : Fin 125) :
    t.resultReg[i].toNat = if t.pendFunc = 0x03#8 ∧ i.val < t.pendData.toNat then
      256 * (t.rx (3 + 2 * i.val)).toNat + (t.rx (4 + 2 * i.val)).toNat else 0 := by
  rw [h.resultRegs hs i, apply_ite BitVec.toNat, joinBytes_toNat]
  rfl

end Sys2Proof.Machine

open Sys2Proof Sys2Proof.Machine

/-- Settles O3: each row by `regAt_offset`, the gaps and the access rights by the lemmas above. -/
theorem registerMapIsTheTable : Obligations.RegisterMapIsTheTable := by
  refine ⟨⟨regAt_offset .cmd, regAt_offset .status, regAt_offset .errCode, regAt_offset .exCode, regAt_offset .cmdErr,
      regAt_offset .slave, regAt_offset .reqAddr, regAt_offset .reqData, regAt_offset .pendFunc, regAt_offset .pendAddr,
      regAt_offset .pendData, regAt_offset .txLen, regAt_offset .txPtr, regAt_offset .rxLen, regAt_offset .rxExpect,
      regAt_offset .resultCount, regAt_offset .irqEn, regAt_offset .crcCfg, regAt_offset .crcValue⟩,
    fun i => regAt_offset (.txBuf i), fun i => regAt_offset (.rxBuf i), fun i => regAt_offset (.resultReg i),
    fun k => regAt_offset (.resultCoil k), regAt_eq_none_iff, fun r => ⟨access_eq_wo_iff r, access_eq_rw_iff r⟩⟩

/-- Settles O5: an access is admitted exactly when it reaches a register with the right, and else raises BusError. -/
theorem busErrorExactlyWhenNotAdmitted : Obligations.BusErrorExactlyWhenNotAdmitted := by
  refine ⟨fun off w s h => ?_, fun _ _ s h => ⟨_, exec_memRead_of_not_admitted h s, rfl, rfl⟩,
    fun _ _ v s h => exec_memWrite_of_admitted h v s,
    fun _ _ v s h => ⟨_, exec_memWrite_of_not_admitted h v s, rfl, rfl⟩⟩
  obtain ⟨r, hr, hne⟩ := readAdmitted_iff.1 h
  obtain ⟨v, hv⟩ := Option.ne_none_iff_exists'.1 (mt (value16_eq_none (b := s.toBlock)).1 hne)
  exact ⟨_, v, exec_memRead_of_value hr hv, rfl, rfl⟩

/-- Settles O47: outside DONE_OK the invariant makes the results zero, and a step into DONE_OK that changes them came
from AWAIT, with the values the invariant gives them. -/
theorem resultsAreAtomic : Obligations.ResultsAreAtomic := by
  intro i s t hs h hne
  have ht := ((exec_effect h).inv hs).txn
  by_cases hd : t.txn.state = .doneOk
  · rcases (exec_effect h).await_or_results_eq hd with hw | ⟨hc, hr, hk⟩
    · obtain ⟨hc, hr, hk⟩ := hs.txn.results_zero (by simp [hw])
      exact .inl ⟨hw, hd, hc, hr, hk, ht.resultCounted hd, ht.resultReg_toNat hd, ht.resultCoils hd⟩
    · simp [hc, hr, hk] at hne
  · exact .inr (ht.results_zero hd)

/-- Settles O4: each register read at its offset, the reserved bits of IRQ_EN and CRC_CFG masked. -/
theorem registersReadAsPresented : Obligations.RegistersReadAsPresented := fun _ =>
  ⟨readsAs_offset (r := .status) rfl, readsAs_offset (r := .errCode) rfl, readsAs_offset (r := .exCode) rfl,
    readsAs_offset (r := .cmdErr) rfl, readsAs_offset (r := .slave) rfl, readsAs_offset (r := .reqAddr) rfl,
    readsAs_offset (r := .reqData) rfl, readsAs_offset (r := .pendFunc) rfl, readsAs_offset (r := .pendAddr) rfl,
    readsAs_offset (r := .pendData) rfl, readsAs_offset (r := .txLen) rfl, readsAs_offset (r := .txPtr) rfl,
    readsAs_offset (r := .rxLen) rfl, readsAs_offset (r := .rxExpect) rfl, readsAs_offset (r := .resultCount) rfl,
    readsAs_offset (r := .irqEn) (congrArg some (mask_bit0 _)),
    readsAs_offset (r := .crcCfg) (congrArg some (mask_bits1_0 _)), readsAs_offset (r := .crcValue) rfl,
    fun i => readsAs_offset (r := .txBuf i) rfl, fun i => readsAs_offset (r := .rxBuf i) rfl,
    fun i => readsAs_offset (r := .resultReg i) rfl, fun k => readsAs_offset (r := .resultCoil k) rfl⟩

/-- Settles O6: a write at an RW register's offset is `writeRw`, which masks the reserved bits. -/
theorem rwWritesSetOneRegister : Obligations.RwWritesSetOneRegister := fun v s =>
  ⟨⟨_, exec_memWrite_rw (r := .reqAddr) rfl v s, rfl⟩, ⟨_, exec_memWrite_rw (r := .reqData) rfl v s, rfl⟩,
    ⟨_, exec_memWrite_rw (r := .irqEn) rfl v s, by rw [← mask_bit0]; rfl⟩,
    ⟨_, exec_memWrite_rw (r := .crcCfg) rfl v s, by rw [← mask_bits1_0]; rfl⟩⟩

end

section
/-! The encoding statements (30_encoding.md R80 to R93): the decoder against the encoder, and the dispatch of a command
word. -/

namespace Sys2Proof

/-! The decoder against the encoder (30_encoding.md R80, R81; log 6). -/

/-- A decoded command is encoded as the write of its word to CMD. -/
theorem encode_of_decodeCommand {v : Word} {i : Instr} (h : decodeCommand v = .ok i) :
    encode i = .hostWrite 0x000#12 .bits16 v := by
  have hop : ∀ op, commandOp v = op → commandEvent (commandImm v) op = .hostWrite 0x000#12 .bits16 v := by
    rintro _ rfl
    rw [commandEvent, commandWord_fields]
  unfold decodeCommand at h
  split_ifs at h with h1 h3 h5 h6 h10 h20 h21 <;> cases h
  · exact hop _ h1
  · exact hop _ h3
  · exact hop _ h5
  · exact hop _ h6
  · exact hop _ h10
  · exact hop _ h20
  · exact hop _ h21

/-- A host write is well formed as a MemWrite exactly when it is no write of a defined command word to CMD. -/
theorem memWrite_wellFormed_iff {off : Offset} {w : AccessWidth} {v : Word} :
    (Instr.memWrite off w v).WellFormed = true ↔ ¬ (off = 0x000#12 ∧ w = .bits16 ∧ commandOp v ∈ definedOps) := by
  simp [Instr.WellFormed, commandOp, imp_iff_not_or, or_assoc]

/-- A host write decodes to the command of its word, or stays a MemWrite, which is then well formed. -/
theorem decodeHostWrite_cases (off : Offset) (w : AccessWidth) (v : Word) :
    (off = 0x000#12 ∧ w = .bits16 ∧ decodeCommand v = .ok (decodeHostWrite off w v)) ∨
    (decodeHostWrite off w v = .memWrite off w v ∧ (Instr.memWrite off w v).WellFormed = true) := by
  unfold decodeHostWrite
  split_ifs with hc
  · obtain ⟨rfl, rfl⟩ := hc
    cases hd : decodeCommand v with
    | ok i => exact .inl ⟨rfl, rfl, rfl⟩
    | error e =>
      have hop := (decodeCommand_error_iff v).1 ⟨e, hd⟩
      exact .inr ⟨rfl, memWrite_wellFormed_iff.2 fun h => hop h.2.2⟩
  · exact .inr ⟨rfl, memWrite_wellFormed_iff.2 fun h => hc ⟨h.1, h.2.1⟩⟩

/-- A well-formed MemWrite is what its own event decodes to. -/
theorem decodeHostWrite_of_wellFormed {off : Offset} {w : AccessWidth} {v : Word}
    (h : (Instr.memWrite off w v).WellFormed = true) : decodeHostWrite off w v = .memWrite off w v := by
  rcases decodeHostWrite_cases off w v with ⟨rfl, rfl, hd⟩ | ⟨he, -⟩
  · have hop : commandOp v ∈ definedOps := by
      by_contra hn
      obtain ⟨e, he⟩ := (decodeCommand_error_iff v).2 hn
      rw [he] at hd; cases hd
    exact absurd ⟨rfl, rfl, hop⟩ (memWrite_wellFormed_iff.1 h)
  · exact he

theorem decode_encode {i : Instr} (h : i.WellFormed = true) : decode (encode i) = i := by
  cases i with
  | memWrite off w v => exact decodeHostWrite_of_wellFormed h
  | encRc | encRhr | encWsc | encWsr | clear | crcInit | crcByte =>
    simp [encode, commandEvent, decode, decodeHostWrite, decodeCommand]
  | txTake | rxByte | rxTimeout | reset | memRead => rfl

theorem decode_wellFormed (e : Event) : (decode e).WellFormed = true := by
  cases e with
  | hostWrite off w v =>
    rcases decodeHostWrite_cases off w v with ⟨-, -, hd⟩ | ⟨he, hw⟩
    · exact decodeCommand_wellFormed hd
    · rw [decode, he, hw]
  | hostRead | txTake | rxByte | rxTimeout | reset => rfl

theorem encode_decode (e : Event) : encode (decode e) = e := by
  cases e with
  | hostWrite off w v =>
    rcases decodeHostWrite_cases off w v with ⟨rfl, rfl, hd⟩ | ⟨he, -⟩
    · exact encode_of_decodeCommand hd
    · rw [decode, he]; rfl
  | hostRead | txTake | rxByte | rxTimeout | reset => rfl

end Sys2Proof

namespace Sys2Proof.Machine

/-! The dispatch of a command word (30_encoding.md R81; 60_exceptions.md R202). -/

/-- A 16-bit write to CMD is the dispatch of its word. -/
theorem exec_memWrite_cmd (v : Word) (s : State) : exec (.memWrite 0x000#12 .bits16 v) s = command v s := rfl

/-- The dispatch runs the command the word decodes to. -/
theorem command_eq_exec {v : Word} {i : Instr} (h : decodeCommand v = .ok i) (s : State) : command v s = exec i s := by
  unfold decodeCommand at h
  unfold command
  split_ifs at h ⊢ <;> cases h <;> rfl

/-- The dispatch refuses a word whose opcode is not in the command map. -/
theorem command_of_undefined {v : Word} (h : commandOp v ∉ definedOps) (s : State) :
    command v s = refuseCommand .undefinedOp s := by
  simp only [definedOps, List.mem_cons, List.not_mem_nil, or_false, not_or] at h
  simp only [command, h, if_false]

end Sys2Proof.Machine

open Sys2Proof Sys2Proof.Machine

/-- Settles O54: both directions of decoder against encoder, and that what the decoder gives is well formed. -/
theorem decodeEncodeRoundTrip : Obligations.DecodeEncodeRoundTrip :=
  ⟨fun _ => decode_encode, fun e => ⟨decode_wellFormed e, encode_decode e⟩⟩

/-- Settles O7: a write to CMD is the dispatch of its word, which runs what the word decodes to. -/
theorem commandDispatch : Obligations.CommandDispatch := by
  intro v s
  have run : ∀ i, decodeCommand v = .ok i → exec (.memWrite 0x000#12 .bits16 v) s = exec i s := fun i h =>
    (exec_memWrite_cmd v s).trans (command_eq_exec h s)
  have op : ∀ o, v.extractLsb' 0 8 = o → commandOp v = o := fun _ h => h
  refine ⟨fun h => run _ ?_, fun h => run _ ?_, fun h => run _ ?_, fun h => run _ ?_, fun h => run _ ?_,
    fun h => run _ ?_, fun h => run _ ?_, fun h => ?_⟩
  iterate 7 · simp [decodeCommand, op _ h, commandImm]
  · exact ⟨_, (exec_memWrite_cmd v s).trans (command_of_undefined h s), rfl, rfl⟩

/-- Settles O55, on the words of spec/opcode_table.json. -/
theorem commandWordsDecode : Obligations.CommandWordsDecode := by
  unfold Obligations.CommandWordsDecode
  decide

end

section
/-! The encoding statements about whole read responses, delivered byte by byte (30_encoding.md R86, R87; 41_decoder.md
R132 to R139). -/

namespace Sys2Proof.Machine

/-! The decoder on a response with the byte count its request asks for. -/

/-- A complete frame with correct CRC and slave and the request's own function code is handed to that function's decoder
(41_decoder.md R136). -/
theorem Completing.complete_of_ok {s : State} {d : Byte} {f : List Byte} (h : Completing s d f) (ht : TrailerOk f)
    (h0 : byteOf f 0 = Config.slaveId) (h1 : byteOf f 1 = s.txn.pendFunc) : complete (s.txn.storeByte d) =
      if s.txn.pendFunc = fcReadRegs then decRhr (s.txn.storeByte d)
      else if s.txn.pendFunc = fcReadCoils then decRc (s.txn.storeByte d)
      else if s.txn.pendFunc = fcWriteReg then .ok (decWsr (s.txn.storeByte d))
      else if s.txn.pendFunc = fcWriteCoil then .ok (decWsc (s.txn.storeByte d))
      else .error .noPendingFunction := by
  have hne : s.txn.pendFunc ≠ exceptionCode s.txn.pendFunc := ne_exceptionCode h.collecting.request.1
  unfold TrailerOk at ht
  rw [h.complete_eq, if_neg (not_not.2 ht), if_neg (not_not.2 h0), if_neg (h1 ▸ hne)]

/-- The quantity of a legal read of registers (30_encoding.md R84). -/
theorem RequestLegal.readRegs_le {n : Word} (h : RequestLegal fcReadRegs n) : n.toNat ≤ 125 := by
  obtain ⟨-, -, hn⟩ | ⟨hf, -⟩ | hf | ⟨hf, -⟩ := h
  · exact hn
  all_goals exact absurd hf (by decide)

/-- The quantity of a legal read of coils (30_encoding.md R84). -/
theorem RequestLegal.readCoils_le {n : Word} (h : RequestLegal fcReadCoils n) : n.toNat ≤ 2000 := by
  obtain ⟨hf, -⟩ | ⟨-, -, hn⟩ | hf | ⟨hf, -⟩ := h
  · exact absurd hf (by decide)
  · exact hn
  all_goals exact absurd hf (by decide)

/-- The byte count `n` is the one the pending read asks for: 2N for N registers, (N + 7) / 8 for N coils
(30_encoding.md R86, R87). -/
def ReadCount (t : Transaction) (n : Nat) : Prop :=
  (t.pendFunc = fcReadRegs ∧ n = 2 * t.pendData.toNat) ∨ (t.pendFunc = fcReadCoils ∧ n = (t.pendData.toNat + 7) / 8)

theorem ReadCount.isRead {t : Transaction} {n : Nat} (h : ReadCount t n) :
    t.pendFunc = fcReadRegs ∨ t.pendFunc = fcReadCoils := h.imp And.left And.left

/-- The byte count of a legal read fits its byte. -/
theorem ReadCount.le {t : Transaction} {n : Nat} (h : ReadCount t n) (hr : RequestLegal t.pendFunc t.pendData) :
    n ≤ 250 := by
  obtain ⟨hp, hn⟩ | ⟨hp, hn⟩ := h <;> rw [hp] at hr
  · have := hr.readRegs_le; omega
  · have := hr.readCoils_le; omega

/-- The byte that completes a read response with correct CRC, slave, function code and byte count ends the transaction
with success (41_decoder.md R138, R139). -/
theorem Completing.succeeds_of_readCount {s : State} {d : Byte} {f : List Byte} (h : Completing s d f)
    (ht : TrailerOk f) (h0 : byteOf f 0 = Config.slaveId) (h1 : byteOf f 1 = s.txn.pendFunc)
    (hn : ReadCount s.txn (byteOf f 2).toNat) : ∃ t, exec (.rxByte d) s = .next t ∧ EndsInSuccess s f t := by
  have hreq : RequestLegal s.txn.pendFunc s.txn.pendData := h.collecting.request.1
  have hrx : (s.txn.storeByte d).rx 2 = byteOf f 2 := h.rx 2
  rw [h.exec_eq, h.complete_of_ok ht h0 h1]
  obtain ⟨hp, hc⟩ | ⟨hp, hc⟩ := hn
  · rw [if_pos hp, decRhr_of_eq (by rw [hrx, hc, storeByte_pendData]) (hp ▸ hreq).readRegs_le]
    exact ⟨_, rfl, endsInSuccess_of_succeed h _ _ _⟩
  · rw [if_neg (by rw [hp]; decide), if_pos hp,
      decRc_of_eq (by rw [hrx, hc, storeByte_pendData]) (hp ▸ hreq).readCoils_le]
    exact ⟨_, rfl, endsInSuccess_of_succeed h _ _ _⟩

/-! The frames. -/

/-- The response with the data bytes `data` to a read of function code `fc`, of which ADU_RSP03 and ADU_RSP01 are the
two kinds (30_encoding.md R86, R87, R90). -/
def readFrame (fc : Byte) (data : List Byte) : List Byte :=
  withTrailer ([Config.slaveId, fc, BitVec.ofNat 8 data.length] ++ data)

/-- The data bytes of register values, high byte first (30_encoding.md R86). -/
def registerBytes (values : List Word) : List Byte := values.flatMap fun v => [hiByte v, loByte v]

theorem registerBytes_length (values : List Word) : (registerBytes values).length = 2 * values.length := by
  simp [registerBytes, List.length_flatMap, Nat.mul_comm]

/-- Data bytes 2i and 2i + 1 are the bytes of value i. -/
theorem joinBytes_registerBytes (values : List Word) (i : Nat) :
    joinBytes (byteOf (registerBytes values) (2 * i)) (byteOf (registerBytes values) (2 * i + 1)) =
      values.getD i 0x0000#16 := by
  induction values generalizing i with
  | nil => simp [registerBytes, byteOf, joinBytes]
  | cons v vs ih =>
    cases i with
    | zero => exact joinBytes_bytes v
    | succ i => exact ih i

theorem aduRsp03_eq_readFrame (values : List Word) : aduRsp03 values = readFrame fcReadRegs (registerBytes values) := by
  rw [readFrame, registerBytes_length]; rfl

theorem aduRsp01_eq_readFrame (data : List Byte) : aduRsp01 data = readFrame fcReadCoils data := rfl

theorem readFrame_length (fc : Byte) (data : List Byte) : (readFrame fc data).length = 5 + data.length := by
  simp [readFrame, withTrailer]; omega

/-- A read response is its header, its data with the trailer's low byte, and the byte that completes it. -/
theorem readFrame_split (fc : Byte) (data : List Byte) : ∃ lo hi, readFrame fc data =
    [Config.slaveId, fc, BitVec.ofNat 8 data.length] ++ (data ++ [lo]) ++ [hi] :=
  ⟨_, _, by simp only [readFrame, withTrailer, List.append_assoc, List.cons_append, List.nil_append]; rfl⟩

/-- A data byte of a read response stands behind the three bytes of its header. -/
theorem byteOf_readFrame (fc : Byte) {data : List Byte} {i : Nat} (hi : i < data.length) :
    byteOf (readFrame fc data) (3 + i) = byteOf data i := by
  rw [readFrame, withTrailer, byteOf_append_left (by simp; omega)]
  exact byteOf_append_right i

/-! Their delivery. -/

theorem receive_singleton (d : Byte) (s : State) : receive [d] s = exec (.rxByte d) s := by
  simp only [receive, List.map_cons, List.map_nil, execAll]
  cases exec (.rxByte d) s <;> rfl

/-- A read response with the byte count the request asks for, delivered byte by byte, ends in DONE_OK with its data in
the receive buffer. -/
theorem receive_readFrame {s : State} {data : List Byte} (h : s.toBlock.Inv) (hs : s.txn.state = .await)
    (hl : s.txn.rxLen = 0#9) (hn : ReadCount s.txn data.length) :
    ∃ t, receive (readFrame s.txn.pendFunc data) s = .next t ∧ t.txn.Inv ∧ t.txn.state = .doneOk ∧
      t.txn.pendFunc = s.txn.pendFunc ∧ t.txn.pendData = s.txn.pendData ∧ t.txn.rxLen.toNat = 5 + data.length ∧
      (∀ i, i < data.length → t.txn.rx (3 + i) = byteOf data i) ∧ t.toBlock = { s.toBlock with txn := t.txn } := by
  have hle := hn.le (h.txn.requestBuilt (by simp [hs])).1
  have hcount : (BitVec.ofNat 8 data.length).toNat = data.length := by
    rw [BitVec.toNat_ofNat]; omega
  obtain ⟨lo, hi, hf⟩ := readFrame_split s.txn.pendFunc data
  obtain ⟨u, hu, hlast, hpf, -, hpd, hub⟩ := receive_toLast Config.slaveId (BitVec.ofNat 8 data.length) hi
    (data ++ [lo]) h hs hl hn.isRead (by simp [hcount, Nat.add_comm])
  rw [← hf] at hlast
  have hun : ReadCount u.txn (byteOf (readFrame s.txn.pendFunc data) 2).toNat := by
    have h2 : byteOf (readFrame s.txn.pendFunc data) 2 = BitVec.ofNat 8 data.length := rfl
    rwa [ReadCount, hpf, hpd, h2, hcount]
  obtain ⟨t, ht, hok⟩ := hlast.succeeds_of_readCount (trailerOk_withTrailer _) rfl hpf.symm hun
  obtain ⟨hst, -, -, -, hrl, hrx, htf, -, htd, -, -, -, -, -, htb⟩ := hok
  have hlen := readFrame_length s.txn.pendFunc data
  refine ⟨t, ?_, ((exec_effect ht).inv hlast.inv).txn, hst, htf.trans hpf, htd.trans hpd, hrl.trans hlen,
    fun i hi => ?_, by rw [htb, hub]⟩
  · rw [hf, receive_append hu, receive_singleton, ht]
  · rw [hrx _ (by omega), byteOf_readFrame _ hi]

end Sys2Proof.Machine

open Sys2Proof Sys2Proof.Machine

/-- Settles O48: the response ends in DONE_OK, where the invariant gives the result registers from the received bytes. -/
theorem readRegistersRoundTrip : Obligations.ReadRegistersRoundTrip := by
  intro s values h hs hl hp hv
  have hdata : (registerBytes values).length = 2 * values.length := registerBytes_length values
  obtain ⟨t, ht, hinv, hst, htf, htd, hrl, hrx, htb⟩ :=
    receive_readFrame (data := registerBytes values) h hs hl (.inl ⟨hp, by rw [hdata, hv]⟩)
  rw [hp] at ht htf
  refine ⟨t, ht ▸ congrArg (receive · s) (aduRsp03_eq_readFrame values), hst, ?_, fun i => ?_, by omega, htb⟩
  · rw [hinv.resultCounted hst, if_pos (.inl htf), htd]
  · rw [hinv.resultRegs hst i, htd, ← hv]
    split_ifs with hi
    · rw [hrx _ (by omega), show 4 + 2 * i.val = 3 + (2 * i.val + 1) by omega, hrx _ (by omega),
        joinBytes_registerBytes]
    · have hge : values.length ≤ i.val := Nat.le_of_not_lt fun hlt => hi ⟨htf, hlt⟩
      rw [List.getD_eq_default _ _ hge]

/-- Settles O49: the response ends in DONE_OK, where the invariant gives the result coils from the received bytes. -/
theorem readCoilsRoundTrip : Obligations.ReadCoilsRoundTrip := by
  intro s data h hs hl hp hv
  obtain ⟨t, ht, hinv, hst, htf, htd, -, hrx, htb⟩ := receive_readFrame (data := data) h hs hl (.inr ⟨hp, hv⟩)
  rw [hp] at ht htf
  refine ⟨t, ht, hst, ?_, fun n hn => ?_, htb⟩
  · rw [hinv.resultCounted hst, if_pos (.inr htf), htd]
  · have hcoil := hinv.resultCoils hst ⟨n / 16, by omega⟩ ⟨n % 16, by omega⟩
    have hget : t.txn.resultCoil[n / 16]?.getD 0#16 = t.txn.resultCoil[n / 16] := by
      rw [Vector.getElem?_eq_getElem (by omega), Option.getD_some]
    rw [hget]
    refine hcoil.trans ?_
    simp only [Nat.div_add_mod, htd]
    by_cases hlt : n < s.txn.pendData.toNat
    · rw [responseCoil, hrx _ (by omega), decide_eq_true ⟨htf, hlt⟩, decide_eq_true hlt]; rfl
    · rw [decide_eq_false fun hc => hlt hc.2, decide_eq_false hlt, Bool.false_and, Bool.false_and]

end

section
/-! The encoder statements (40_encoder.md R110 to R115): what each encode command does to the block, the frame it builds,
and who changes the request. -/

namespace Sys2Proof.Machine

/-! The operand `REQ_DATA` of each encode command (30_encoding.md R84). -/

theorem operandError_readRegs (n : Word) :
    operandError fcReadRegs n = if n.toNat = 0 ∨ 125 < n.toNat then some .badCount else none := by
  have hc : ¬ (1 ≤ n.toNat ∧ n.toNat ≤ 125) ↔ n.toNat = 0 ∨ 125 < n.toNat := by omega
  simp [operandError, fcReadRegs, fcReadCoils, fcWriteCoil, hc]

theorem operandError_readCoils (n : Word) :
    operandError fcReadCoils n = if n.toNat = 0 ∨ 2000 < n.toNat then some .badCount else none := by
  have hc : ¬ (1 ≤ n.toNat ∧ n.toNat ≤ 2000) ↔ n.toNat = 0 ∨ 2000 < n.toNat := by omega
  simp [operandError, fcReadRegs, fcReadCoils, fcWriteCoil, hc]

theorem operandError_writeCoil (n : Word) :
    operandError fcWriteCoil n = if n ≠ 0#16 ∧ n ≠ 1#16 then some .badCoilValue else none := by
  simp [operandError, fcReadRegs, fcReadCoils, fcWriteCoil]

/-- Every value of a register can be written. -/
theorem operandError_writeReg (n : Word) : operandError fcWriteReg n = none := by
  simp [operandError, fcReadRegs, fcReadCoils, fcWriteCoil, fcWriteReg]

theorem dataField_writeCoil (n : Word) :
    dataField fcWriteCoil n = if n = 1#16 then 0xFF00#16 else 0x0000#16 := if_pos rfl

theorem dataField_of_ne_writeCoil {op : Byte} (h : op ≠ fcWriteCoil) (n : Word) : dataField op n = n := if_neg h

/-- The two bytes of a coil's data field. -/
theorem hiByte_coilField (p : Prop) [Decidable p] :
    hiByte (if p then 0xFF00#16 else 0x0000#16) = if p then 0xFF#8 else 0x00#8 := apply_ite ..

theorem loByte_coilField (p : Prop) [Decidable p] : loByte (if p then 0xFF00#16 else 0x0000#16) = 0x00#8 := by
  split_ifs <;> rfl

/-! The encode procedure (40_encoder.md R110). -/

/-- Where the operand is refused with `c` exactly under `p`, the encode procedure completes with the block its checks, in
their order, give. -/
theorem encodeRequest_toBlock {op : Byte} {s : State} {p : Prop} [Decidable p] {c : CmdErr}
    (h : operandError op s.reqData = if p then some c else none) (imm : Byte) :
    ∃ t, encodeRequest op imm s = .next t ∧ t.toBlock =
      if imm ≠ 0x00#8 then { s.toBlock with cmdErr := .reservedImm }
      else if s.txn.state = .tx ∨ s.txn.state = .await then { s.toBlock with cmdErr := .busy }
      else if p then { s.toBlock with cmdErr := c }
      else { s.toBlock with cmdErr := .ok, txn := startedTxn op s.reqAddr (dataField op s.reqData) } := by
  simp only [encodeRequest, h, busy_iff]
  split_ifs <;> exact ⟨_, rfl, rfl⟩

/-- The word of a command written to CMD performs it (30_encoding.md R80, R81). -/
theorem exec_memWrite_commandWord {imm op : Byte} {i : Instr} (h : decodeCommand (commandWord imm op) = .ok i)
    (s : State) : exec (.memWrite 0x000#12 .bits16 (imm ++ op)) s = exec i s :=
  (exec_memWrite_cmd _ s).trans (command_eq_exec h s)

/-! The frame (30_encoding.md R82, R90). -/

/-- The CRC of a frame with its trailer is zero (42_crc.md R171). -/
theorem crc16Modbus_withTrailer (m : List Byte) : crc16Modbus (withTrailer m) = 0x0000#16 := by
  simp only [withTrailer, crc16Modbus_append, List.foldl_cons, List.foldl_nil, updateR_loByte, updateR_self]

theorem requestFrame_toList (op : Byte) (a field : Word) :
    (requestFrame op a field).toList = withTrailer (requestPdu op a field) := rfl

/-! Who changes the request (40_encoder.md R115). -/

/-- What a step does to the request: it stays, or RESET, an accepted CLEAR or an accepted encode command writes it. -/
theorem Effect.request_cases {i : Instr} {s t : State} (h : Effect i s t) :
    (t.txn.txBuf = s.txn.txBuf ∧ t.txn.txLen = s.txn.txLen ∧ t.txn.pendFunc = s.txn.pendFunc ∧
      t.txn.pendAddr = s.txn.pendAddr ∧ t.txn.pendData = s.txn.pendData) ∨
    i = .reset ∨ (i.command? = some (.clear 0x00#8) ∧ t.cmdErr = .ok) ∨
    ∃ op, i.command?.bind Instr.encodeOp = some op ∧ t.cmdErr = .ok := by
  cases h with
  | start op hi => exact .inr (.inr (.inr ⟨op, hi, rfl⟩))
  | clear hi => exact .inr (.inr (.inl ⟨hi, rfl⟩))
  | reset hi => exact .inr (.inl hi)
  | accept d u _ _ hu =>
    obtain ⟨-, hf, ha, hd, hb, hl, -⟩ := acceptByte_frame hu
    exact .inl ⟨hb, hl, hf, ha, hd⟩
  | rw off v r => simp only [writeRw_txn, and_self, true_or]
  | same | refuse | crcInit | crcByte | take | discard | timeout => exact .inl ⟨rfl, rfl, rfl, rfl, rfl⟩

/-- An accepted encode command starts the transaction of its operands. -/
theorem Effect.txn_of_encoded {i : Instr} {s t : State} {op : Byte} (h : Effect i s t)
    (hop : i.command?.bind Instr.encodeOp = some op) (hok : t.cmdErr = .ok) :
    t.txn = startedTxn op s.reqAddr (dataField op s.reqData) := by
  cases h with
  | start op' hi =>
    obtain rfl : op' = op := Option.some.inj (hi.symm.trans hop)
    rfl
  | refuse c _ hc => exact absurd hok hc
  | rw off v r hi _ _ hoff => simp [hi, Instr.command?, hoff] at hop
  | same _ _ hi | clear hi | crcInit hi | crcByte _ hi | take _ hi | discard _ hi | accept _ _ hi | timeout hi
  | reset hi => rw [hi] at hop; cases hop

end Sys2Proof.Machine

open Sys2Proof Sys2Proof.Machine

/-- Settles O12: the encode procedure with the operand's check for a quantity of registers. -/
theorem encRhrBuildsTheRequest : Obligations.EncRhrBuildsTheRequest := by
  refine ⟨fun imm => exec_memWrite_commandWord (by simp [decodeCommand]), fun imm s => ?_⟩
  have h := encodeRequest_toBlock (operandError_readRegs s.reqData) imm
  rw [dataField_of_ne_writeCoil (by decide)] at h
  exact h

/-- Settles O13: the encode procedure with the operand's check for a quantity of coils. -/
theorem encRcBuildsTheRequest : Obligations.EncRcBuildsTheRequest := by
  refine ⟨fun imm => exec_memWrite_commandWord (by simp [decodeCommand]), fun imm s => ?_⟩
  have h := encodeRequest_toBlock (operandError_readCoils s.reqData) imm
  rw [dataField_of_ne_writeCoil (by decide)] at h
  exact h

/-- Settles O14: the encode procedure with an operand that is never refused, so that the refusal code is immaterial. -/
theorem encWsrBuildsTheRequest : Obligations.EncWsrBuildsTheRequest := by
  refine ⟨fun imm => exec_memWrite_commandWord (by simp [decodeCommand]), fun imm s => ?_⟩
  have h := encodeRequest_toBlock (p := False) (c := .ok) (operandError_writeReg s.reqData) imm
  rw [dataField_of_ne_writeCoil (by decide), if_neg not_false] at h
  exact h

/-- Settles O15: the encode procedure with the operand's check for a coil value, and the two bytes of the data field. -/
theorem encWscBuildsTheRequest : Obligations.EncWscBuildsTheRequest := by
  refine ⟨fun imm => exec_memWrite_commandWord (by simp [decodeCommand]), fun imm s => ?_⟩
  have h := encodeRequest_toBlock (operandError_writeCoil s.reqData) imm
  simp only [dataField_writeCoil, startedTxn, requestFrame, requestPdu, hiByte_coilField, loByte_coilField] at h
  exact h

/-- Settles O17: who changes the request by the effects of a step; the frame of an accepted encode command is its
request with the CRC trailer, whose CRC is zero. -/
theorem encoderInvariants : Obligations.EncoderInvariants := by
  refine ⟨fun i s t h hne => ?_, fun i s t op h hop hok => ?_⟩
  · rcases (exec_effect h).request_cases with ⟨hb, hl, hf, ha, hd⟩ | hwho
    · simp [hb, hl, hf, ha, hd] at hne
    · exact hwho
  · rw [(exec_effect h).txn_of_encoded hop hok, startedTxn_txBuf, requestFrame_toList]
    exact ⟨crc16Modbus_withTrailer _, rfl, rfl, rfl, rfl, rfl, rfl⟩

/-- Settles O16, on the frames of 40_encoder.md R111 to R114 and 95_test_vectors.md L2.1. -/
theorem exampleRequestFrames : Obligations.ExampleRequestFrames := by
  unfold Obligations.ExampleRequestFrames
  decide +kernel

end

section
/-! The decoder statements (41_decoder.md R131 to R143): what TX_TAKE, RX_BYTE and RX_TIMEOUT do, position by position of
a response, and that no step faults. -/

namespace Sys2Proof.Machine

/-! The link events, in the states where they act. -/

/-- In TX the link gets the next request byte (41_decoder.md R131). -/
theorem exec_txTake_of_tx {s : State} (hs : s.txn.state = .tx) (hp : s.txn.txPtr.toNat < 8) :
    exec .txTake s = .next { s with txn := s.txn.takeByte, response := .txByte s.txn.txBuf[s.txn.txPtr.toNat] } := by
  rw [exec, execTxTake, if_pos hs, dif_pos hp]

/-- Outside TX no byte is offered (00_scope.md R12 (d); log 3). -/
theorem exec_txTake_of_ne_tx {s : State} (hs : s.txn.state ≠ .tx) : exec .txTake s = .refused .notEnabled :=
  if_neg hs

/-- In AWAIT a response byte is accepted (41_decoder.md R132). -/
theorem exec_rxByte_of_await {s : State} {d : Byte} {u : Transaction} (hs : s.txn.state = .await)
    (hu : acceptByte d s.txn = .ok u) : exec (.rxByte d) s = .next { s with txn := u, response := .none } := by
  rw [exec, execRxByte, if_pos hs, hu]; rfl

/-- A transaction in flight ends at a timeout (41_decoder.md R142). -/
theorem exec_rxTimeout_of_busy {s : State} (h : s.busy = true) :
    exec .rxTimeout s = .next { s with txn := s.txn.fail (timeoutCode s.txn), response := .none } :=
  if_pos h

/-- With no transaction in flight a timeout has no effect (41_decoder.md R142). -/
theorem exec_rxTimeout_of_not_busy {s : State} (h : ¬ s.busy = true) :
    exec .rxTimeout s = .next { s with response := .none } :=
  if_neg h

/-! No step faults (41_decoder.md R143). -/

/-- A write to CMD always has a next state: the command it encodes is performed or refused. -/
theorem exec_total_of_writesCmd {i : Instr} (h : i.writesCmd = true) (s : State) : ∃ t, exec i s = .next t := by
  obtain ⟨v, hv⟩ := exec_eq_command h
  obtain ⟨t, ht, -⟩ := command_acknowledged v s
  exact ⟨t, (hv s).trans ht⟩

/-- From the invariant every instruction has a next state, but for TX_TAKE outside TX. -/
theorem exec_total {i : Instr} {s : State} (h : s.toBlock.Inv) (hi : i = .txTake → s.txn.state = .tx) :
    ∃ t, exec i s = .next t := by
  cases i with
  | encRc | encRhr | encWsc | encWsr | clear | crcInit | crcByte => exact exec_total_of_writesCmd rfl s
  | txTake => exact ⟨_, exec_txTake_of_tx (hi rfl) (h.txn.offering (hi rfl)).1⟩
  | rxByte d =>
    by_cases hs : s.txn.state = .await
    · obtain ⟨u, hu⟩ := acceptByte_total d h.txn hs
      exact ⟨_, exec_rxByte_of_await hs hu⟩
    · exact ⟨_, exec_rxByte_of_ne_await d hs⟩
  | rxTimeout =>
    by_cases hb : s.busy = true
    · exact ⟨_, exec_rxTimeout_of_busy hb⟩
    · exact ⟨_, exec_rxTimeout_of_not_busy hb⟩
  | reset => exact ⟨_, rfl⟩
  | memRead off w =>
    simp only [exec, execMemRead]
    split <;> exact ⟨_, rfl⟩
  | memWrite off w v =>
    by_cases hw : WriteAdmitted off w
    · obtain ⟨t, ht, -⟩ := exec_memWrite_of_admitted hw v s
      exact ⟨t, ht⟩
    · exact ⟨_, exec_memWrite_of_not_admitted hw v s⟩

/-- From the invariant no instruction faults: it has a next state, or is a TX_TAKE that is refused. -/
theorem exec_ne_fault {s : State} (h : s.toBlock.Inv) (i : Instr) (f : Fault) : exec i s ≠ .fault f := by
  by_cases hi : i = .txTake → s.txn.state = .tx
  · obtain ⟨t, ht⟩ := exec_total h hi
    simp [ht]
  · obtain ⟨rfl, hs⟩ := Classical.not_imp.1 hi
    simp [exec_txTake_of_ne_tx hs]

/-- From the invariant no step faults. -/
theorem step_ne_fault {s : State} (h : s.toBlock.Inv) (f : Fault) : step s ≠ .fault f := by
  cases hq : s.inbox with
  | nil => simp [step_of_inbox_nil hq]
  | cons e rest =>
    rw [step_of_inbox_cons hq]
    exact exec_ne_fault (s := { s with inbox := rest }) h _ f

/-- The response fits the receive buffer. -/
theorem Transaction.Inv.length_le {t : Transaction} (h : t.Inv) : t.rxLen.toNat ≤ 260 ∧ t.rxExpect.toNat ≤ 260 := by
  rcases h.lengthBound with ⟨h0, hl⟩ | ⟨-, hl, hx⟩
  · simp only [h0, BitVec.toNat_ofNat]; omega
  · omega

/-! The request bytes (41_decoder.md R131). -/

/-- With `TX_PTR` = p in TX the link gets byte p, and the request is sent with byte 7. -/
theorem exec_txTake_of_ptr {s : State} {p : Nat} (hs : s.txn.state = .tx) (hl : s.txn.txLen = 8#4)
    (hp : s.txn.txPtr = BitVec.ofNat 4 p) (hlt : p < 8) :
    exec .txTake s = .next { s with
      txn := { s.txn with txPtr := BitVec.ofNat 4 (p + 1), state := if p = 7 then .await else .tx }
      response := .txByte s.txn.txBuf[p] } := by
  have hptr : s.txn.txPtr.toNat = p := by rw [hp, BitVec.toNat_ofNat]; omega
  have hnext : s.txn.txPtr + 1#4 = BitVec.ofNat 4 (p + 1) := by rw [hp, BitVec.ofNat_add]
  have hlast : BitVec.ofNat 4 (p + 1) = 8#4 ↔ p = 7 := by
    rw [← BitVec.toNat_inj]; simp only [BitVec.toNat_ofNat]; omega
  rw [exec_txTake_of_tx hs (by omega)]
  simp only [Transaction.takeByte, hptr, hnext, hl, hlast, hs]

/-- From `TX_PTR` = p with n + 1 request bytes left or more, n + 1 takes hand out byte p + n last, and leave AWAIT after
byte 7. -/
theorem execAll_txTake (n : Nat) {s : State} {p : Nat} (hs : s.txn.state = .tx) (hl : s.txn.txLen = 8#4)
    (hp : s.txn.txPtr = BitVec.ofNat 4 p) (hn : p + n < 8) :
    ∃ t, execAll (List.replicate (n + 1) .txTake) s = .next t ∧ t.response = .txByte s.txn.txBuf[p + n] ∧
      t.toBlock = { s.toBlock with txn := { s.txn with
        txPtr := BitVec.ofNat 4 (p + n + 1), state := if p + n = 7 then .await else .tx } } := by
  induction n generalizing s p with
  | zero => exact ⟨_, by rw [List.replicate_succ, execAll, exec_txTake_of_ptr hs hl hp hn]; rfl, rfl, rfl⟩
  | succ n ih =>
    have hp7 : p ≠ 7 := by omega
    have hi : p + 1 + n = p + (n + 1) := by omega
    obtain ⟨t, ht, hr, hb⟩ := ih (p := p + 1) (s := { s with
      txn := { s.txn with txPtr := BitVec.ofNat 4 (p + 1), state := if p = 7 then .await else .tx }
      response := .txByte s.txn.txBuf[p] }) (if_neg hp7) hl rfl (by omega)
    simp only [hi] at hr hb
    exact ⟨t, by rw [List.replicate_succ, execAll, exec_txTake_of_ptr hs hl hp (by omega)]; exact ht, hr, hb⟩

/-! An accepted response byte, by what becomes of the transaction (41_decoder.md R132 to R135). -/

/-- The length checks of a stored byte fail with BAD_FUNCTION at the second byte, or leave some `RX_EXPECT`: 5 or 8 at
the second byte, 5 plus the byte count at the third, and else the one before. -/
theorem frameByte_expect (t : Transaction) :
    (t.rxLen = 2#9 ∧ t.rx 1 ≠ t.pendFunc ∧ t.rx 1 ≠ exceptionCode t.pendFunc ∧ frameByte t = t.fail .badFunction) ∨
    (¬ (t.rxLen = 2#9 ∧ t.rx 1 ≠ t.pendFunc ∧ t.rx 1 ≠ exceptionCode t.pendFunc) ∧
      ∃ x, frameByte t = { t with rxExpect := x } ∧ (x = t.rxExpect ∨ t.rxLen = 2#9 ∧ (x = 5#9 ∨ x = 8#9) ∨
        t.rxLen = 3#9 ∧ t.rxExpect = 0#9 ∧ x = 5#9 + (t.rx 2).setWidth 9)) := by
  rcases frameByte_cases t with hbad | ⟨h2, h1, he⟩ | ⟨h2, -, h1, -, he⟩ | ⟨-, -, h1, -, he⟩ | ⟨h3, h0, he⟩ |
    ⟨h2, -, he⟩
  · exact .inl hbad
  · exact .inr ⟨fun ⟨_, _, hx⟩ => hx h1, _, he, .inr (.inl ⟨h2, .inl rfl⟩)⟩
  · exact .inr ⟨fun ⟨_, hp, _⟩ => hp h1, _, he, .inr (.inl ⟨h2, .inr rfl⟩)⟩
  · exact .inr ⟨fun ⟨_, hp, _⟩ => hp h1, _, he, .inl rfl⟩
  · exact .inr ⟨fun ⟨h2, _⟩ => absurd (h3.symm.trans h2) (by decide), _, he, .inr (.inr ⟨h3, h0, rfl⟩)⟩
  · exact .inr ⟨fun ⟨h, _⟩ => h2 h, _, he, .inl rfl⟩

/-- The byte `d` is the second one and no function code the transaction expects (41_decoder.md R133). -/
def Transaction.RejectsByte (t : Transaction) (d : Byte) : Prop :=
  t.rxLen = 1#9 ∧ d ≠ t.pendFunc ∧ d ≠ exceptionCode t.pendFunc

/-- The next byte is the last one of the frame (41_decoder.md R135). -/
def Transaction.AtLastByte (t : Transaction) : Prop :=
  t.rxExpect ≠ 0#9 ∧ t.rxLen.toNat + 1 = t.rxExpect.toNat

/-- What an accepted byte makes of the transaction, with the condition under which it does. -/
inductive Accepted (s : State) (d : Byte) : Transaction → Prop where
  /-- The function code is refused. -/
  | rejected : s.txn.RejectsByte d → Accepted s d ((s.txn.storeByte d).fail .badFunction)
  /-- The frame is complete and was decoded. -/
  | decoded (u : Transaction) : Completing s d (s.txn.frameWith d) → complete (s.txn.storeByte d) = .ok u → Accepted s d u
  /-- The byte is stored, `RX_EXPECT` is what the bytes so far tell, and more are awaited. -/
  | awaited (x : BitVec 9) : ¬ s.txn.RejectsByte d → ¬ s.txn.AtLastByte →
      (s.txn.rxLen ≠ 1#9 → ¬ (s.txn.rxLen = 2#9 ∧ s.txn.rxExpect = 0#9) → x = s.txn.rxExpect) →
      Accepted s d { s.txn.storeByte d with rxExpect := x }

theorem storeByte_rxLen_eq_iff (d : Byte) (t : Transaction) (n : BitVec 9) :
    (t.storeByte d).rxLen = n + 1#9 ↔ t.rxLen = n := by
  rw [storeByte_rxLen, BitVec.add_left_inj]

/-- The stored byte is the one in the place it was stored at. -/
theorem storeByte_rx_self {d : Byte} {t : Transaction} {i : Nat} (h : t.rxLen.toNat < 260) (hi : t.rxLen.toNat = i) :
    (t.storeByte d).rx i = d := by
  rw [storeByte_rx _ _ _ h, if_pos hi.symm]

/-- After the length checks, a byte that is not the last one leaves a length that is unknown or not yet reached. -/
theorem awaits_of_expect {t : Transaction} {d : Byte} {x : BitVec 9} (h : t.rxLen.toNat < 260) (hlast : ¬ t.AtLastByte)
    (hx : x = t.rxExpect ∨ (t.storeByte d).rxLen = 2#9 ∧ (x = 5#9 ∨ x = 8#9) ∨
      (t.storeByte d).rxLen = 3#9 ∧ t.rxExpect = 0#9 ∧ x = 5#9 + ((t.storeByte d).rx 2).setWidth 9) :
    ¬ (x ≠ 0#9 ∧ (t.storeByte d).rxLen = x) := by
  rintro ⟨h0, hl⟩
  rcases hx with rfl | ⟨h2, rfl | rfl⟩ | ⟨h3, -, rfl⟩
  · exact hlast ⟨h0, by rw [← hl, storeByte_rxLen_toNat d t h]⟩
  · exact absurd (h2.symm.trans hl) (by decide)
  · exact absurd (h2.symm.trans hl) (by decide)
  · have := congrArg BitVec.toNat (h3.symm.trans hl)
    have := ((t.storeByte d).rx 2).isLt
    simp only [BitVec.toNat_add, BitVec.toNat_setWidth, BitVec.toNat_ofNat] at *
    omega

/-- THE inversion lemma of an accepted byte. -/
theorem acceptByte_accepted {s : State} {d : Byte} {u : Transaction} (h : s.toBlock.Inv) (hs : s.txn.state = .await)
    (hu : acceptByte d s.txn = .ok u) : Accepted s d u := by
  by_cases hlast : s.txn.AtLastByte
  · have hc : Completing s d (s.txn.frameWith d) := ⟨h, hs, hlast.1, hlast.2, rfl⟩
    exact .decoded u hc (hc.acceptByte_eq ▸ hu)
  obtain ⟨hroom, hf⟩ := acceptByte_ok hu
  have hrej : s.txn.RejectsByte d ↔ (s.txn.storeByte d).rxLen = 2#9 ∧ (s.txn.storeByte d).rx 1 ≠ s.txn.pendFunc ∧
      (s.txn.storeByte d).rx 1 ≠ exceptionCode s.txn.pendFunc := by
    rw [Transaction.RejectsByte, ← storeByte_rxLen_eq_iff d s.txn 1#9]
    refine and_congr_right fun h2 => ?_
    have h1 : s.txn.rxLen.toNat = 1 := congrArg BitVec.toNat ((storeByte_rxLen_eq_iff d s.txn 1#9).1 h2)
    rw [storeByte_rx_self hroom h1]
  rcases frameByte_expect (s.txn.storeByte d) with ⟨h2, hp, hx, he⟩ | ⟨hn, x, he, hx⟩
  · rw [he, finishByte, if_pos (fail_state ..)] at hf
    cases hf
    exact .rejected (hrej.2 ⟨h2, hp, hx⟩)
  · have hw := awaits_of_expect hroom hlast hx
    rw [he, finishByte, if_neg (by simp [hs]), if_neg hw] at hf
    cases hf
    refine .awaited x (mt hrej.1 hn) hlast fun h1 h2 => ?_
    rcases hx with hx | ⟨h2', -⟩ | ⟨h3', h0, -⟩
    · exact hx
    · exact absurd ((storeByte_rxLen_eq_iff d s.txn 1#9).1 h2') h1
    · exact absurd ⟨(storeByte_rxLen_eq_iff d s.txn 2#9).1 h3', h0⟩ h2

/-- A decoded frame ends the transaction and leaves `RX_EXPECT` (41_decoder.md R136). -/
theorem complete_ends {t u : Transaction} (h : complete t = .ok u) : u.state ≠ .await ∧ u.rxExpect = t.rxExpect := by
  obtain ⟨-, ⟨c, -, -, -, rfl⟩ | rfl | ⟨-, -, -, rfl⟩ | ⟨-, -, -, rfl⟩ | ⟨-, -, rfl⟩⟩ := complete_cases h <;>
    exact ⟨nofun, rfl⟩

/-- The transaction leaves AWAIT exactly at a refused function code or at the last byte. -/
theorem Accepted.state_ne_await_iff {s : State} {d : Byte} {u : Transaction} (h : Accepted s d u)
    (hs : s.txn.state = .await) : u.state ≠ .await ↔ s.txn.RejectsByte d ∨ s.txn.AtLastByte := by
  cases h with
  | rejected hr => exact iff_of_true nofun (.inl hr)
  | decoded u hc hu => exact iff_of_true (complete_ends hu).1 (.inr ⟨hc.known, hc.last⟩)
  | awaited x hr hl => exact iff_of_false (not_not.2 hs) (not_or.2 ⟨hr, hl⟩)

/-- `RX_EXPECT` changes at the second byte and at a third byte before which it is unknown, and at no other. -/
theorem Accepted.rxExpect_eq {s : State} {d : Byte} {u : Transaction} (h : Accepted s d u) (h1 : s.txn.rxLen ≠ 1#9)
    (h2 : ¬ (s.txn.rxLen = 2#9 ∧ s.txn.rxExpect = 0#9)) : u.rxExpect = s.txn.rxExpect := by
  cases h with
  | rejected hr => rfl
  | decoded u _ hu => exact (complete_ends hu).2
  | awaited x _ _ hx => exact hx h1 h2

/-- A byte after which more are awaited changes the receive buffer and its two lengths. -/
theorem Accepted.eq_of_await {s : State} {d : Byte} {u : Transaction} (h : Accepted s d u) (hu : u.state = .await) :
    u = { s.txn with rxBuf := u.rxBuf, rxLen := u.rxLen, rxExpect := u.rxExpect } := by
  cases h with
  | rejected => cases hu
  | decoded u _ he => exact absurd hu (complete_ends he).1
  | awaited => rfl

/-- In AWAIT a response byte always has a next state, by one of the cases of `Accepted`, and the invariant holds of it. -/
theorem exec_rxByte_accepted (d : Byte) {s : State} (h : s.toBlock.Inv) (hs : s.txn.state = .await) :
    ∃ u, exec (.rxByte d) s = .next { s with txn := u, response := .none } ∧ acceptByte d s.txn = .ok u ∧
      Accepted s d u ∧ u.Inv := by
  obtain ⟨u, hu⟩ := acceptByte_total d h.txn hs
  exact ⟨u, exec_rxByte_of_await hs hu, hu, acceptByte_accepted h hs hu, acceptByte_inv h.txn hs hu⟩

/-- An accepted byte is stored at `RX_LEN` and counted. -/
theorem acceptByte_stores {d : Byte} {t u : Transaction} (h : acceptByte d t = .ok u) :
    u.rxLen.toNat = t.rxLen.toNat + 1 ∧ ∀ i, u.rx i = if i = t.rxLen.toNat then d else t.rx i := by
  obtain ⟨hroom, -⟩ := acceptByte_ok h
  obtain ⟨-, -, -, -, -, -, -, hb, hl⟩ := acceptByte_frame h
  refine ⟨by rw [hl, storeByte_rxLen_toNat d t hroom], fun i => ?_⟩
  rw [Transaction.rx, hb, ← Transaction.rx, storeByte_rx d t i hroom]

/-- A byte that is neither refused nor the last one is awaited on. -/
theorem Accepted.await_of_not {s : State} {d : Byte} {u : Transaction} (h : Accepted s d u) (hs : s.txn.state = .await)
    (hr : ¬ s.txn.RejectsByte d) (hl : ¬ s.txn.AtLastByte) : u.state = .await :=
  not_not.1 (mt (h.state_ne_await_iff hs).1 (not_or.2 ⟨hr, hl⟩))

/-- A refused function code fails the transaction with BAD_FUNCTION (41_decoder.md R133). -/
theorem Accepted.eq_fail_of_rejects {s : State} {d : Byte} {u : Transaction} (h : Accepted s d u)
    (hr : s.txn.RejectsByte d) : u = (s.txn.storeByte d).fail .badFunction := by
  cases h with
  | rejected => rfl
  | decoded u hc =>
    have hlen := hc.length
    have h1 : s.txn.rxLen.toNat = 1 := congrArg BitVec.toNat hr.1
    omega
  | awaited x hn => exact absurd hr hn

/-! The second and the third byte (41_decoder.md R133, R134). -/

/-- The expected length of a read response, from its second byte on: unknown before the byte count. -/
theorem expectedLength_of_read {t : Transaction} (h2 : 2 ≤ t.rxLen.toNat) (h1 : t.rx 1 = t.pendFunc)
    (hp : t.pendFunc = fcReadCoils ∨ t.pendFunc = fcReadRegs) :
    expectedLength t = if t.rxLen.toNat < 3 then 0 else 5 + (t.rx 2).toNat := by
  rw [expectedLength_of_two h2, h1, if_neg (by rcases hp with h | h <;> rw [h] <;> decide),
    if_neg (by rcases hp with h | h <;> rw [h] <;> decide)]

/-- The expected length of a write response, from its second byte on. -/
theorem expectedLength_of_write {t : Transaction} (h2 : 2 ≤ t.rxLen.toNat) (h1 : t.rx 1 = t.pendFunc)
    (hp : t.pendFunc = fcWriteCoil ∨ t.pendFunc = fcWriteReg) : expectedLength t = 8 := by
  rw [expectedLength_of_two h2, h1, if_neg (by rcases hp with h | h <;> rw [h] <;> decide), if_pos hp]

/-- Where the bytes so far tell no length, the next byte is not the last one. -/
theorem Transaction.Inv.not_atLastByte {t : Transaction} (h : t.Inv) (hs : t.state = .await)
    (h0 : expectedLength t = 0) : ¬ t.AtLastByte := fun hl => by
  have hk := h.lengthKnown hs
  have := hl.2
  omega

/-- A second byte that is refused ends the transaction in error, with the two bytes received. -/
theorem endsInError_of_rejects {s : State} {d : Byte} (h : s.txn.Inv) (hs : s.txn.state = .await)
    (hr : s.txn.RejectsByte d) :
    EndsInError s [s.txn.rx 0, d] 2 0x10 0
      { s with txn := (s.txn.storeByte d).fail .badFunction, response := .none } := by
  have h1 : s.txn.rxLen.toNat = 1 := congrArg BitVec.toNat hr.1
  have hroom : s.txn.rxLen.toNat < 260 := by omega
  obtain ⟨hc, hreg, hcoil⟩ := h.results_zero (by simp [hs])
  have hex : s.txn.exCode = 0#8 := (inFlight_facts h (.inr hs)).2.1
  refine ⟨rfl, rfl, rfl, congrArg BitVec.toNat hex, ?_, fun i hi => ?_, hc, hreg, hcoil, rfl, rfl, rfl, rfl, rfl, rfl, rfl,
    rfl, rfl⟩
  · exact (storeByte_rxLen_toNat d _ hroom).trans (by rw [h1]; rfl)
  · refine (storeByte_rx d _ i hroom).trans ?_
    rw [h1]
    match i, hi with
    | 0, _ => rfl
    | 1, _ => rfl

/-! A complete response from slave 1 with correct CRC (41_decoder.md R138 to R141). -/

theorem readCount_readRegs {t : Transaction} {n : Nat} (hp : t.pendFunc = fcReadRegs) :
    ReadCount t n ↔ n = 2 * t.pendData.toNat := by
  simp [ReadCount, hp, fcReadRegs, fcReadCoils]

theorem readCount_readCoils {t : Transaction} {n : Nat} (hp : t.pendFunc = fcReadCoils) :
    ReadCount t n ↔ n = (t.pendData.toNat + 7) / 8 := by
  simp [ReadCount, hp, fcReadRegs, fcReadCoils]

/-- A read response with another byte count than the request asks for fails with BYTE_COUNT_MISMATCH (41_decoder.md
R138, R139). -/
theorem Completing.fails_of_not_readCount {s : State} {d : Byte} {f : List Byte} (h : Completing s d f)
    (ht : TrailerOk f) (h0 : byteOf f 0 = Config.slaveId) (h1 : byteOf f 1 = s.txn.pendFunc)
    (hp : s.txn.pendFunc = fcReadRegs ∨ s.txn.pendFunc = fcReadCoils) (hn : ¬ ReadCount s.txn (byteOf f 2).toNat) :
    ∃ t, exec (.rxByte d) s = .next t ∧ EndsInError s f 2 0x14 0 t := by
  have hrx : (s.txn.storeByte d).rx 2 = byteOf f 2 := h.rx 2
  refine ⟨_, ?_, endsInError_of_fail h .byteCountMismatch⟩
  rw [h.exec_eq, h.complete_of_ok ht h0 h1]
  rcases hp with hp | hp
  · rw [if_pos hp, decRhr_of_ne (by rwa [hrx, storeByte_pendData, ne_eq, ← readCount_readRegs hp])]; rfl
  · rw [if_neg (by rw [hp]; decide), if_pos hp,
      decRc_of_ne (by rwa [hrx, storeByte_pendData, ne_eq, ← readCount_readCoils hp])]; rfl

/-- A write response is decoded by its echo check, the same for both write requests (41_decoder.md R140, R141). -/
theorem Completing.exec_of_write {s : State} {d : Byte} {f : List Byte} (h : Completing s d f)
    (ht : TrailerOk f) (h0 : byteOf f 0 = Config.slaveId) (h1 : byteOf f 1 = s.txn.pendFunc)
    (hp : s.txn.pendFunc = fcWriteCoil ∨ s.txn.pendFunc = fcWriteReg) :
    exec (.rxByte d) s = .next { s with
      txn := if echoMatches (s.txn.storeByte d) then (s.txn.storeByte d).succeed 0#16 s.txn.resultReg s.txn.resultCoil
        else (s.txn.storeByte d).fail .echoMismatch
      response := .none } := by
  rw [h.exec_eq, h.complete_of_ok ht h0 h1]
  rcases hp with hp | hp <;> rw [hp] <;> rfl

/-- A success keeps the request. -/
theorem EndsInSuccess.request {s t : State} {f : List Byte} (h : EndsInSuccess s f t) :
    t.txn.pendFunc = s.txn.pendFunc ∧ t.txn.pendData = s.txn.pendData := by
  obtain ⟨-, -, -, -, -, -, hpf, -, hpd, -⟩ := h
  exact ⟨hpf, hpd⟩

/-- After a success of the completed frame the whole receive buffer is the frame, with zeros behind it. -/
theorem EndsInSuccess.rx_eq {s t : State} {f : List Byte} (h : EndsInSuccess s f t) (hinv : t.txn.Inv) (i : Nat) :
    t.txn.rx i = byteOf f i := by
  obtain ⟨-, -, -, -, hlen, hrx, -⟩ := h
  rcases Nat.lt_or_ge i f.length with hi | hi
  · exact hrx i hi
  · rw [hinv.rxUnused i (by omega), byteOf, List.getD_eq_default _ _ hi]

/-- A success of a request that reads no registers leaves them zero. -/
theorem Transaction.Inv.resultReg_eq_zero {t : Transaction} (h : t.Inv) (hs : t.state = .doneOk)
    (hp : t.pendFunc ≠ fcReadRegs) (i : Fin 125) : t.resultReg[i] = 0#16 := by
  rw [h.resultRegs hs i, if_neg fun hc => hp hc.1]

/-- A success of a request that reads no coils leaves them zero. -/
theorem Transaction.Inv.resultCoil_eq_zero {t : Transaction} (h : t.Inv) (hs : t.state = .doneOk)
    (hp : t.pendFunc ≠ fcReadCoils) (k : Fin 125) : t.resultCoil[k] = 0#16 := by
  refine BitVec.eq_of_getLsbD_eq fun j hj => ?_
  rw [h.resultCoils hs k ⟨j, hj⟩, decide_eq_false fun hc => hp hc.1, Bool.false_and, BitVec.getLsbD_zero]

/-- A response that succeeds passed the checks of CRC, slave and function code (41_decoder.md R136). -/
theorem Completing.checks_of_doneOk {s t : State} {d : Byte} {f : List Byte} (h : Completing s d f)
    (he : exec (.rxByte d) s = .next t) (hs : t.txn.state = .doneOk) :
    TrailerOk f ∧ byteOf f 0 = Config.slaveId ∧ byteOf f 1 = s.txn.pendFunc := by
  obtain ⟨u, hu, rfl⟩ := commitTxn_next (h.exec_eq ▸ he)
  rw [h.complete_eq] at hu
  split_ifs at hu with hcrc hslave hexc
  · cases hu; cases hs
  · cases hu; cases hs
  · cases hu; cases hs
  all_goals exact ⟨not_not.1 hcrc, not_not.1 hslave, h.functionSeen.resolve_right hexc⟩

/-- A frame with a correct trailer is its bytes before it, with their trailer (30_encoding.md R90). -/
theorem TrailerOk.eq_withTrailer {f : List Byte} (h : TrailerOk f) (h2 : 2 ≤ f.length) :
    f = withTrailer (f.take (f.length - 2)) := by
  obtain ⟨lo, hi, hd⟩ := List.length_eq_two.1 (show (f.drop (f.length - 2)).length = 2 by rw [List.length_drop]; omega)
  have hf : f.take (f.length - 2) ++ [lo, hi] = f := hd ▸ List.take_append_drop ..
  have hcrc : crc16Modbus (f.take (f.length - 2)) = joinBytes hi lo := (trailerOk_append _ _ _).1 (hf.symm ▸ h)
  rw [withTrailer, hcrc, loByte_joinBytes, hiByte_joinBytes, hf]

/-- The first six bytes of a write response, which echo the request before its trailer (30_encoding.md R88). -/
theorem take_six {f : List Byte} (h : f.length = 8) :
    f.take 6 = [byteOf f 0, byteOf f 1, byteOf f 2, byteOf f 3, byteOf f 4, byteOf f 5] := by
  match f, h with
  | [_, _, _, _, _, _, _, _], _ => rfl

end Sys2Proof.Machine

open Sys2Proof Sys2Proof.Machine

/-- Settles O52: every event of a nonempty inbox is an instruction that does not fault, and the bounds are the
invariant's. -/
theorem noStepFaultsFromTheInvariant : Obligations.NoStepFaultsFromTheInvariant := fun _ h =>
  ⟨step_ne_fault h, h.txn.length_le⟩

/-- Settles O31: TX_TAKE in TX is `takeByte`, outside TX it is not enabled, and the invariant bounds `TX_PTR`. -/
theorem txTakeHandsOutTheNextByte : Obligations.TxTakeHandsOutTheNextByte := by
  refine ⟨fun s h hs => ⟨_, exec_txTake_of_tx hs h, rfl, ?_⟩, fun s hs => exec_txTake_of_ne_tx hs,
    fun s h hs => (h.txn.offering hs).1⟩
  rw [Transaction.takeByte, hs]

/-- Settles O32: n + 1 takes from `TX_PTR` = 0. -/
theorem eightTakesSendTheFrame : Obligations.EightTakesSendTheFrame := by
  intro s n hn h hs hp
  obtain ⟨-, hl, -⟩ := h.txn.requestBuilt (by simp [hs])
  obtain ⟨t, ht, hr, hb⟩ := execAll_txTake n hs hl hp (by omega)
  simp only [Nat.zero_add] at hr hb
  have hu : t.txn = { s.txn with txPtr := BitVec.ofNat 4 (n + 1), state := if n = 7 then .await else .tx } :=
    congrArg Block.txn hb
  refine ⟨t, ht, hr, ?_, by rw [hu], by rw [hb]⟩
  rw [hu, BitVec.toNat_ofNat]; omega

/-- Settles O34: what an accepted byte stores and keeps, and the cases of `Accepted` for STATE and `RX_EXPECT`. -/
theorem rxByteInAwaitIsStored : Obligations.RxByteInAwaitIsStored := by
  intro d s h hs
  obtain ⟨u, he, hu, ha, -⟩ := exec_rxByte_accepted d h hs
  obtain ⟨hl, hrx⟩ := acceptByte_stores hu
  obtain ⟨hd, hpf, hpa, hpd, hb, htl, htp, -, -⟩ := acceptByte_frame hu
  exact ⟨_, he, hl, hrx, ha.state_ne_await_iff hs, hpf, hpa, hpd, hb, htl, htp, hd, rfl, ha.rxExpect_eq, ha.eq_of_await⟩

/-- Settles O35: at the second byte no length is known, so that STATE stays AWAIT but for a refused function code, and
the invariant gives `RX_EXPECT` of the two bytes. -/
theorem secondByteFixesTheForm : Obligations.SecondByteFixesTheForm := by
  intro fc s h hs h1
  obtain ⟨u, he, hu, ha, hinv⟩ := exec_rxByte_accepted fc h hs
  have h1' : s.txn.rxLen.toNat = 1 := congrArg BitVec.toNat h1
  obtain ⟨hl, hrx⟩ := acceptByte_stores hu
  obtain ⟨-, hpf, -⟩ := acceptByte_frame hu
  have hu1 : u.rx 1 = fc := by rw [hrx, if_pos h1'.symm]
  have h2 : 2 ≤ u.rxLen.toNat := by omega
  have hlast : ¬ s.txn.AtLastByte := h.txn.not_atLastByte hs (if_pos (by omega))
  have stays : ∀ n, fc = s.txn.pendFunc ∨ fc = exceptionCode s.txn.pendFunc → expectedLength u = n →
      u.state = .await ∧ u.rxExpect = BitVec.ofNat 9 n := by
    intro n hfc hn
    have hst : u.state = .await := ha.await_of_not hs (fun ⟨_, hp, hx⟩ => hfc.elim hp hx) hlast
    refine ⟨hst, ?_⟩
    rw [← hn, ← hinv.lengthKnown hst, BitVec.ofNat_toNat, BitVec.setWidth_eq]
  refine ⟨_, he, fun hx => ?_, fun hp hw => ?_, fun hp hr => ?_, fun hp hx => ?_⟩
  · exact stays 5 (.inr hx) (by rw [expectedLength_of_two h2, hu1, hpf]; exact if_pos hx)
  · exact stays 8 (.inl hp) (expectedLength_of_write h2 (by rw [hu1, hpf, hp]) (by rwa [hpf, ← hp]))
  · refine stays 0 (.inl hp) ?_
    rw [expectedLength_of_read h2 (by rw [hu1, hpf, hp]) (by rwa [hpf, ← hp]), if_pos (by omega)]
  · have hrej : s.txn.RejectsByte fc := ⟨h1, hp, hx⟩
    rw [ha.eq_fail_of_rejects hrej]
    exact endsInError_of_rejects h.txn hs hrej

/-- Settles O36: before the byte count no length is known, so that STATE stays AWAIT, and the invariant gives
`RX_EXPECT` of the three bytes. -/
theorem thirdByteFixesTheLength : Obligations.ThirdByteFixesTheLength := by
  intro count s h hs h2 h1 hp
  obtain ⟨u, he, hu, ha, hinv⟩ := exec_rxByte_accepted count h hs
  have h2' : s.txn.rxLen.toNat = 2 := congrArg BitVec.toNat h2
  obtain ⟨hl, hrx⟩ := acceptByte_stores hu
  obtain ⟨-, hpf, -⟩ := acceptByte_frame hu
  have h0 : expectedLength s.txn = 0 := by rw [expectedLength_of_read (by omega) h1 hp, if_pos (by omega)]
  have hst : u.state = .await :=
    ha.await_of_not hs (fun ⟨hr, _⟩ => absurd (h2.symm.trans hr) (by decide)) (h.txn.not_atLastByte hs h0)
  have hu1 : u.rx 1 = u.pendFunc := by rw [hrx, if_neg (by omega), h1, hpf]
  refine ⟨_, he, hst, (hinv.lengthKnown hst).trans ?_⟩
  rw [expectedLength_of_read (by omega) hu1 (by rwa [hpf]), if_neg (by omega), hrx, if_pos h2'.symm]

/-- Settles O40: by the byte count, the decoder's error, or a success in which the invariant gives the registers. -/
theorem readRegistersResponse : Obligations.ReadRegistersResponse := by
  intro s d f h ht h0 h1 hp
  have h1' : byteOf f 1 = s.txn.pendFunc := h1.trans hp.symm
  by_cases hn : (byteOf f 2).toNat = 2 * s.txn.pendData.toNat
  · obtain ⟨t, he, hok⟩ := h.succeeds_of_readCount ht h0 h1' (.inl ⟨hp, hn⟩)
    have hinv := ((exec_effect he).inv h.inv).txn
    have hst : t.txn.state = .doneOk := hok.1
    obtain ⟨hpf, hpd⟩ := hok.request
    have hpf' : t.txn.pendFunc = fcReadRegs := hpf.trans hp
    refine ⟨t, he, absurd hn, fun _ => ⟨hok, ?_, fun i => ?_, hinv.resultCoil_eq_zero hst (by rw [hpf']; decide)⟩⟩
    · rw [hinv.resultCounted hst, if_pos (.inl hpf'), hpd]
    · simp only [hinv.resultReg_toNat hst i, hok.rx_eq hinv, hpd]
      exact if_congr (and_iff_right hpf') rfl rfl
  · obtain ⟨t, he, herr⟩ := h.fails_of_not_readCount ht h0 h1' (.inl hp) (by rwa [readCount_readRegs hp])
    exact ⟨t, he, fun _ => herr, fun hc => absurd hc hn⟩

/-- Settles O41: by the byte count, the decoder's error, or a success in which the invariant gives the coils. -/
theorem readCoilsResponse : Obligations.ReadCoilsResponse := by
  intro s d f h ht h0 h1 hp
  have h1' : byteOf f 1 = s.txn.pendFunc := h1.trans hp.symm
  by_cases hn : (byteOf f 2).toNat = (s.txn.pendData.toNat + 7) / 8
  · obtain ⟨t, he, hok⟩ := h.succeeds_of_readCount ht h0 h1' (.inr ⟨hp, hn⟩)
    have hinv := ((exec_effect he).inv h.inv).txn
    have hst : t.txn.state = .doneOk := hok.1
    obtain ⟨hpf, hpd⟩ := hok.request
    have hpf' : t.txn.pendFunc = fcReadCoils := hpf.trans hp
    refine ⟨t, he, absurd hn, fun _ => ⟨hok, ?_, fun k j => ?_, hinv.resultReg_eq_zero hst (by rw [hpf']; decide)⟩⟩
    · rw [hinv.resultCounted hst, if_pos (.inr hpf'), hpd]
    · rw [hinv.resultCoils hst k j, responseCoil, hok.rx_eq hinv, hpd]
      simp only [hpf', true_and]
  · obtain ⟨t, he, herr⟩ := h.fails_of_not_readCount ht h0 h1' (.inr hp) (by rwa [readCount_readCoils hp])
    exact ⟨t, he, fun _ => herr, fun hc => absurd hc hn⟩

/-- Settles O42: the decoder's echo check on the bytes of the frame. -/
theorem writeResponseMustEcho : Obligations.WriteResponseMustEcho := by
  intro s d f h ht h0 h1 hp
  have he := h.exec_of_write ht h0 h1 hp
  by_cases hecho : echoMatches (s.txn.storeByte d) = true
  · rw [if_pos hecho] at he
    obtain ⟨-, hreg, hcoil⟩ := h.inv.txn.results_zero (by simp [h.state])
    exact ⟨_, he, fun hn => absurd (h.echo_iff.1 hecho) hn, fun _ =>
      ⟨endsInSuccess_of_succeed h _ _ _, rfl, hreg, hcoil⟩⟩
  · rw [if_neg hecho] at he
    exact ⟨_, he, fun _ => endsInError_of_fail h .echoMismatch, fun hc => absurd (h.echo_iff.2 hc) hecho⟩

/-- Settles O43: a success passed every check; bytes 0 to 5 are then the request's, and the trailer is their CRC on both
sides. -/
theorem writeSuccessIsAnExactEcho : Obligations.WriteSuccessIsAnExactEcho := by
  intro s t d f h hp he hst
  obtain ⟨ht, h0, h1⟩ := h.checks_of_doneOk he hst
  have hecho : echoMatches (s.txn.storeByte d) = true := by
    by_contra hn
    rw [h.exec_of_write ht h0 h1 hp, if_neg hn] at he
    cases he
    cases hst
  obtain ⟨e2, e3, e4, e5⟩ := h.echo_iff.1 hecho
  obtain ⟨hreq, -, hbuf⟩ := h.collecting.request
  simp only [storeByte_pendFunc, storeByte_pendAddr, storeByte_pendData, storeByte_txBuf] at hreq hbuf
  have hlen : f.length = 8 := by
    rw [h.lengthTold, h1, if_neg (ne_exceptionCode hreq)]
    exact if_pos hp
  rw [hbuf] at e2 e3 e4 e5
  rw [ht.eq_withTrailer (by omega), hlen, hbuf, requestFrame_toList, take_six hlen, h0, h1, e2, e3, e4, e5]
  rfl

/-- Settles O44: a transaction is in flight exactly in TX and AWAIT, and the timeout's code is chosen by `RX_LEN`. -/
theorem timeoutEndsATransaction : Obligations.TimeoutEndsATransaction := by
  intro s
  by_cases hb : s.busy = true
  · refine ⟨_, exec_rxTimeout_of_busy hb, ?_⟩
    rw [if_pos ((busy_iff _).1 hb), Transaction.fail, timeoutCode]
    split <;> rfl
  · exact ⟨_, exec_rxTimeout_of_not_busy hb, (if_neg (mt (busy_iff _).2 hb)).symm⟩

/-- Settles O33: outside AWAIT a response byte is discarded. -/
theorem rxByteOutsideAwaitIsDiscarded : Obligations.RxByteOutsideAwaitIsDiscarded := fun d _ hs =>
  ⟨_, exec_rxByte_of_ne_await d hs, rfl⟩

end

section
/-! The CRC statements (42_crc.md R170 to R179): the updates on numbers, what they do to trailers and to damaged bytes,
the generator's two commands, and the independence of generator and framer. -/

namespace Sys2Proof.Machine

/-! The updates on the values of their words (42_crc.md R173, R174). -/

/-- The reflected bit step: halve, with the polynomial where the value was odd. -/
theorem stepR_eq_halve (p c : Word) :
    stepR p c = if c.toNat % 2 = 1 then BitVec.ofNat 16 (c.toNat / 2) ^^^ p else BitVec.ofNat 16 (c.toNat / 2) := by
  have hbit : c.getLsbD 0 = true ↔ c.toNat % 2 = 1 := by rw [← BitVec.testBit_toNat, Nat.testBit_zero, decide_eq_true_iff]
  have hhalf : c >>> 1 = BitVec.ofNat 16 (c.toNat / 2) := by
    apply BitVec.eq_of_toNat_eq
    rw [BitVec.toNat_ushiftRight, BitVec.toNat_ofNat, Nat.shiftRight_eq_div_pow]
    omega
  simp only [stepR, hbit, hhalf]

/-- The non-reflected bit step: double modulo 2^16, with 0x1021 where the top bit was set. -/
theorem stepN_eq_double (c : Word) :
    stepN c = if 2 ^ 15 ≤ c.toNat then BitVec.ofNat 16 (2 * c.toNat) ^^^ 0x1021#16 else BitVec.ofNat 16 (2 * c.toNat) := by
  have hbit : c.getLsbD 15 = true ↔ 2 ^ 15 ≤ c.toNat := by
    rw [← BitVec.msb_eq_getLsbD_last, BitVec.msb_eq_decide, decide_eq_true_iff]
  have hdouble : c <<< 1 = BitVec.ofNat 16 (2 * c.toNat) := by
    apply BitVec.eq_of_toNat_eq
    rw [BitVec.toNat_shiftLeft, BitVec.toNat_ofNat, Nat.shiftLeft_eq, Nat.mul_comm]
  simp only [stepN, hbit, hdouble]

/-- A byte in the high place of a word. -/
theorem setWidth_shiftLeft_eq_ofNat (d : Byte) : d.setWidth 16 <<< 8 = BitVec.ofNat 16 (256 * d.toNat) := by
  apply BitVec.eq_of_toNat_eq
  rw [BitVec.toNat_shiftLeft, BitVec.toNat_setWidth, BitVec.toNat_ofNat, Nat.shiftLeft_eq]
  omega

/-! Linearity (42_crc.md R179 (c)). -/

/-- The reflected update is linear. -/
theorem updateR_xor (c₁ c₂ p : Word) (d₁ d₂ : Byte) :
    updateR (c₁ ^^^ c₂) (d₁ ^^^ d₂) p = updateR c₁ d₁ p ^^^ updateR c₂ d₂ p := by
  rw [updateR, updateR, updateR, ← iterate_xor (stepR_xor p), BitVec.setWidth_xor]
  congr 1
  ac_rfl

/-- The non-reflected update is linear. -/
theorem updateN_xor (c₁ c₂ : Word) (d₁ d₂ : Byte) :
    updateN (c₁ ^^^ c₂) (d₁ ^^^ d₂) = updateN c₁ d₁ ^^^ updateN c₂ d₂ := by
  rw [updateN, updateN, updateN, ← iterate_xor stepN_xor, BitVec.setWidth_xor, BitVec.shiftLeft_xor_distrib]
  congr 1
  ac_rfl

/-! Trailers and damaged bytes (42_crc.md R179 (a), (b), (d)). -/

/-- A register fed its own bytes, low byte first, is zero under the reflected update. -/
theorem updateR_ownBytes (p c : Word) : updateR (updateR c (loByte c) p) (hiByte c) p = 0x0000#16 := by
  rw [updateR_loByte, updateR_self]

/-- A register fed its own bytes, high byte first, is zero under the non-reflected update. -/
theorem updateN_ownBytes (c : Word) : updateN (updateN c (hiByte c)) (loByte c) = 0x0000#16 := by
  rw [updateN_hiByte, updateN_self]

/-- Reflected updates that agree come from registers that differ as their bytes do. -/
theorem xor_eq_of_updateR_eq {p c c' : Word} {d d' : Byte} (hp : p.getLsbD 15 = true)
    (h : updateR c d p = updateR c' d' p) : c ^^^ c' = (d ^^^ d').setWidth 16 :=
  updateR_eq_zero hp (by rw [updateR_xor, h, BitVec.xor_self])

/-- The reflected update by one byte loses nothing of the register. -/
theorem updateR_injective_reg {p c c' : Word} {d : Byte} (hp : p.getLsbD 15 = true)
    (h : updateR c d p = updateR c' d p) : c = c' := by
  have := xor_eq_of_updateR_eq hp h
  rwa [BitVec.xor_self, BitVec.setWidth_zero, BitVec.xor_eq_zero_iff] at this

/-- The reflected update of one register tells the bytes apart. -/
theorem updateR_injective_byte {p c : Word} {d d' : Byte} (hp : p.getLsbD 15 = true)
    (h : updateR c d p = updateR c d' p) : d = d' := by
  have hx := xor_eq_of_updateR_eq hp h
  rw [BitVec.xor_self] at hx
  have h0 : d ^^^ d' = 0#8 := by
    have := congrArg (BitVec.setWidth 8) hx
    rwa [BitVec.setWidth_setWidth_of_le _ (by decide), BitVec.setWidth_eq, eq_comm] at this
  exact BitVec.xor_eq_zero_iff.1 h0

/-- Bytes fed by the reflected update keep two registers apart. -/
theorem foldl_updateR_injective {p c c' : Word} (hp : p.getLsbD 15 = true) (bytes : List Byte)
    (h : bytes.foldl (fun c d => updateR c d p) c = bytes.foldl (fun c d => updateR c d p) c') : c = c' := by
  induction bytes generalizing c c' with
  | nil => exact h
  | cons d bytes ih => exact updateR_injective_reg hp (ih h)

/-- Frames that differ in one byte have different CRCs. -/
theorem byte_eq_of_crc16Modbus_eq {before after : List Byte} {b b' : Byte}
    (h : crc16Modbus (before ++ b :: after) = crc16Modbus (before ++ b' :: after)) : b = b' := by
  rw [crc16Modbus_append, crc16Modbus_append, List.foldl_cons, List.foldl_cons] at h
  exact updateR_injective_byte rfl (foldl_updateR_injective rfl after h)

/-- A frame that passes the check has the CRC zero (42_crc.md R179 (a)). -/
theorem TrailerOk.crc16Modbus_eq_zero {f : List Byte} (h : TrailerOk f) (h2 : 2 ≤ f.length) :
    crc16Modbus f = 0x0000#16 := by
  rw [h.eq_withTrailer h2, crc16Modbus_withTrailer]

/-! The presets (42_crc.md R172). -/

/-- The preset by the field PRESET (10_state.md R47). -/
theorem presetOf_eq (cfg : Word) : presetOf cfg =
    if cfg.extractLsb' 0 2 = 0#2 then .modbus
    else if cfg.extractLsb' 0 2 = 3#2 then .kermit
    else if cfg.extractLsb' 0 2 = 1#2 then .ibm3740
    else .xmodem := by
  have h0 : cfg.getLsbD 0 = (cfg.extractLsb' 0 2).getLsbD 0 := by simp
  have h1 : cfg.getLsbD 1 = (cfg.extractLsb' 0 2).getLsbD 1 := by simp
  rw [presetOf, h0, h1]
  generalize cfg.extractLsb' 0 2 = k
  revert k
  decide

/-- The initial value by the field PRESET. -/
theorem init_presetOf (cfg : Word) :
    (presetOf cfg).init = if (cfg.extractLsb' 0 2).toNat ≤ 1 then 0xFFFF#16 else 0x0000#16 := by
  rw [presetOf_eq]
  generalize cfg.extractLsb' 0 2 = k
  revert k
  decide

/-- The update by the field PRESET. -/
theorem update_presetOf (cfg c : Word) (d : Byte) : (presetOf cfg).update c d =
    if cfg.extractLsb' 0 2 = 0#2 then updateR c d 0xA001#16
    else if cfg.extractLsb' 0 2 = 3#2 then updateR c d 0x8408#16
    else updateN c d := by
  rw [presetOf_eq]
  split_ifs <;> rfl

/-! The generator's commands (42_crc.md R175 to R177). -/

theorem exec_crcByte (d : Byte) (s : State) : exec (.crcByte d) s = .next { s with
    crcValue := (presetOf s.crcCfg).update s.crcValue d, cmdErr := .ok, response := .writeAck } := rfl

theorem exec_crcInit_zero (s : State) : exec (.crcInit 0x00#8) s = .next { s with
    crcValue := (presetOf s.crcCfg).init, cmdErr := .ok, response := .writeAck } := rfl

theorem exec_crcInit_of_ne {imm : Byte} (h : imm ≠ 0x00#8) (s : State) :
    exec (.crcInit imm) s = .next { s with cmdErr := .reservedImm, response := .writeAck } := if_pos h

/-- CRC_BYTE commands after a performed command feed their bytes one by one. -/
theorem execAll_crcByte (bytes : List Byte) (c : Word) (s : State) :
    execAll (bytes.map .crcByte) { s with crcValue := c, cmdErr := .ok, response := .writeAck } =
      .next { s with
        crcValue := bytes.foldl (presetOf s.crcCfg).update c, cmdErr := .ok, response := .writeAck } := by
  induction bytes generalizing c with
  | nil => rfl
  | cons d bytes ih => exact ih ((presetOf s.crcCfg).update c d)

/-! The independence of generator and framer (42_crc.md R170; 10_state.md R48). -/

/-- An instruction that performs a command is that command. -/
theorem exec_eq_of_command? {i j : Instr} (h : i.command? = some j) (s : State) : exec i s = exec j s := by
  cases i with
  | memWrite off w v =>
    simp only [Instr.command?] at h
    split at h
    · rename_i hcmd
      obtain ⟨rfl, rfl⟩ := hcmd
      split at h
      · rename_i k hk
        cases h
        rw [exec_memWrite_cmd, command_eq_exec hk]
      · cases h
    · cases h
  | txTake | rxByte | rxTimeout | reset | memRead => cases h
  | encRc | encRhr | encWsc | encWsr | clear | crcInit | crcByte => cases h; rfl

/-- The generator's commands, whatever group T holds: they leave it, and what they write is the same. -/
theorem exec_generator_withTxn {i : Instr} (s : State)
    (hi : (∃ imm, i.command? = some (.crcInit imm)) ∨ ∃ d, i.command? = some (.crcByte d)) :
    ∃ v e, ∀ u, exec i { s with txn := u } =
      .next { s with txn := u, crcValue := v, cmdErr := e, response := .writeAck } := by
  rcases hi with ⟨imm, hc⟩ | ⟨d, hc⟩
  · rcases eq_or_ne imm 0x00#8 with rfl | himm
    · exact ⟨(presetOf s.crcCfg).init, .ok, fun u => (exec_eq_of_command? hc _).trans (exec_crcInit_zero _)⟩
    · exact ⟨s.crcValue, .reservedImm, fun u => (exec_eq_of_command? hc _).trans (exec_crcInit_of_ne himm _)⟩
  · exact ⟨(presetOf s.crcCfg).update s.crcValue d, .ok, fun u =>
      (exec_eq_of_command? hc _).trans (exec_crcByte d _)⟩

/-- Who changes `CRC_VALUE` (10_state.md R48). -/
theorem Effect.crcValue_cases {i : Instr} {s t : State} (h : Effect i s t) :
    t.crcValue = s.crcValue ∨ i = .reset ∨ i.command? = some (.crcInit 0x00#8) ∨ ∃ d, i.command? = some (.crcByte d) := by
  cases h with
  | crcInit hi => exact .inr (.inr (.inl hi))
  | crcByte d hi => exact .inr (.inr (.inr ⟨d, hi⟩))
  | reset hi => exact .inr (.inl hi)
  | rw off v r => exact .inl (writeRw_crcValue ..)
  | same | refuse | start | clear | take | discard | accept | timeout => exact .inl rfl

/-- The block but for what the generator is configured with and holds. -/
def Block.apartFromGenerator (b : Block) : Block := { b with crcCfg := 0x0000#16, crcValue := 0x0000#16 }

/-- The state with another configuration and value of the generator. -/
def State.withGenerator (cfg value : Word) (s : State) : State := { s with crcCfg := cfg, crcValue := value }

/-- The block apart from the generator after what a meaning answers, where it answers a next state. -/
def apartAfter : Result → Option Block
  | .next t => some t.apartFromGenerator
  | .fault _ | .refused _ => none

theorem apartAfter_eq_some {r : Result} {b : Block} (h : apartAfter r = some b) :
    ∃ t, r = .next t ∧ t.apartFromGenerator = b := by
  cases r with
  | next t => exact ⟨t, rfl, Option.some.inj h⟩
  | fault | refused => cases h

section withGenerator
variable (cfg value : Word) (s : State)
@[simp] theorem withGenerator_txn : (s.withGenerator cfg value).txn = s.txn := rfl
@[simp] theorem withGenerator_reqAddr : (s.withGenerator cfg value).reqAddr = s.reqAddr := rfl
@[simp] theorem withGenerator_reqData : (s.withGenerator cfg value).reqData = s.reqData := rfl
@[simp] theorem withGenerator_busy : (s.withGenerator cfg value).busy = s.busy := rfl

theorem apartAfter_encodeRequest (op imm : Byte) :
    apartAfter (encodeRequest op imm (s.withGenerator cfg value)) = apartAfter (encodeRequest op imm s) := by
  unfold encodeRequest
  rw [withGenerator_busy, withGenerator_reqData]
  split_ifs
  · rfl
  · rfl
  · cases operandError op s.reqData <;> rfl

theorem apartAfter_execClear (imm : Byte) :
    apartAfter (execClear imm (s.withGenerator cfg value)) = apartAfter (execClear imm s) := by
  unfold execClear
  rw [withGenerator_busy]
  split_ifs <;> rfl

theorem apartAfter_execCrcInit (imm : Byte) :
    apartAfter (execCrcInit imm (s.withGenerator cfg value)) = apartAfter (execCrcInit imm s) := by
  unfold execCrcInit
  split_ifs <;> rfl

theorem apartAfter_command (v : Word) :
    apartAfter (command v (s.withGenerator cfg value)) = apartAfter (command v s) := by
  unfold command
  split_ifs
  iterate 4 · exact apartAfter_encodeRequest ..
  · exact apartAfter_execClear ..
  · exact apartAfter_execCrcInit ..
  · rfl
  · rfl

theorem apartAfter_execTxTake : apartAfter (execTxTake (s.withGenerator cfg value)) = apartAfter (execTxTake s) := by
  unfold execTxTake
  rw [withGenerator_txn]
  split_ifs <;> rfl

theorem apartAfter_execRxByte (d : Byte) :
    apartAfter (execRxByte d (s.withGenerator cfg value)) = apartAfter (execRxByte d s) := by
  unfold execRxByte
  rw [withGenerator_txn]
  split_ifs
  · cases acceptByte d s.txn <;> rfl
  · rfl

theorem apartAfter_execRxTimeout :
    apartAfter (execRxTimeout (s.withGenerator cfg value)) = apartAfter (execRxTimeout s) := by
  unfold execRxTimeout
  rw [withGenerator_busy]
  split_ifs <;> rfl

/-- A host read leaves the block. -/
theorem apartAfter_execMemRead (off : Offset) (w : AccessWidth) :
    apartAfter (execMemRead off w s) = some s.apartFromGenerator := by
  unfold execMemRead
  split <;> rfl

theorem apartAfter_writeReg (r : Reg) (off : Offset) (v : Word) :
    apartAfter (writeReg r off v (s.withGenerator cfg value)) = apartAfter (writeReg r off v s) := by
  unfold writeReg
  split
  · exact apartAfter_command ..
  · cases r <;> rfl
  · rfl

/-- What an instruction does to the block apart from the generator does not depend on the generator. -/
theorem apartAfter_exec (i : Instr) :
    apartAfter (exec i (s.withGenerator cfg value)) = apartAfter (exec i s) := by
  cases i with
  | encRc imm => exact apartAfter_encodeRequest cfg value s fcReadCoils imm
  | encRhr imm => exact apartAfter_encodeRequest cfg value s fcReadRegs imm
  | encWsc imm => exact apartAfter_encodeRequest cfg value s fcWriteCoil imm
  | encWsr imm => exact apartAfter_encodeRequest cfg value s fcWriteReg imm
  | clear => exact apartAfter_execClear ..
  | crcInit => exact apartAfter_execCrcInit ..
  | crcByte | reset => rfl
  | txTake => exact apartAfter_execTxTake ..
  | rxByte d => exact apartAfter_execRxByte ..
  | rxTimeout => exact apartAfter_execRxTimeout ..
  | memRead off w => exact (apartAfter_execMemRead _ off w).trans (apartAfter_execMemRead s off w).symm
  | memWrite off w v =>
    simp only [exec, execMemWrite]
    split
    · exact apartAfter_writeReg ..
    · rfl

end withGenerator

end Sys2Proof.Machine

open Sys2Proof Sys2Proof.Machine

/-- Settles O19: the reflected bit step on numbers, eight times. -/
theorem reflectedUpdate : Obligations.ReflectedUpdate := by
  refine ⟨?_, by decide⟩
  intro c p d f
  have hf : stepR p = f := funext (stepR_eq_halve p)
  rw [updateR, hf, ← BitVec.ofNat_toNat]
  rfl

/-- Settles O20: the non-reflected bit step on numbers, eight times. -/
theorem nonReflectedUpdate : Obligations.NonReflectedUpdate := by
  refine ⟨?_, by decide⟩
  intro c d f
  have hf : stepN = f := funext stepN_eq_double
  rw [updateN, hf, setWidth_shiftLeft_eq_ofNat]
  clear_value f
  rfl

/-- Settles O22: a register fed its own bytes, in the order of its trailer, is zero. -/
theorem trailerChecksToZero : Obligations.TrailerChecksToZero := by
  intro m
  refine ⟨crc16Modbus_withTrailer m, ?_, ?_, ?_⟩ <;> rw [presetCrc_append]
  · exact updateR_ownBytes 0x8408#16 _
  · exact updateN_ownBytes _
  · exact updateN_ownBytes _

/-- Settles O23: each update is eight steps of a linear step. -/
theorem updatesAreLinear : Obligations.UpdatesAreLinear := fun c₁ c₂ p d₁ d₂ =>
  ⟨updateR_xor c₁ c₂ p d₁ d₂, updateN_xor c₁ c₂ d₁ d₂⟩

/-- Settles O24: both frames would have the CRC zero, and then the same byte at the place where they differ. -/
theorem oneByteErrorIsDetected : Obligations.OneByteErrorIsDetected := by
  intro before after b b' hne h2 hok hok'
  have h2' : 2 ≤ (before ++ b' :: after).length := by simpa using h2
  exact hne (byte_eq_of_crc16Modbus_eq ((hok.crc16Modbus_eq_zero h2).trans (hok'.crc16Modbus_eq_zero h2').symm))

/-- Settles O27: CRC_INIT loads the initial value the fold of the bytes starts from. -/
theorem generatorComputesTheCrc : Obligations.GeneratorComputesTheCrc := fun bytes s =>
  ⟨_, execAll_crcByte bytes (presetOf s.crcCfg).init s, rfl⟩

/-- Settles O28: the block apart from the generator after an instruction, who changes `CRC_VALUE`, and the generator's
commands with any group T. -/
theorem generatorIsApartFromTheFramer : Obligations.GeneratorIsApartFromTheFramer := by
  refine ⟨fun i s t cfg value h => ?_, fun i s t h hne => ?_, fun i s t h hi => ?_, fun i s t u h hi => ?_⟩
  · have hsame := apartAfter_exec cfg value s i
    rw [h] at hsame
    obtain ⟨t', ht', hb⟩ := apartAfter_eq_some hsame
    exact ⟨t', ht', (congrArg Block.txn hb :), (congrArg Block.cmdErr hb :), (congrArg Block.reqAddr hb :),
      (congrArg Block.reqData hb :), (congrArg Block.irqEn hb :)⟩
  · exact (exec_effect h).crcValue_cases.resolve_left hne
  · obtain ⟨v, e, hx⟩ := exec_generator_withTxn s (hi.imp_left fun hc => ⟨_, hc⟩)
    cases h.symm.trans (hx s.txn)
    rfl
  · obtain ⟨v, e, hx⟩ := exec_generator_withTxn s hi
    cases h.symm.trans (hx s.txn)
    exact ⟨_, hx u, rfl, rfl, rfl, rfl⟩

/-- Settles O18: the fold over no bytes and over one byte more, and the check value by evaluation. -/
theorem framerCrcDefinition : Obligations.FramerCrcDefinition :=
  ⟨rfl, fun m d => crc16Modbus_append m [d], by decide +kernel⟩

/-- Settles O21: the preset by its field, and the check values by evaluation. -/
theorem generatorPresets : Obligations.GeneratorPresets := by
  refine ⟨fun cfg => ?_, ⟨rfl, rfl, rfl, rfl⟩, fun c d => ⟨rfl, rfl, rfl, rfl⟩, ?_⟩
  · rw [presetOf_eq]
    refine ⟨?_, ?_, ?_, ?_⟩ <;> intro h <;> rw [h] <;> rfl
  · rintro _ rfl
    decide +kernel

/-- Settles O25: the refusal of a nonzero `imm8`, else the initial value by the field PRESET. -/
theorem crcInitLoadsTheInitialValue : Obligations.CrcInitLoadsTheInitialValue := by
  refine ⟨fun imm => exec_memWrite_commandWord (by simp [decodeCommand]), fun imm s => ?_⟩
  rcases eq_or_ne imm 0x00#8 with rfl | h
  · exact ⟨_, exec_crcInit_zero s, by rw [init_presetOf]; rfl⟩
  · exact ⟨_, exec_crcInit_of_ne h s, (if_pos h).symm⟩

/-- Settles O26: the update by the field PRESET. -/
theorem crcByteFeedsTheGenerator : Obligations.CrcByteFeedsTheGenerator :=
  ⟨fun d => exec_memWrite_commandWord (by simp [decodeCommand]),
    fun d s => ⟨_, exec_crcByte d s, by rw [update_presetOf]⟩⟩

end

section
/-! The control statements (43_control.md R190, R191): what CLEAR does to the block, and which step changes STATE. -/

namespace Sys2Proof.Machine

/-- CLEAR completes with the block its two checks, in their order, give (43_control.md R190). -/
theorem execClear_toBlock (imm : Byte) (s : State) :
    ∃ t, execClear imm s = .next t ∧ t.toBlock =
      if imm ≠ 0x00#8 then { s.toBlock with cmdErr := .reservedImm }
      else if s.txn.state = .tx ∨ s.txn.state = .await then { s.toBlock with cmdErr := .busy }
      else { s.toBlock with txn := Transaction.reset, cmdErr := .ok } := by
  simp only [execClear, busy_iff]
  split_ifs <;> exact ⟨_, rfl, rfl⟩

/-- A taken request byte that changes STATE is the eighth, and STATE becomes AWAIT (41_decoder.md R131). -/
theorem takeByte_state_change {t : Transaction} (h : t.Inv) (hs : t.state = .tx)
    (hne : t.takeByte.state ≠ t.state) : t.takeByte.txPtr = 8#4 ∧ t.takeByte.state = .await := by
  obtain ⟨-, hlen, -⟩ := h.requestBuilt (by simp [hs])
  by_cases hp : t.txPtr + 1#4 = t.txLen
  · exact ⟨hp.trans hlen, if_pos hp⟩
  · exact absurd (if_neg hp) hne

/-- A decoded frame ends the transaction with success or with a protocol error (41_decoder.md R136). -/
theorem complete_state {t u : Transaction} (h : complete t = .ok u) :
    u.state = .doneOk ∨ u.state = .doneErr ∧ u.errClass = .protocol := by
  obtain ⟨-, ⟨c, -, -, hc, rfl⟩ | rfl | ⟨-, -, -, rfl⟩ | ⟨-, -, -, rfl⟩ | ⟨-, -, rfl⟩⟩ := complete_cases h
  · exact .inr ⟨rfl, hc⟩
  · exact .inr ⟨rfl, rfl⟩
  all_goals exact .inl rfl

/-- The byte that completes the frame leaves `RX_LEN` at the length the frame must have (41_decoder.md R135). -/
theorem Completing.rxLen_eq_rxExpect {s : State} {d : Byte} {f : List Byte} {u : Transaction} (h : Completing s d f)
    (hu : complete (s.txn.storeByte d) = .ok u) : u.rxExpect ≠ 0#9 ∧ u.rxLen = u.rxExpect := by
  have hx : u.rxExpect = s.txn.rxExpect := (complete_ends hu).2
  obtain ⟨hl, -⟩ := acceptByte_stores (h.acceptByte_eq.trans hu)
  exact ⟨hx ▸ h.known, BitVec.eq_of_toNat_eq (by rw [hl, hx, h.last])⟩

/-- An accepted byte that ends the transaction is a second byte of no expected function, or completes the frame
(41_decoder.md R133, R135). -/
theorem Accepted.end_cases {s : State} {d : Byte} {u : Transaction} (h : Accepted s d u) (hs : s.txn.state = .await)
    (hu : u.state ≠ .await) :
    (u.rxLen = 2#9 ∧ d ≠ s.txn.pendFunc ∧ d ≠ exceptionCode s.txn.pendFunc ∧ u.state = .doneErr ∧
      u.errClass = .protocol) ∨
    (u.rxExpect ≠ 0#9 ∧ u.rxLen = u.rxExpect ∧
      (u.state = .doneOk ∨ u.state = .doneErr ∧ u.errClass = .protocol)) := by
  cases h with
  | rejected hr =>
    obtain ⟨h1, hp, hx⟩ := hr
    exact .inl ⟨(storeByte_rxLen_eq_iff d s.txn 1#9).2 h1, hp, hx, rfl, rfl⟩
  | decoded u hc he =>
    obtain ⟨h0, hl⟩ := hc.rxLen_eq_rxExpect he
    exact .inr ⟨h0, hl, complete_state he⟩
  | awaited => exact absurd hs hu

/-- A timeout is recorded in the class TIMEOUT (60_exceptions.md R208). -/
theorem timeoutCode_errClass (t : Transaction) : (timeoutCode t).errClass = .timeout := by
  unfold timeoutCode; split <;> rfl

end Sys2Proof.Machine

open Sys2Proof Sys2Proof.Machine

/-- Settles O30: each effect of an instruction keeps STATE or is a row of the table. -/
theorem stateChangesAreTheTable : Obligations.StateChangesAreTheTable := by
  intro i s t hinv h hne
  cases exec_effect h with
  | same | refuse | crcInit | crcByte | discard => exact absurd rfl hne
  | rw off v r => exact absurd (congrArg Transaction.state (writeRw_txn ..)) hne
  | start op hop _ hb => exact .inl ⟨(not_busy_iff _).1 hb, rfl, rfl, op, hop⟩
  | take _ hi hs =>
    obtain ⟨hp, ha⟩ := takeByte_state_change hinv.txn hs hne
    exact .inr (.inl ⟨hs, hi, hp, ha⟩)
  | timeout hi hb => exact .inr (.inr (.inl ⟨(busy_iff _).1 hb, hi, rfl, timeoutCode_errClass _⟩))
  | accept d u hi hs hu =>
    have hend : u.state ≠ .await := fun hc => hne (hc.trans hs.symm)
    rcases (acceptByte_accepted hinv hs hu).end_cases hs hend with ⟨h2, hp, hx, hst, hcls⟩ | ⟨h0, hl, hst⟩
    · exact .inr (.inr (.inr (.inl ⟨d, hs, hi, h2, hp, hx, hst, hcls⟩)))
    · exact .inr (.inr (.inr (.inr (.inl ⟨d, hs, hi, h0, hl, hst⟩))))
  | clear hi _ hb =>
    have hdone : s.txn.state = .doneOk ∨ s.txn.state = .doneErr :=
      ((not_busy_iff _).1 hb).resolve_left fun hidle => hne hidle.symm
    exact .inr (.inr (.inr (.inr (.inr (.inl ⟨hdone, hi, rfl, rfl⟩)))))
  | reset hi => exact .inr (.inr (.inr (.inr (.inr (.inr ⟨hi, rfl⟩)))))

/-- Settles O29: the word of CLEAR performs it, and its two checks give the block. -/
theorem clearEndsAFinishedTransaction : Obligations.ClearEndsAFinishedTransaction :=
  ⟨fun imm => exec_memWrite_commandWord (by simp [decodeCommand]), execClear_toBlock⟩

end

section
/-! The exception statements (60_exceptions.md R208 to R223): the frame checks that fail a complete response, what an
error entry keeps, and what changes a finished transaction. -/

namespace Sys2Proof.Machine

/-! The checks of a complete frame before its decoder, in their order (60_exceptions.md R212 to R214, R218). -/

namespace Completing
variable {s : State} {d : Byte} {f : List Byte}

/-- The first check of a complete frame is that of its CRC (60_exceptions.md R212). -/
theorem complete_of_not_trailerOk (h : Completing s d f) (ht : ¬ TrailerOk f) :
    complete (s.txn.storeByte d) = .ok ((s.txn.storeByte d).fail .crcMismatch) := by
  rw [h.complete_eq]
  exact if_pos ht

/-- With a correct CRC the second check is that of the slave (60_exceptions.md R213). -/
theorem complete_of_other_slave (h : Completing s d f) (ht : TrailerOk f) (h0 : byteOf f 0 ≠ Config.slaveId) :
    complete (s.txn.storeByte d) = .ok ((s.txn.storeByte d).fail .slaveMismatch) := by
  unfold TrailerOk at ht
  rw [h.complete_eq, if_neg (not_not.2 ht), if_pos h0]

/-- With correct CRC and slave the exception form of the function code is decoded before the four responses
(60_exceptions.md R214). -/
theorem complete_of_exception (h : Completing s d f) (ht : TrailerOk f) (h0 : byteOf f 0 = Config.slaveId)
    (h1 : byteOf f 1 = exceptionCode s.txn.pendFunc) :
    complete (s.txn.storeByte d) = .ok (decExc (s.txn.storeByte d)) := by
  unfold TrailerOk at ht
  rw [h.complete_eq, if_neg (not_not.2 ht), if_neg (not_not.2 h0), if_pos h1]

/-- The step of the completing byte, where decoding the frame gives `u`. -/
theorem exec_of_complete {u : Transaction} (h : Completing s d f) (hu : complete (s.txn.storeByte d) = .ok u) :
    exec (.rxByte d) s = .next { s with txn := u, response := .none } :=
  exec_rxByte_of_await h.state (h.acceptByte_eq.trans hu)

/-- A device exception is an error of the completed frame that also records the frame's third byte (41_decoder.md
R137). -/
theorem endsInError_of_decExc (h : Completing s d f) :
    EndsInError s f 2 0x13 (byteOf f 2).toNat { s with txn := decExc (s.txn.storeByte d), response := .none } := by
  obtain ⟨hcount, hreg, hcoil⟩ := h.inv.txn.results_zero (by simp [h.state])
  exact ⟨rfl, rfl, rfl, congrArg BitVec.toNat (h.rx 2), h.rxLen, fun i _ => h.rx i, hcount, hreg, hcoil,
    rfl, rfl, rfl, rfl, rfl, rfl, rfl, rfl, rfl⟩

end Completing

/-! Error entry (60_exceptions.md R208, R217). -/

/-- Each error code lies in the range of its class (60_exceptions.md R208). -/
theorem ErrCode.code_range_of_ne_none {c : ErrCode} (h : c ≠ .none) :
    (c.errClass.code = 1#2 ∧ (c.code = 0x01#8 ∨ c.code = 0x02#8)) ∨
    (c.errClass.code = 2#2 ∧ 0x10 ≤ c.code.toNat ∧ c.code.toNat ≤ 0x15) := by
  cases c with
  | none => exact absurd rfl h
  | timeoutNoResponse | timeoutTruncated => exact .inl (by decide)
  | badFunction | crcMismatch | slaveMismatch | deviceException | byteCountMismatch | echoMismatch =>
    exact .inr (by decide)

theorem Transaction.Inv.exCode_eq_zero {t : Transaction} (h : t.Inv) (hc : t.errCode ≠ .deviceException) :
    t.exCode = 0x00#8 :=
  not_not.1 (mt h.exCodeOnlyException hc)

/-- STATE becomes DONE_ERR by an accepted response byte or by a timeout of a transaction in flight, and in no other way
(43_control.md R191). -/
theorem Effect.error_entry_cases {i : Instr} {s t : State} (h : Effect i s t) (hs : s.txn.state ≠ .doneErr)
    (ht : t.txn.state = .doneErr) :
    (∃ d u, s.txn.state = .await ∧ acceptByte d s.txn = .ok u ∧ t = { s with txn := u, response := .none }) ∨
    t = { s with txn := s.txn.fail (timeoutCode s.txn), response := .none } := by
  cases h with
  | accept d u _ hw hu => exact .inl ⟨d, u, hw, hu, rfl⟩
  | timeout => exact .inr rfl
  | same | refuse | crcInit | crcByte | discard => exact absurd ht hs
  | rw off v r => exact absurd ((congrArg Transaction.state (writeRw_txn ..)).symm.trans ht) hs
  | start | clear | reset => cases ht
  | take _ _ hx =>
    rw [takeByte_state, hx] at ht
    split at ht <;> cases ht

/-- A byte that ends the transaction leaves `RX_EXPECT`: the length it must have is known, or the second byte was
refused. -/
theorem Accepted.rxExpect_eq_of_ended {s : State} {d : Byte} {u : Transaction} (h : Accepted s d u)
    (hs : s.txn.state = .await) (hu : u.state ≠ .await) : u.rxExpect = s.txn.rxExpect := by
  cases h with
  | rejected => rfl
  | decoded u _ he => exact (complete_ends he).2
  | awaited => exact absurd hs hu

end Sys2Proof.Machine

open Sys2Proof Sys2Proof.Machine

/-- Settles O37: the CRC is the first check of the completed frame. -/
theorem crcMismatchFailsFirst : Obligations.CrcMismatchFailsFirst := fun _ _ _ h ht =>
  ⟨_, h.exec_of_complete (h.complete_of_not_trailerOk ht), endsInError_of_fail h .crcMismatch⟩

/-- Settles O38: the slave is the second check of the completed frame. -/
theorem slaveMismatchFailsNext : Obligations.SlaveMismatchFailsNext := fun _ _ _ h ht h0 =>
  ⟨_, h.exec_of_complete (h.complete_of_other_slave ht h0), endsInError_of_fail h .slaveMismatch⟩

/-- Settles O39: past the two checks the exception form is decoded by DEC_EXC. -/
theorem deviceExceptionIsRecorded : Obligations.DeviceExceptionIsRecorded := fun _ _ _ h ht h0 h1 =>
  ⟨_, h.exec_of_complete (h.complete_of_exception ht h0 h1), h.endsInError_of_decExc⟩

/-- Settles O45: the invariant gives the error record and the results, on both sides of the step; what is kept follows
from the two ways into DONE_ERR. -/
theorem errorEntryKeepsTheTransaction : Obligations.ErrorEntryKeepsTheTransaction := by
  intro i s t hinv h hs ht
  have hinv' : t.txn.Inv := ((exec_effect h).inv hinv).txn
  have hcode := ErrCode.code_range_of_ne_none (mt hinv'.errOnlyDoneErr.1 (not_not.2 ht))
  rw [← hinv'.errClassOfCode] at hcode
  have hex : t.txn.errCode.code ≠ 0x13#8 → t.txn.exCode = s.txn.exCode := fun hc => by
    have hnone : s.txn.errCode = .none := hinv.txn.errOnlyDoneErr.2 hs
    rw [hinv'.exCode_eq_zero (fun he => hc (by rw [he]; rfl)), hinv.txn.exCode_eq_zero (by simp [hnone])]
  obtain ⟨hcount, hreg, hcoil⟩ := hinv'.results_zero (by simp [ht])
  rcases (exec_effect h).error_entry_cases hs ht with ⟨d, u, hw, hu, rfl⟩ | rfl
  · obtain ⟨hd, hpf, hpa, hpd, hb, htl, htp, -, -⟩ := acceptByte_frame hu
    obtain ⟨hl, hrx⟩ := acceptByte_stores hu
    have hend : u.state ≠ .await := fun hc => nomatch hc.symm.trans ht
    have hx := (acceptByte_accepted hinv hw hu).rxExpect_eq_of_ended hw hend
    have hold : ∀ j, j < s.txn.rxLen.toNat → u.rx j = s.txn.rx j := fun j hj => by rw [hrx, if_neg (by omega)]
    have hle : s.txn.rxLen.toNat ≤ u.rxLen.toNat := by omega
    exact ⟨hcode, hex, hpf, hpa, hpd, hb, htl, htp, hx, hd, rfl, hold, hle, hcount, hreg, hcoil⟩
  · exact ⟨hcode, hex, rfl, rfl, rfl, rfl, rfl, rfl, rfl, rfl, rfl, fun _ _ => rfl, le_rfl, hcount, hreg, hcoil⟩

/-- Settles O46: in a finished transaction each effect leaves group T but for `DISCARD`, clears it, or asks for a STATE
that is not finished. -/
theorem finishedTransactionsAreStable : Obligations.FinishedTransactionsAreStable := by
  intro i s t h hs
  cases exec_effect h with
  | same | refuse | crcInit | crcByte | discard => exact .inl rfl
  | rw off v r => exact .inl (by rw [writeRw_txn])
  | start op hop => exact .inr ⟨.inr (.inr ⟨op, hop, rfl⟩), rfl, rfl, rfl, rfl⟩
  | clear hi => exact .inr ⟨.inr (.inl ⟨hi, rfl⟩), rfl, rfl, rfl, rfl⟩
  | reset hi => exact .inr ⟨.inl hi, rfl, rfl, rfl, rfl⟩
  | take _ _ hx | accept _ _ _ hx => simp [hx] at hs
  | timeout _ hb => rcases (busy_iff _).1 hb with hx | hx <;> simp [hx] at hs

end

section
/-! The reset and hazard statements (70_reset_and_hazards.md R230, R231, R242): the block after RESET, and runs in which
the link does its duties. -/

namespace Sys2Proof.Machine

/-- No effect but that of RESET or of a host write changes group H (10_state.md R32, R33, R46, R47). -/
theorem Effect.hostGroup_eq {i : Instr} {s t : State} (h : Effect i s t) (hr : i ≠ .reset)
    (hw : ∀ off w v, i ≠ .memWrite off w v) :
    t.reqAddr = s.reqAddr ∧ t.reqData = s.reqData ∧ t.irqEn = s.irqEn ∧ t.crcCfg = s.crcCfg := by
  cases h with
  | rw off v r hi => exact absurd hi (hw off .bits16 v)
  | reset hi => exact absurd hi hr
  | same | refuse | start | clear | crcInit | crcByte | take | discard | accept | timeout => exact ⟨rfl, rfl, rfl, rfl⟩

/-! The invariant along a run, and the events that have a step (duty (a), first half). -/

/-- An attempted event keeps the invariant, whether or not it has a step. -/
theorem attempt_inv (e : Event) {s : State} (h : s.toBlock.Inv) : (attempt e s).toBlock.Inv := by
  rcases attempt_cases e s with he | ⟨-, he⟩
  · exact (exec_effect he).inv h
  · rwa [he]

theorem runFrom_inv {s : State} (h : s.toBlock.Inv) (ev : Nat → Event) (n : Nat) : (runFrom s ev n).toBlock.Inv := by
  induction n with
  | zero => exact h
  | succ n ih => exact attempt_inv (ev n) ih

/-- From the invariant every event but a TX_TAKE outside TX has a step (00_scope.md R12; 41_decoder.md R131, R143). -/
theorem exec_decode_attempt {e : Event} {s : State} (h : s.toBlock.Inv) (he : e = .txTake → s.txn.state = .tx) :
    exec (decode e) s = .next (attempt e s) := by
  obtain ⟨t, ht⟩ := exec_total h fun hd => he (event_of_decode hd rfl nofun)
  rw [attempt_of_next ht, ht]

/-! The byte streams of the link and the two buffers (20_memory.md R60 (b)). -/

/-- The request bytes of TXBUF that the link took, `TXBUF[0..TX_PTR-1]` (41_decoder.md R131). -/
def Transaction.takenPart (t : Transaction) : List Byte := t.txBuf.toList.take t.txPtr.toNat

/-- The response bytes the block accepted, `RXBUF[0..RX_LEN-1]` (41_decoder.md R132). -/
def Transaction.acceptedPart (t : Transaction) : List Byte := t.rxPrefix t.rxLen.toNat

theorem takenPart_of_txPtr {t : Transaction} (h : t.txPtr = 0#4) : t.takenPart = [] := by
  rw [Transaction.takenPart, h]; rfl

theorem acceptedPart_of_rxLen {t : Transaction} (h : t.rxLen = 0#9) : t.acceptedPart = [] := by
  rw [Transaction.acceptedPart, h]; rfl

/-- A taken request byte is the next one of TXBUF. -/
theorem takeByte_takenPart {t : Transaction} (h : t.txPtr.toNat < 8) :
    t.takeByte.takenPart = t.takenPart ++ [t.txBuf[t.txPtr.toNat]] := by
  have hp : (t.txPtr + 1#4).toNat = t.txPtr.toNat + 1 := by
    simp only [BitVec.toNat_add, BitVec.toNat_ofNat]; omega
  simp only [Transaction.takenPart, takeByte_txBuf, takeByte_txPtr, hp]
  exact List.take_succ_eq_append_getElem (by simpa using h)

/-- An accepted response byte is the next one of RXBUF. -/
theorem acceptByte_acceptedPart {d : Byte} {t u : Transaction} (h : acceptByte d t = .ok u) :
    u.acceptedPart = t.acceptedPart ++ [d] := by
  obtain ⟨hroom, -⟩ := acceptByte_ok h
  obtain ⟨-, -, -, -, -, -, -, hb, hl⟩ := acceptByte_frame h
  rw [Transaction.acceptedPart, Transaction.rxPrefix, hb, hl, storeByte_rxLen_toNat d t hroom]
  exact storeByte_rxPrefix d t hroom

/-- TX_TAKE hands out a byte of TXBUF that exists, and has no other step. -/
theorem Effect.exists_takenByte {s t : State} (h : Effect .txTake s t) : ∃ hp : s.txn.txPtr.toNat < 8,
    t = { s with txn := s.txn.takeByte, response := .txByte s.txn.txBuf[s.txn.txPtr.toNat] } := by
  cases h with
  | take hp => exact ⟨hp, rfl⟩
  | _ => contradiction

/-- TX_TAKE extends the taken part of TXBUF by the byte it hands out; an encode command, CLEAR and RESET empty it, and no
other step changes it or hands out a byte. -/
theorem exec_takenPart {i : Instr} {s t : State} (h : exec i s = .next t) :
    t.txn.takenPart <:+ s.txn.takenPart ++ t.response.requestByte := by
  by_cases hi : i = .txTake
  · obtain ⟨hp, rfl⟩ := (hi ▸ exec_effect h : Effect .txTake s t).exists_takenByte
    exact takeByte_takenPart hp ▸ List.suffix_rfl
  rw [requestByte_of_exec h hi, List.append_nil]
  cases exec_effect h with
  | take _ ht => exact absurd ht hi
  | start | clear | reset => rw [takenPart_of_txPtr (by rfl)]; exact List.nil_suffix
  | rw off v r => rw [writeRw_txn]
  | accept d u _ _ hu =>
    obtain ⟨-, -, -, -, hb, -, hp, -, -⟩ := acceptByte_frame hu
    rw [Transaction.takenPart, hb, hp]; exact List.suffix_rfl
  | same | refuse | crcInit | crcByte | discard | timeout => exact List.suffix_rfl

/-- From a state in which the link has taken nothing, the bytes it took in a run end with the taken part of TXBUF. -/
theorem takenPart_suffix_takenBytes {s : State} (h : s.txn.takenPart = []) (ev : Nat → Event) (n : Nat) :
    (runFrom s ev n).txn.takenPart <:+ takenBytes s ev n := by
  induction n with
  | zero => exact h ▸ List.nil_suffix
  | succ n ih =>
    rw [runFrom_succ, takenBytes_succ]
    rcases attempt_cases (ev n) (runFrom s ev n) with he | ⟨hno, he⟩
    · rw [handedOver_of_next he]
      exact (exec_takenPart he).trans (List.suffix_append_self_iff.2 ih)
    · rwa [he, handedOver_of_no_step hno, List.append_nil]

@[simp] theorem writeRw_busy (r : Reg) (v : Word) (b : Block) : (writeRw r v b).busy = b.busy := by
  cases r <;> rfl

theorem ne_rxByte_of_writesCmd {i : Instr} (h : i.writesCmd = true) (d : Byte) : i ≠ .rxByte d := by
  rintro rfl; cases h

theorem deliveredByte_of_decode {e : Event} {d : Byte} (h : decode e = .rxByte d) : deliveredByte e = [d] := by
  rw [event_of_decode h rfl nofun]; rfl

theorem deliveredByte_of_decode_ne {e : Event} (h : ∀ d, decode e ≠ .rxByte d) : deliveredByte e = [] := by
  cases e with
  | rxByte d => exact absurd rfl (h d)
  | _ => rfl

/-- In TX no response byte was accepted (10_state.md R49 (f)). -/
theorem Transaction.Inv.acceptedPart_of_tx {t : Transaction} (h : t.Inv) (hs : t.state = .tx) : t.acceptedPart = [] :=
  acceptedPart_of_rxLen (h.offering hs).2.1

/-- After a step that leaves a transaction in flight the accepted part of RXBUF is empty (a request just built, or TX), or
the transaction was in flight before, and an RX_BYTE extended the part by its byte or another instruction kept it. -/
theorem Effect.acceptedPart_cases {i : Instr} {s t : State} (h : Effect i s t) (hinv : s.toBlock.Inv)
    (hb : t.busy = true) :
    t.txn.acceptedPart = [] ∨
    s.busy = true ∧ ((∃ d, i = .rxByte d ∧ t.txn.acceptedPart = s.txn.acceptedPart ++ [d]) ∨
      (∀ d, i ≠ .rxByte d) ∧ t.txn.acceptedPart = s.txn.acceptedPart) := by
  cases h with
  | same _ _ _ _ _ hi => exact .inr ⟨hb, .inr ⟨hi, rfl⟩⟩
  | refuse _ hc | crcInit _ hc | crcByte _ _ hc => exact .inr ⟨hb, .inr ⟨ne_rxByte_of_writesCmd hc, rfl⟩⟩
  | rw off v r hi => exact .inr ⟨writeRw_busy r v s.toBlock ▸ hb, .inr ⟨by simp [hi], by rw [writeRw_txn]⟩⟩
  | start => exact .inl (acceptedPart_of_rxLen rfl)
  | take _ _ hs => exact .inl (hinv.txn.acceptedPart_of_tx hs)
  | discard d _ hs =>
    have htx : s.txn.state = .tx := ((busy_iff _).1 hb).resolve_right hs
    exact .inl (hinv.txn.acceptedPart_of_tx htx)
  | accept d u hi hs hu =>
    exact .inr ⟨(busy_iff _).2 (.inr hs), .inl ⟨d, hi, acceptByte_acceptedPart hu⟩⟩
  | clear | timeout | reset => cases hb

/-- From an idle state, the bytes the link delivered in a run end with the accepted part of RXBUF while a transaction is
in flight: every RX_BYTE has a step, and in TX the part is empty. -/
theorem acceptedPart_suffix_deliveredBytes {s : State} (h : s.toBlock.Inv) (hs : s.busy = false) (ev : Nat → Event)
    (n : Nat) (hb : (runFrom s ev n).busy = true) : (runFrom s ev n).txn.acceptedPart <:+ deliveredBytes ev n := by
  induction n with
  | zero => exact absurd (hs.symm.trans hb) nofun
  | succ n ih =>
    have hn := runFrom_inv h ev n
    rw [runFrom_succ] at hb ⊢
    rw [deliveredBytes_succ]
    rcases attempt_cases (ev n) (runFrom s ev n) with he | ⟨hno, he⟩
    · rcases (exec_effect he).acceptedPart_cases hn hb with h0 | ⟨hb', ⟨d, hd, ha⟩ | ⟨hd, ha⟩⟩
      · rw [h0]; exact List.nil_suffix
      · rw [ha, deliveredByte_of_decode hd]; exact List.suffix_append_self_iff.2 (ih hb')
      · rw [ha, deliveredByte_of_decode_ne hd, List.append_nil]; exact ih hb'
    · have hd : ∀ d, decode (ev n) ≠ .rxByte d := fun d hd =>
        have ⟨t, ht⟩ := exec_total hn (i := .rxByte d) nofun
        hno t (hd ▸ ht)
      rw [he] at hb ⊢
      rw [deliveredByte_of_decode_ne hd, List.append_nil]; exact ih hb

/-! The transaction in flight (duty (c)). -/

/-- A transaction in flight stays so but at a RX_TIMEOUT, a RESET, or an RX_BYTE after which the block awaits no more
(43_control.md R191). -/
theorem Effect.busy_of_not_end {i : Instr} {s t : State} (h : Effect i s t) (hb : s.busy = true) (hi : i ≠ .rxTimeout)
    (hr : i ≠ .reset) (ha : ∀ d, i = .rxByte d → s.txn.state = .await → t.txn.state = .await) : t.busy = true := by
  cases h with
  | same | refuse | crcInit | crcByte | discard => exact hb
  | rw off v r => exact (writeRw_busy r v s.toBlock).trans hb
  | start _ _ _ hn | clear _ _ hn => exact absurd (hn.symm.trans hb) nofun
  | take _ _ hs =>
    rw [busy_iff, takeByte_state]
    split
    · exact .inr rfl
    · exact .inl hs
  | accept d u hd hs => exact (busy_iff _).2 (.inr (ha d hd hs))
  | timeout ht => exact absurd ht hi
  | reset ht => exact absurd ht hr

/-- A run keeps a transaction in flight at an event by which the link does not end it and that is no RESET. -/
theorem runFrom_succ_busy {s : State} {ev : Nat → Event} {n : Nat} (hb : (runFrom s ev n).busy = true)
    (hl : ¬ LinkEnds s ev n) (hr : ev n ≠ .reset) : (runFrom s ev (n + 1)).busy = true := by
  rcases attempt_cases (ev n) (runFrom s ev n) with he | ⟨-, he⟩
  · refine (exec_effect he).busy_of_not_end hb (fun ht => hl (.inl (event_of_decode ht rfl nofun)))
      (fun ht => hr (event_of_decode ht rfl nofun)) fun d hd hs => ?_
    by_contra hne
    exact hl (.inr ⟨d, event_of_decode hd rfl nofun, hs, hne⟩)
  · rwa [runFrom_succ, he]

/-- A transaction in flight at event `n` still is at event `m` where no event between ends it. -/
theorem runFrom_busy_of_le {s : State} {ev : Nat → Event} {n m : Nat} (hb : (runFrom s ev n).busy = true) (hnm : n ≤ m)
    (hend : ∀ k, n ≤ k → k < m → ¬ LinkEnds s ev k ∧ ev k ≠ .reset) : (runFrom s ev m).busy = true := by
  induction m, hnm using Nat.le_induction with
  | base => exact hb
  | succ m hnm ih =>
    obtain ⟨hl, hr⟩ := hend m hnm m.lt_succ_self
    exact runFrom_succ_busy (ih fun k hk hkm => hend k hk (by omega)) hl hr

/-- Where some event from `n` on ends the transaction, there is a first one. -/
theorem exists_first_end {s : State} {ev : Nat → Event} {n : Nat}
    (h : ∃ m, n ≤ m ∧ (LinkEnds s ev m ∨ ev m = .reset)) :
    ∃ m, n ≤ m ∧ (LinkEnds s ev m ∨ ev m = .reset) ∧ ∀ k, n ≤ k → k < m → ¬ LinkEnds s ev k ∧ ev k ≠ .reset := by
  classical
  obtain ⟨hnm, hm⟩ := Nat.find_spec h
  exact ⟨Nat.find h, hnm, hm, fun k hk hkm => not_or.1 fun he => Nat.find_min h hkm ⟨hk, he⟩⟩

/-- An event by which the link ends the transaction in flight leaves it finished (41_decoder.md R133, R136, R142). -/
theorem LinkEnds.finished {s : State} {ev : Nat → Event} {n : Nat} (h : LinkEnds s ev n)
    (hinv : (runFrom s ev n).toBlock.Inv) (hb : (runFrom s ev n).busy = true) :
    (runFrom s ev (n + 1)).txn.state = .doneOk ∨ (runFrom s ev (n + 1)).txn.state = .doneErr := by
  rcases h with ht | ⟨d, hd, hs, hne⟩
  · rw [runFrom_succ, ht, attempt_of_next (e := .rxTimeout) (exec_rxTimeout_of_busy hb)]
    exact .inr rfl
  · obtain ⟨u, he, -, hu, -⟩ := exec_rxByte_accepted d hinv hs
    rw [runFrom_succ, hd, attempt_of_next (e := .rxByte d) he] at hne ⊢
    rcases hu.end_cases hs hne with ⟨-, -, -, herr, -⟩ | ⟨-, -, hok | ⟨herr, -⟩⟩
    · exact .inr herr
    · exact .inl hok
    · exact .inr herr

/-- After a RESET no transaction is in flight (70_reset_and_hazards.md R230). -/
theorem runFrom_succ_reset {s : State} {ev : Nat → Event} {n : Nat} (h : ev n = .reset) :
    (runFrom s ev (n + 1)).txn.state = .idle := by
  rw [runFrom_succ, h]; rfl

end Sys2Proof.Machine

open Sys2Proof Sys2Proof.Machine

/-- Settles O57: runs stay in the invariant, from which only a TX_TAKE outside TX lacks a step. -/
theorem everyEventHasAStep : Obligations.EveryEventHasAStep := fun _ ev hinv htakes n =>
  exec_decode_attempt (runFrom_inv hinv ev n) (htakes n)

/-- Settles O58: both parts are empty in an idle state, and every event extends a part and its stream alike. -/
theorem linkStreamsAreTheBuffers : Obligations.LinkStreamsAreTheBuffers := by
  intro s ev sent arrived hinv hs hsent harrived n t
  have hidle : s.txn.takenPart = [] := takenPart_of_txPtr (by rw [hinv.txn.idleCleared hs]; rfl)
  have hfree : s.busy = false := by simp [Block.busy, hs]
  obtain ⟨before, htaken⟩ := takenPart_suffix_takenBytes hidle ev n
  refine ⟨⟨before, htaken.symm, ?_⟩, fun hb => ?_⟩
  · exact htaken.symm ▸ hsent.1 n
  · obtain ⟨before, hdel⟩ := acceptedPart_suffix_deliveredBytes hinv hfree ev n ((busy_iff _).2 hb)
    exact ⟨before, hdel.symm, hdel.symm ▸ harrived.1 n⟩

/-- Settles O59: duty (c) gives a first event that ends the transaction; up to it the transaction is in flight, and the
event itself finishes it or is a RESET. Without such an event the transaction stays in flight. -/
theorem linkDutyEndsEveryTransaction : Obligations.LinkDutyEndsEveryTransaction := by
  refine ⟨fun s ev hinv hduty n hb => ?_, fun s ev _ hb hend n =>
    runFrom_busy_of_le (n := 0) hb n.zero_le fun k _ _ => hend k⟩
  obtain ⟨m, hnm, hm, hfirst⟩ := exists_first_end (hduty n hb)
  have hflight : ∀ k, n ≤ k → k ≤ m → (runFrom s ev k).busy = true := fun k hk hkm =>
    runFrom_busy_of_le hb hk fun j hj hjk => hfirst j hj (hjk.trans_le hkm)
  refine ⟨m, hnm, hflight, hm.imp (fun hl => ⟨hl, ?_⟩) fun hr => ⟨hr, runFrom_succ_reset hr⟩⟩
  exact hl.finished (runFrom_inv hinv ev m) (hflight m hnm le_rfl)

/-- Settles O1: each row by evaluation, the rows of a buffer by the value of a replicated vector. -/
theorem resetLeavesTheStatedValues : Obligations.ResetLeavesTheStatedValues := by
  have hbuf {n m : Nat} (x : BitVec m) (i : Fin n) : (Vector.replicate n x)[i] = x := Vector.getElem_replicate i.isLt
  exact ⟨rfl, rfl, rfl, rfl, rfl, rfl, rfl, rfl, rfl, rfl, rfl, rfl, rfl, hbuf _, rfl, rfl, hbuf _, rfl, rfl, rfl,
    hbuf _, hbuf _, rfl, rfl, rfl, rfl⟩

/-- Settles O2: RESET by evaluation, and group H by the effects of the other instructions. -/
theorem resetEventRestoresTheBlock : Obligations.ResetEventRestoresTheBlock :=
  ⟨fun _ => ⟨_, rfl, rfl, rfl, rfl, rfl, rfl, rfl, rfl, rfl, rfl, exec_txTake_of_ne_tx nofun⟩,
    fun _ _ _ h => (exec_effect h).hostGroup_eq⟩

end
